-- ==== Sys2Proof/Word.lean ====
section
/-! DEFINITION. The words of the block (00_scope.md R10, R11): bytes, levels of a bar, brightness, line levels,
and the two output lines (42_wire_framing.md R130). -/

namespace Sys2Proof

/-- A ColumnPattern, a row byte, a shadow byte, a command byte (R10). -/
abbrev Byte := BitVec 8

/-- A BarLevel field: 4 bits, of which the values 9 to 15 are invalid levels (R10). -/
abbrev BarLevel := BitVec 4

/-- A Brightness: 3 bits, every value legal (R10, R26). -/
abbrev Brightness := BitVec 3

/-- The level of a line, one bit: `false` is 0, low, and `true` is 1, high (R10, R22). -/
abbrev Level := Bool

/-- A Frame: exactly 16 BarLevels (R14). -/
abbrev Frame := Vector BarLevel 16

/-- The two output lines (R130). -/
inductive Line where
  /-- CLK, the clock. -/
  | clk
  /-- DIO, the data line. -/
  | dio
  deriving DecidableEq, Repr, Inhabited

/-- One entry of the event trace: the line a `SetLine` set, and the level it went to (R12, R13). -/
abbrev Event := Line × Level

/-- What the line interface does with one `SetLine` (60_exceptions.md R205): the draws `GPIO_FAIL` and
`LEVEL_AFTER_FAIL` of one event, as one value. -/
inductive LineDraw where
  /-- The set succeeds. -/
  | done
  /-- The set fails, and the line then stands at this level. -/
  | fails (level : Level)
  deriving DecidableEq, Repr, Inhabited

/-- How the chip places the data bytes of a burst sent after 0x44: the parameter `RX_ADDRESSING` (R9, R149). -/
inductive RxAddressing where
  /-- Each byte goes to the row after the one before it. -/
  | increment
  /-- Every byte goes to the row of the address byte. -/
  | fixed
  deriving DecidableEq, Repr, Inhabited

end Sys2Proof
end

