-- ==== Sys2Proof/Config.lean ====
section
/-! DEFINITION. What is fixed for the block: the parameters of 00_scope.md R8 with their values, and those of R9
and the open values of 93_implementation_defined.md as constants without a body, so that nothing can be proved of
their value. -/

namespace Sys2Proof.Config

/-! ## The fixed parameters (R8) -/

/-- `N_ROWS`: row registers addressed on the chip, and the length of the shadow. -/
def nRows : Nat := 16
/-- `N_HALF`: columns per half of a Frame. -/
def nHalf : Nat := 8
/-- `N_LEVELS`: BarLevels per Frame. -/
def nLevels : Nat := 16
/-- `LEVEL_MAX`: the largest valid BarLevel. -/
def levelMax : Nat := 8
/-- `BRIGHT_MAX`: the largest valid brightness. -/
def brightMax : Int := 7
/-- `N_LINES`: the output lines, CLK and DIO. -/
def nLines : Nat := 2
/-- `BITS_PER_BYTE`: bits per shifted byte. -/
def bitsPerByte : Nat := 8
/-- `CMD_DATA`, the data command. -/
def cmdData : Byte := 0x40
/-- `CMD_FIXED_ADDR`, fixed-address mode. -/
def cmdFixedAddr : Byte := 0x44
/-- `CMD_ADDR_BASE`, the address-command base. -/
def cmdAddrBase : Byte := 0xC0
/-- `CMD_DISP_BASE`, the display-control base. -/
def cmdDispBase : Byte := 0x80
/-- `DISP_ON`, the display-on bit. -/
def dispOn : Byte := 0x08

/-! ## The open parameters (R9) and the free values, none of which has a body -/

/-- `LINE_LEVEL_AT_ACQUIRE` of CLK (D9, U9): any value. DESIGN CHOICE of form, log 5. -/
opaque clkAtAcquire : Level
/-- `LINE_LEVEL_AT_ACQUIRE` of DIO (D9, U9): any value. DESIGN CHOICE of form, log 5. -/
opaque dioAtAcquire : Level
/-- `GPIO_FAIL` and `LEVEL_AFTER_FAIL` (D12, U10, U11) of the event with this number in the run, for an event that
State.lineDraws does not list. Free value, log 6. -/
opaque lineDraw : Nat → LineDraw
/-- The CLK level after the lines are released (U12), by the length of the trace then. Free value, log 7. -/
opaque clkReleased : Nat → Level
/-- The DIO level after the lines are released (U12), by the length of the trace then. Free value, log 7. -/
opaque dioReleased : Nat → Level
/-- `RX_ADDRESSING` (D17, U5): the value State.reset carries. Log 8. -/
opaque rxAddressing : RxAddressing
/-- `CHIP_RAM_INIT` (D18, U6): the chip's rows before the first write. Log 8. -/
opaque chipRamInit : Vector Byte 16
/-- The chip's display-control register before the first control byte (U7). Log 8. -/
opaque chipCtrlInit : Byte
/-- The chip's rows after the receiver's state became unknown for the n-th time (R149, U4). Free value, log 9. -/
opaque unknownRam : Nat → Vector Byte 16
/-- The chip's display-control register after the receiver's state became unknown for the n-th time (R149, U4).
Free value, log 9. -/
opaque unknownCtrl : Nat → Byte
/-- Whether the chip does with the n-th aborted transmission what the reference decoder does (R242, U8), for one
that Receiver.abortDraws does not list. Free value, log 10. -/
opaque abortFollows : Nat → Bool
/-- `T_EDGE_MIN` (D14, U15): the least time between two events. No rule reads it. Log 20. -/
opaque tEdgeMin : Nat

/-! ## The host's policies (R213, D38) -/

/-- What a host does after a request that did not respond OK. -/
inductive HostPolicy where
  /-- It issues no further request. -/
  | halt
  /-- It goes on issuing requests. -/
  | carryOn
  deriving DecidableEq, Repr

/-- `HOST_INIT_FAIL_POLICY`: after an INIT that did not respond OK. -/
def hostInitFailPolicy : HostPolicy := .halt
/-- `HOST_FRAME_FAIL_POLICY`: after a RENDER or WRITE that responded LineIOError. -/
def hostFrameFailPolicy : HostPolicy := .carryOn

end Sys2Proof.Config
end

