-- ==== Sys2Proof/Syntax.lean ====
section
/-! DEFINITION. The instructions: one constructor for each row of the opcode table. The eight requests are the
abstract requests of 30_encoding.md R80, with unbounded operands; the five wire bytes are those of R71. -/

namespace Sys2Proof

/-- The instructions of the opcode table. The requests are executed by the engine (PUBLISH by the producer, TRANSFORM
by any agent); the wire bytes by the reference receiver at the other end of the wire (R149). -/
inductive Instr where
  /-- Wire byte 0x40, the data command (R72). -/
  | cmdData
  /-- Wire byte 0x44, fixed-address mode (R73). -/
  | cmdFixedAddr
  /-- Wire byte `0xC0 | p`, the address command for row `p` (R74). -/
  | cmdAddr (p : BitVec 4)
  /-- Wire byte `0x80 | 0x08 | b`, display control: on, at brightness `b` (R75). -/
  | cmdDispCtrl (b : Brightness)
  /-- A data byte of a burst (R76). -/
  | data (d : Byte)
  /-- INIT: construction and `initialize()` (R160). -/
  | init (brightness : Int) (mirror reversed : Bool)
  /-- SET_BRIGHTNESS (R162). -/
  | setBrightness (level : Int)
  /-- WRITE (R165). -/
  | write (pos : Int) (bytes : List Byte)
  /-- CLEAR (R170). -/
  | clear
  /-- TEARDOWN (R171). -/
  | teardown
  /-- TRANSFORM (R107). -/
  | transform (frame : List BarLevel) (mirror reversed : Bool)
  /-- RENDER (R182). -/
  | render
  /-- PUBLISH (R180). -/
  | publish (frame : List BarLevel)
  deriving DecidableEq, Repr

/-- A request in the abstract form of R80: what a host may ask of the block without encoding it. -/
inductive Request where
  | init (brightness : Int) (mirror reversed : Bool)
  | setBrightness (level : Int)
  | write (pos : Int := 0) (bytes : List Byte)
  | clear
  | teardown
  | transform (frame : List BarLevel) (mirror reversed : Bool)
  | render
  | publish (frame : List BarLevel)
  deriving DecidableEq, Repr

/-- The instruction an abstract request asks for. -/
def Request.toInstr : Request → Instr
  | .init b m v => .init b m v
  | .setBrightness l => .setBrightness l
  | .write pos bytes => .write pos bytes
  | .clear => .clear
  | .teardown => .teardown
  | .transform f m v => .transform f m v
  | .render => .render
  | .publish f => .publish f

/-- A request as it stands on the request port: abstract (R80), or binary, a 32-bit header and a payload (R81). -/
inductive PortRequest where
  | abstract (r : Request)
  | binary (header : BitVec 32) (payload : List Byte)
  deriving DecidableEq, Repr

/-- An encoded instruction: a wire byte with its place in its transmission (a first byte is a command, a later byte
of a burst is data: R70, R76), or the header and payload of a request (R81). -/
inductive Code where
  | wire (inBurst : Bool) (b : Byte)
  | request (header : BitVec 32) (payload : List Byte)
  deriving DecidableEq, Repr

end Sys2Proof
end

