-- ==== Sys2Proof/WellFormed.lean ====
section
/-! DEFINITION. Which instructions have an encoding: the binary form carries brightness, level and position in 8
unsigned bits, the length of the data in 8 bits, and a frame of exactly 16 levels (30_encoding.md R81, R83). The
abstract form (R80) admits more; those instructions execute, but no words encode them. -/

namespace Sys2Proof

/-- The 8-bit operand field A holds this integer (R81). -/
def fitsField (v : Int) : Bool := decide (0 ≤ v) && decide (v ≤ 255)

/-- The instruction has a binary encoding (R81 to R83). -/
def Instr.wellFormed : Instr → Bool
  | .cmdData => true
  | .cmdFixedAddr => true
  | .cmdAddr _ => true
  | .cmdDispCtrl _ => true
  | .data _ => true
  | .init b _ _ => fitsField b
  | .setBrightness l => fitsField l
  | .write pos bytes => fitsField pos && decide (bytes.length ≤ 255)
  | .clear => true
  | .teardown => true
  | .transform f _ _ => decide (f.length = 16)
  | .render => true
  | .publish f => decide (f.length = 16)

end Sys2Proof
end

