-- ==== Sys2Proof/Decode.lean ====
section
/-! DEFINITION. Reading an instruction from its bits and writing it as bits (30_encoding.md): the wire bytes of R71,
and the binary requests of R81 to R84. Decoding is total; what it rejects it rejects by name. -/

namespace Sys2Proof

/-! ## The header's fields (R81) -/

/-- OP, bits [31:28]. -/
def headerOp (h : BitVec 32) : BitVec 4 := h.extractLsb' 28 4
/-- RES1, bits [27:24]. -/
def headerRes1 (h : BitVec 32) : BitVec 4 := h.extractLsb' 24 4
/-- A, bits [23:16]. -/
def headerA (h : BitVec 32) : BitVec 8 := h.extractLsb' 16 8
/-- N, bits [15:8]. -/
def headerN (h : BitVec 32) : BitVec 8 := h.extractLsb' 8 8
/-- RES0, bits [7:2]. -/
def headerRes0 (h : BitVec 32) : BitVec 6 := h.extractLsb' 2 6
/-- M, bit [1]. -/
def headerM (h : BitVec 32) : Bool := h.getLsbD 1
/-- V, bit [0]. -/
def headerV (h : BitVec 32) : Bool := h.getLsbD 0

/-- The request codes 0x0 to 0x7 are assigned, 0x8 to 0xF reserved (R82). -/
def opReserved (op : BitVec 4) : Bool := decide (8 ≤ op.toNat)
/-- INIT, SET_BRIGHTNESS and WRITE use A (R82). -/
def opUsesA (op : BitVec 4) : Bool := op == 0 || op == 1 || op == 2
/-- WRITE uses N (R82). -/
def opUsesN (op : BitVec 4) : Bool := op == 2
/-- INIT and TRANSFORM use M and V (R82). -/
def opUsesFlags (op : BitVec 4) : Bool := op == 0 || op == 5

/-- The number of payload bytes a header calls for: N for WRITE, 8 for TRANSFORM and PUBLISH, otherwise none (R81). -/
def payloadLength (h : BitVec 32) : Nat :=
  if headerOp h = 2 then (headerN h).toNat
  else if headerOp h = 5 ∨ headerOp h = 7 then 8
  else 0

/-- A field of a malformed request that offends (R84, R208). -/
inductive OffendingField where
  /-- OP is 0x8 to 0xF. -/
  | op
  /-- RES1 is not 0. -/
  | res1
  /-- RES0 is not 0. -/
  | res0
  /-- A is not 0 and the OP does not use it. -/
  | a
  /-- N is not 0 and the OP does not use it. -/
  | n
  /-- M is not 0 and the OP does not use it. -/
  | m
  /-- V is not 0 and the OP does not use it. -/
  | v
  /-- The payload has only this many bytes, fewer than the length rule gives. -/
  | payload (length : Nat)
  /-- A frame of this many levels, not 16 (the abstract form only). -/
  | frame (length : Nat)
  deriving DecidableEq, Repr

/-- The field if the check finds it offending. -/
def offends (field : OffendingField) (check : Bool) : List OffendingField := if check then [field] else []

/-- Every offending field of a binary request (R84). A reserved OP has no list of used fields and no length rule, so
only the reserved bits are looked at beside it. The spec's InvalidRequest records "the offending field"; where
several offend, the model records them all, and so chooses none (log 14). -/
def offendingFields (h : BitVec 32) (payload : List Byte) : List OffendingField :=
  let op := headerOp h
  let known := !opReserved op
  offends .op (opReserved op) ++ offends .res1 (headerRes1 h != 0) ++ offends .res0 (headerRes0 h != 0)
    ++ offends .a (known && !opUsesA op && headerA h != 0) ++ offends .n (known && !opUsesN op && headerN h != 0)
    ++ offends .m (known && !opUsesFlags op && headerM h) ++ offends .v (known && !opUsesFlags op && headerV h)
    ++ offends (.payload payload.length) (known && decide (payload.length < payloadLength h))

/-- A binary request that R84 refuses: its OP and its offending fields. -/
structure BadRequest where
  op : BitVec 4
  fields : List OffendingField
  deriving DecidableEq, Repr

/-- Why bits are no instruction. -/
inductive DecodeError where
  /-- A binary request that R84 refuses. -/
  | badRequest (bad : BadRequest)
  /-- A first byte of a transmission that R71 gives no command (R78, U4). -/
  | unknownCommand (b : Byte)
  deriving DecidableEq, Repr

/-! ## Frames (R83) -/

/-- The levels of a frame payload: byte `k` holds `frame[2k]` in bits [3:0] and `frame[2k+1]` in bits [7:4]. -/
def unpackFrame : List Byte → List BarLevel
  | [] => []
  | b :: rest => b.extractLsb' 0 4 :: b.extractLsb' 4 4 :: unpackFrame rest

/-- The payload of a frame: two levels a byte, the first in the low half. -/
def packFrame : List BarLevel → List Byte
  | lo :: hi :: rest => (hi ++ lo) :: packFrame rest
  | _ => []

/-! ## Decoding -/

/-- The instruction of a well-formed header, by its OP (R82): `brightness = level = pos = zext(A)`,
`data = payload[0:N]`, `mirror = (M = 1)`, `reversed = (V = 1)` (R81). -/
def requestOf (h : BitVec 32) (payload : List Byte) : Option Instr :=
  match (headerOp h).toNat with
  | 0 => some (.init (headerA h).toNat (headerM h) (headerV h))
  | 1 => some (.setBrightness (headerA h).toNat)
  | 2 => some (.write (headerA h).toNat (payload.take (headerN h).toNat))
  | 3 => some .clear
  | 4 => some .teardown
  | 5 => some (.transform (unpackFrame (payload.take 8)) (headerM h) (headerV h))
  | 6 => some .render
  | 7 => some (.publish (unpackFrame (payload.take 8)))
  | _ => none

/-- A binary request (R81 to R84). Payload bytes past the length the header calls for are not looked at (log 3). -/
def decodeRequest (h : BitVec 32) (payload : List Byte) : Except BadRequest Instr :=
  match offendingFields h payload, requestOf h payload with
  | [], some i => .ok i
  | fields, _ => .error ⟨headerOp h, fields⟩

/-- The first byte of a transmission (R71); none for a value R71 gives no command (R78). -/
def decodeCommand (b : Byte) : Option Instr :=
  if b = 0x40 then some .cmdData
  else if b = 0x44 then some .cmdFixedAddr
  else if b &&& 0xF0 = 0xC0 then some (.cmdAddr (b.extractLsb' 0 4))
  else if b &&& 0xF8 = 0x88 then some (.cmdDispCtrl (b.extractLsb' 0 3))
  else none

/-- The instruction an encoded one stands for. -/
def decodeCode : Code → Except DecodeError Instr
  | .wire false b =>
    match decodeCommand b with
    | some i => .ok i
    | none => .error (.unknownCommand b)
  | .wire true b => .ok (.data b)
  | .request h payload =>
    match decodeRequest h payload with
    | .ok i => .ok i
    | .error bad => .error (.badRequest bad)

/-! ## Encoding -/

/-- A header from its OP and fields, the reserved bits 0 (R81). -/
def headerWord (op : BitVec 4) (a n : BitVec 8) (m v : Bool) : BitVec 32 :=
  op ++ (0 : BitVec 4) ++ a ++ n ++ (0 : BitVec 6) ++ BitVec.ofBool m ++ BitVec.ofBool v

/-- The bits of an instruction (R71 to R76, R81 to R83); for an instruction without an encoding (wellFormed fails)
the operand is cut to its field, and the words do not decode back to it. -/
def encode : Instr → Code
  | .cmdData => .wire false 0x40
  | .cmdFixedAddr => .wire false 0x44
  | .cmdAddr p => .wire false ((0xC : BitVec 4) ++ p)
  | .cmdDispCtrl b => .wire false ((0x11 : BitVec 5) ++ b)
  | .data d => .wire true d
  | .init b m v => .request (headerWord 0 (BitVec.ofInt 8 b) 0 m v) []
  | .setBrightness l => .request (headerWord 1 (BitVec.ofInt 8 l) 0 false false) []
  | .write pos bytes => .request (headerWord 2 (BitVec.ofInt 8 pos) (BitVec.ofNat 8 bytes.length) false false) bytes
  | .clear => .request (headerWord 3 0 0 false false) []
  | .teardown => .request (headerWord 4 0 0 false false) []
  | .transform f m v => .request (headerWord 5 0 0 m v) (packFrame f)
  | .render => .request (headerWord 6 0 0 false false) []
  | .publish f => .request (headerWord 7 0 0 false false) (packFrame f)

/-! ## The words of the opcode table -/

/-- The payload in the bits of `w` above the header: byte `k` is bits 32+8k .. 39+8k. DESIGN CHOICE: it always has the
length the header calls for, bits that the table word does not give being 0, so a table word is never R84's short
payload (log 26). -/
def tablePayload (w : Nat) : List Byte :=
  (List.range (payloadLength (BitVec.ofNat 32 w))).map fun k => BitVec.ofNat 8 (w >>> (32 + 8 * k))

/-- The encoded instruction whose bits are `w`, numbered as the opcode table numbers them: 8 bits are a wire byte, 32
or more a request's header (bit 0 its least significant bit) and payload. A wire byte that is one of the commands
of R71 is read as the first byte of a transmission, and any other as a data byte of a burst (log 23). A request's
payload past the word's bits is zeros (DESIGN CHOICE, log 26). -/
def tableCode (nbits w : Nat) : Option Code :=
  if 2 ^ nbits ≤ w then none
  else if nbits = 8 then
    match decodeCommand (BitVec.ofNat 8 w) with
    | some _ => some (.wire false (BitVec.ofNat 8 w))
    | none => some (.wire true (BitVec.ofNat 8 w))
  else if 32 ≤ nbits then some (.request (BitVec.ofNat 32 w) (tablePayload w))
  else none

/-- The instruction the decoder reads from an instruction whose bits are `w`. -/
def decodeTableWord (nbits w : Nat) : Option Instr :=
  match tableCode nbits w with
  | some c =>
    match decodeCode c with
    | .ok i => some i
    | .error _ => none
  | none => none

end Sys2Proof
end

