-- ==== Sys2Proof/Machine/State.lean ====
section
/-! DEFINITION. The state of the block (10_state.md R20 to R36), its responses (60_exceptions.md R200), the reasons a
step can stop, and the state after reset (70_reset_and_hazards.md R230). Plain data throughout. -/

namespace Sys2Proof.Machine

/-- The lifecycle (R27). -/
inductive Life where
  | off | ready | released
  deriving DecidableEq, Repr

/-- The phases of the per-transmission state machine (R24, R132). -/
inductive Phase where
  | idle | start | shift | stop
  deriving DecidableEq, Repr

/-- A lock (R34). -/
inductive LockState where
  | free | held
  deriving DecidableEq, Repr

/-- The shadow's contents: (row, byte) pairs in one canonical form, rows strictly rising and no entry equal to what an
unlisted row reads as (Sys2Proof.Machine.unlistedByte; Memory.wf in Ops.lean says the form holds). -/
abbrev Memory := List Host.Cell

/-- The response of a request: its code's name and the info recorded with it (R200). Flags.lean gives the code
numbers, and R85's bytes. -/
inductive Response where
  /-- OK; the payload is the RowBitmap of a TRANSFORM, and empty for every other request (R85). -/
  | ok (payload : List Byte)
  /-- The offending brightness or level. -/
  | invalidBrightness (value : Int)
  /-- The offending position. -/
  | invalidPosition (pos : Int)
  /-- The position and the length of the data. -/
  | bufferOverflow (pos : Int) (length : Nat)
  /-- The lowest offending index and the level there. -/
  | invalidLevel (index : Nat) (level : BarLevel)
  /-- The line, and the number of the failed event within the request, from 0. -/
  | lineIOError (line : Line) (event : Nat)
  /-- The lifecycle the request met. -/
  | wrongLifecycle (life : Life)
  /-- The OP and the offending fields (log 14). -/
  | invalidRequest (op : BitVec 4) (fields : List OffendingField)
  deriving DecidableEq, Repr

/-- What the observation records of one request: its response (R13) and how many events it emitted (R183), by which
R218 counts bus transactions (log 15). -/
structure Completion where
  response : Response
  events : Nat
  deriving DecidableEq, Repr

/-- What the receiver takes its next byte for. -/
inductive RxPlace where
  /-- The first byte of a transmission: a command (R70). -/
  | first
  /-- A data byte of a burst, for this row (R149). -/
  | row (p : Nat)
  deriving DecidableEq, Repr

/-- The reference decoder and receiver at the far end of the wire (R36, R147, R149). The decoder's `c` and `d` are the
line levels just before each event, so they are the engine's `clk` and `dio` and stand there. -/
structure Receiver where
  /-- `chip_ram` (R36). -/
  chipRam : Vector Byte 16
  /-- `chip_ctrl` (R36). -/
  chipCtrl : Byte
  /-- `RX_ADDRESSING` (R9): no step writes it. -/
  addressing : RxAddressing
  /-- The decoder's `open` (R147). -/
  isOpen : Bool
  /-- The decoder's `bits`: the samples of the open transmission (R147). -/
  bits : List Bool
  /-- Model's own: a line failure cut the open transmission off (R242, log 10). -/
  cut : Bool
  /-- Transmissions decoded and not yet taken, oldest first (R147's `out`). -/
  queue : List (List Byte)
  /-- Model's own: the bytes still to take of the transmission being taken (log 1). -/
  current : List Byte
  /-- Model's own: the place of the next byte (log 1). -/
  place : RxPlace
  /-- Model's own: for each cut transmission of the run, whether the chip follows the reference decoder (log 10). -/
  abortDraws : List Bool
  /-- Model's own: how many cut transmissions have ended (log 10). -/
  aborts : Nat
  /-- Model's own: how often the receiver's state has become unknown (log 9). -/
  unknowns : Nat
  deriving DecidableEq, Repr

/-- The whole state. -/
structure State where
  /-- The level the engine drives on CLK (R22). -/
  clk : Level
  /-- The level the engine drives on DIO (R22). -/
  dio : Level
  /-- The engine owns and drives both lines (R23). -/
  linesHeld : Bool
  /-- The shadow buffer (R32, R50). -/
  shadow : Memory
  /-- The current brightness (R28). -/
  bright : Brightness
  /-- The mirror flag of the configuration (R29). -/
  cfgMirror : Bool
  /-- The orientation flag of the configuration, true for "reversed" (R29). -/
  cfgReversed : Bool
  /-- The lifecycle (R27). -/
  life : Life
  /-- The protocol phase (R24). -/
  phase : Phase
  /-- The bits of the current byte already shifted, 0 to 8 (R25). -/
  bitidx : Fin 9
  /-- The byte being shifted (R25). -/
  shreg : Byte
  /-- The engine lock (R34). -/
  lock : LockState
  /-- The latest-frame register (R31): a frame, or empty. -/
  slot : Option Frame
  /-- The slot's lock (R34). -/
  slotLock : LockState
  /-- The event trace: every SetLine in order (R13). -/
  trace : List Event
  /-- The responses, in the order the requests ended (R13). -/
  responses : List Completion
  /-- Model's own: requests issued and not yet taken, in the order the locks will be granted (R58, log 2). A finite
  list: a request that is never granted is one that is not on it (R63, log 27). -/
  requests : List PortRequest
  /-- Model's own: what the line interface does with the events of the run, by number (R205, log 6). -/
  lineDraws : List LineDraw
  /-- The far end of the wire (R36). -/
  rx : Receiver
  deriving DecidableEq, Repr

/-- Why the machine stops. -/
inductive Fault where
  /-- Raised by memRead and memWrite (Ops.lean) for a slice outside rows 0 to 15, where R51 defines no access.
  Safe: R51 says that no request forms such a slice. -/
  | shadowOutOfRange (pos length : Nat)
  deriving DecidableEq, Repr

/-- Why an instruction is given no meaning. -/
inductive Refusal where
  /-- Raised by exec alone, for an instruction that has no meaning yet. Safe. No arm raises it. -/
  | notModelled (mnemonic : String)
  deriving DecidableEq, Repr

/-- The state when the block comes into being (R230). The values of `shadow`, `bright`, `cfgMirror`, `cfgReversed` and
`shreg` are DESIGN CHOICE (log 4), the line levels and the chip's registers constants without a body (logs 5, 8). -/
def State.reset : State where
  clk := Config.clkAtAcquire
  dio := Config.dioAtAcquire
  linesHeld := false
  shadow := []
  bright := 0
  cfgMirror := false
  cfgReversed := false
  life := .off
  phase := .idle
  bitidx := 0
  shreg := 0
  lock := .free
  slot := none
  slotLock := .free
  trace := []
  responses := []
  requests := []
  lineDraws := []
  rx :=
    { chipRam := Config.chipRamInit
      chipCtrl := Config.chipCtrlInit
      addressing := Config.rxAddressing
      isOpen := false
      bits := []
      cut := false
      queue := []
      current := []
      place := .first
      abortDraws := []
      aborts := 0
      unknowns := 0 }

end Sys2Proof.Machine
end

