-- ==== Sys2Proof/Machine/Flags.lean ====
section
/-! DEFINITION. The status a request leaves. The block has no status flags and no condition codes (10_state.md R30):
its only status is the response, whose code numbers (60_exceptions.md R200) and bytes (30_encoding.md R85) stand here. -/

namespace Sys2Proof.Machine

/-- The code of a response (R200). -/
def responseCode : Response → Byte
  | .ok _ => 0
  | .invalidBrightness _ => 1
  | .invalidPosition _ => 2
  | .bufferOverflow _ _ => 3
  | .invalidLevel _ _ => 4
  | .lineIOError _ _ => 5
  | .wrongLifecycle _ => 6
  | .invalidRequest _ _ => 7

/-- The bytes of a response: its code, then the RowBitmap of a TRANSFORM that returns OK (R85). -/
def responseBytes : Response → List Byte
  | .ok payload => responseCode (.ok payload) :: payload
  | r => [responseCode r]

/-- The request ended in a validation error: codes 1, 2, 3, 4, 6 and 7 (R201). -/
def validationError : Response → Bool
  | .ok _ => false
  | .lineIOError _ _ => false
  | .invalidBrightness _ => true
  | .invalidPosition _ => true
  | .bufferOverflow _ _ => true
  | .invalidLevel _ _ => true
  | .wrongLifecycle _ => true
  | .invalidRequest _ _ => true

/-- A bus transaction is a request whose events are non-empty (R14, R218): how many there have been. -/
def busTransactions (s : State) : Nat := (s.responses.filter fun c => c.events != 0).length

end Sys2Proof.Machine
end

