-- ==== Sys2Proof/Machine/Operands.lean ====
section
/-! DEFINITION. The operand forms: bits of a byte (00_scope.md R11, R12), the assembled wire bytes (30_encoding.md R74,
R75), the range checks of the requests (43_driver_operations.md R160, R162, R166) and frames (R80, R83). -/

namespace Sys2Proof.Machine

/-- The byte whose bit `k` is `f k` (R11). -/
def byteOfBits (f : Nat → Bool) : Byte := BitVec.ofBoolListLE [f 0, f 1, f 2, f 3, f 4, f 5, f 6, f 7]

/-- The 8-bit bit reversal: `bitrev8(v)[k] = v[7-k]` (R12). -/
def bitrev8 (b : Byte) : Byte := byteOfBits fun k => b.getLsbD (7 - k)

/-- `addr_byte = 0xC0 | pos` (R74). -/
def addressByte (pos : Nat) : Byte := Config.cmdAddrBase ||| BitVec.ofNat 8 pos

/-- `ctrl_byte = 0x80 | 0x08 | bright` (R75). -/
def controlByte (bright : Brightness) : Byte := Config.cmdDispBase ||| Config.dispOn ||| bright.setWidth 8

/-- The operand is a legal brightness, 0 to 7 (R160, R162). -/
def brightnessLegal (v : Int) : Bool := decide (0 ≤ v) && decide (v ≤ 7)

/-- The legal brightness an operand carries. -/
def brightnessOf (v : Int) : Brightness := BitVec.ofInt 3 v

/-- The operand is a legal position, 0 to 15 (R166, R202). -/
def positionLegal (pos : Int) : Bool := decide (0 ≤ pos) && decide (pos ≤ 15)

/-- `n` bytes from this position stay within the 16 rows (R166, R203); the sum is of unbounded integers (R11). -/
def sliceFits (pos : Int) (n : Nat) : Bool := decide (pos + n ≤ 16)

/-- The frame of a request, if it holds exactly 16 levels (R80). -/
def frameOf (levels : List BarLevel) : Option Frame :=
  if h : levels.length = 16 then some ⟨levels.toArray, by simpa using h⟩ else none

end Sys2Proof.Machine
end

