-- ==== Sys2Proof/Machine/Receiver.lean ====
section
/-! DEFINITION. The wire as a receiver sees it (42_wire_framing.md R144 to R149): the reference decoder, which turns
line events into transmissions, and the reference receiver, which takes a transmission byte by byte. -/

namespace Sys2Proof.Machine

/-- The bytes of the samples of a transmission: complete groups of 8, the first sample bit 0; what is left over after
the last complete group is dropped (R146, R147). -/
def bytesOfSamples : List Bool → List Byte
  | b0 :: b1 :: b2 :: b3 :: b4 :: b5 :: b6 :: b7 :: rest =>
    BitVec.ofBoolListLE [b0, b1, b2, b3, b4, b5, b6, b7] :: bytesOfSamples rest
  | _ => []

/-- R147's decoder over a trace, from the levels `c` and `d` and the state `opened`, `bits`: the transmissions it
returns. An unterminated transmission at the end is not returned. -/
def decodeFrom (c d opened : Bool) (bits : List Bool) : List Event → List (List Byte)
  | [] => []
  | (.clk, v) :: rest =>
    decodeFrom v d opened (if !c && v && opened then bits ++ [d] else bits) rest
  | (.dio, v) :: rest =>
    if c && d && !v then decodeFrom c v true [] rest
    else if c && !d && v && opened then bytesOfSamples bits :: decodeFrom c v false bits rest
    else decodeFrom c v opened bits rest

/-- `Decode(trace, clk0, dio0)` (R147). -/
def decodeTrace (trace : List Event) (clk0 dio0 : Level) : List (List Byte) := decodeFrom clk0 dio0 false [] trace

/-- The edges of a trace from the levels `c` and `d`: the events that change their line's level (R144). -/
def edgesOf (c d : Level) : List Event → List Event
  | [] => []
  | (.clk, v) :: rest => if v = c then edgesOf c d rest else (.clk, v) :: edgesOf v d rest
  | (.dio, v) :: rest => if v = d then edgesOf c d rest else (.dio, v) :: edgesOf c v rest

/-! ## The decoder, event by event -/

/-- Whether the chip does with the cut transmission now ending what the reference decoder does (R242, U8, log 10). -/
def abortFollows (r : Receiver) : Bool := (r.abortDraws[r.aborts]?).getD (Config.abortFollows r.aborts)

/-- The open transmission ends: by its stop condition (`stopped`), which makes the decoder return it, or by a new start
condition, which makes it throw the transmission away (R147). For one that a line failure cut off, the chip may do
either (R242). One cut off before its first full byte and returned has no bytes; DESIGN CHOICE that R149's "any other
t" takes it, even where R56 (20_memory.md) would still hold (log 25). -/
def endTransmission (stopped : Bool) (r : Receiver) : Receiver :=
  { r with
    isOpen := false
    bits := []
    cut := false
    queue := if (if r.cut then abortFollows r == stopped else stopped) then r.queue ++ [bytesOfSamples r.bits] else r.queue
    aborts := if r.cut then r.aborts + 1 else r.aborts }

/-- A start condition: the open transmission, if there is one, is thrown away, and a new one opens (R147). -/
def beginTransmission (r : Receiver) : Receiver :=
  { (if r.isOpen then endTransmission false r else r) with isOpen := true, bits := [], cut := false }

/-- The decoder sees one event, `c` and `d` being the levels just before it (R147). -/
def rxEvent (c d : Level) (e : Event) (r : Receiver) : Receiver :=
  match e.1 with
  | .clk => if !c && e.2 && r.isOpen then { r with bits := r.bits ++ [d] } else r
  | .dio =>
    if c && d && !e.2 then beginTransmission r
    else if c && !d && e.2 && r.isOpen then endTransmission true r
    else r

/-- The level of CLK after an event (R12). -/
def clkAfter (c : Level) (e : Event) : Level := if e.1 = .clk then e.2 else c

/-- The level of DIO after an event (R12). -/
def dioAfter (d : Level) (e : Event) : Level := if e.1 = .dio then e.2 else d

/-- The decoder sees a sequence of events. -/
def rxEvents (c d : Level) : List Event → Receiver → Receiver
  | [], r => r
  | e :: rest, r => rxEvents (clkAfter c e) (dioAfter d e) rest (rxEvent c d e r)

/-- A line failure stops the request that drives the wire: the transmission now open is cut off (R138, R242). -/
def rxCut (r : Receiver) : Receiver := { r with cut := r.isOpen }

/-! ## The receiver, byte by byte -/

/-- The receiver's state becomes unknown, any value (R149, U4): its two registers take free values (log 9),
and the rest of the transmission is not looked at. That an empty transmission is one of these is DEDUCED (log 22); that
R149 then wins over R56 is DESIGN CHOICE (log 25). -/
def rxLost (r : Receiver) : Receiver :=
  { r with
    chipRam := Config.unknownRam r.unknowns
    chipCtrl := Config.unknownCtrl r.unknowns
    unknowns := r.unknowns + 1
    current := []
    place := .first }

/-- A command that must be a transmission of its own: the first byte, and the last (R149's `t = [c]`). -/
def aloneInTransmission (r : Receiver) : Bool := r.place == .first && r.current.isEmpty

/-- A mode command, 0x40 or 0x44: no change; in any other transmission than its own, unknown (R149). -/
def rxTakeMode (r : Receiver) : Receiver := if aloneInTransmission r then r else rxLost r

/-- A display-control byte: `chip_ctrl <- c` (R149). -/
def rxTakeControl (b : Brightness) (r : Receiver) : Receiver :=
  if aloneInTransmission r then { r with chipCtrl := controlByte b } else rxLost r

/-- An address byte, with at least one data byte behind it: the next data byte is for row `p` (R149). -/
def rxTakeAddress (p : BitVec 4) (r : Receiver) : Receiver :=
  if r.place == .first && !r.current.isEmpty then { r with place := .row p.toNat } else rxLost r

/-- The row of the data byte after one for row `p` (R149). -/
def nextRow (addressing : RxAddressing) (p : Nat) : Nat :=
  match addressing with
  | .increment => p + 1
  | .fixed => p

/-- A data byte: `chip_ram[p] <- d`, where a row past 15 takes nothing; the next byte of the burst is for the next row,
or for the same one (R149). A data byte outside a burst has no meaning (R78): unknown. -/
def rxTakeData (d : Byte) (r : Receiver) : Receiver :=
  match r.place with
  | .first => rxLost r
  | .row p =>
    { r with
      chipRam := r.chipRam.setIfInBounds p d
      place := if r.current.isEmpty then .first else .row (nextRow r.addressing p) }

/-! ## The receiver, transmission by transmission -/

/-- The data bytes of a burst go to the rows from `p` on (R149). -/
def rxTakeBurst (p : Nat) : List Byte → Receiver → Receiver
  | [], r => r
  | d :: rest, r => rxTakeBurst (nextRow r.addressing p) rest { r with chipRam := r.chipRam.setIfInBounds p d }

/-- `apply(t)` (R149): what a whole decoded transmission does to the receiver's registers; the empty one is "any other t"
(logs 22, 25). -/
def rxApply (t : List Byte) (r : Receiver) : Receiver :=
  match t with
  | [] => rxLost r
  | [c] =>
    if c = Config.cmdData ∨ c = Config.cmdFixedAddr then r
    else if c &&& 0xF8 = 0x88 then { r with chipCtrl := c }
    else rxLost r
  | a :: rest => if a &&& 0xF0 = 0xC0 then rxTakeBurst (a &&& 0x0F).toNat rest r else rxLost r

end Sys2Proof.Machine
end

