-- ==== Sys2Proof/Machine/Ops.lean ====
section
/-! DEFINITION. The named operations over memory, lines, locks and responses: the primitives of 00_scope.md R12, the
wire procedures of 42_wire_framing.md R133 to R143, and the error entry of 60_exceptions.md R205, R211. -/

namespace Sys2Proof.Machine

/-! ## The shadow (R12, R50, R51) -/

/-- What a row reads as that the shadow's list does not name: 0x00, which INIT gives every row (R160; before INIT
DESIGN CHOICE, log 4). -/
def unlistedByte : Byte := 0

/-- `shadow[a]` (R12). -/
def readByte : Memory → Nat → Byte
  | [], _ => unlistedByte
  | (b, v) :: rest, a => if b = a then v else readByte rest a

/-- `shadow[a] <- v` (R12), keeping the canonical form. -/
def writeByte : Memory → Nat → Byte → Memory
  | [], a, v => if v = unlistedByte then [] else [(a, v)]
  | (b, w) :: rest, a, v =>
    if a < b then (if v = unlistedByte then (b, w) :: rest else (a, v) :: (b, w) :: rest)
    else if a = b then (if v = unlistedByte then rest else (a, v) :: rest)
    else (b, w) :: writeByte rest a v

/-- The canonical form from row `low` on: rows strictly rising, below 16, and no entry that an unlisted row reads as. -/
def wfFrom (low : Nat) : Memory → Bool
  | [] => true
  | (a, v) :: rest => decide (low ≤ a) && decide (a < 16) && (v != unlistedByte) && wfFrom (a + 1) rest

/-- The shadow is in its canonical form. -/
def Memory.wf (m : Memory) : Bool := wfFrom 0 m

/-- The `n` bytes from row `pos` on. -/
def readSlice (m : Memory) (pos n : Nat) : List Byte := (List.range n).map fun k => readByte m (pos + k)

/-- These bytes stored from row `pos` on, in order. -/
def writeSlice (m : Memory) (pos : Nat) : List Byte → Memory
  | [] => m
  | v :: rest => writeSlice (writeByte m pos v) (pos + 1) rest

/-- The slice is one for which MemRead and MemWrite are defined (R51). -/
def sliceExists (pos n : Nat) : Bool := decide (pos ≤ 15) && decide (pos + n ≤ 16)

/-- `MemRead(pos, n)` (R12, R51). -/
def memRead (pos n : Nat) (s : State) : Except Fault (List Byte) :=
  if sliceExists pos n then .ok (readSlice s.shadow pos n) else .error (.shadowOutOfRange pos n)

/-- `MemWrite(pos, n, s)` (R12, R51). -/
def memWrite (pos : Nat) (bytes : List Byte) (s : State) : Except Fault State :=
  if sliceExists pos bytes.length then .ok { s with shadow := writeSlice s.shadow pos bytes }
  else .error (.shadowOutOfRange pos bytes.length)

/-! ## Line events (R12, R130, R205) -/

/-- A line-set event that failed: its line, and its number in the run. -/
structure LineFault where
  line : Line
  event : Nat
  deriving DecidableEq, Repr

/-- What the line interface does with event `k` of the run: the draw `GPIO_FAIL` and `LEVEL_AFTER_FAIL` (R205, log 6). -/
def drawAt (s : State) (k : Nat) : LineDraw := (s.lineDraws[k]?).getD (Config.lineDraw k)

/-- The line goes to this level: one event on the trace, which the decoder sees at the other end (R12, R144). -/
def driveLine (e : Event) (s : State) : State :=
  { s with
    clk := clkAfter s.clk e
    dio := dioAfter s.dio e
    trace := s.trace ++ [e]
    rx := rxEvent s.clk s.dio e s.rx }

/-- The protocol state after a failed set: no STOP is sent (R138, R205). -/
def abortTransmission (s : State) : State := { s with phase := .idle, bitidx := 0, rx := rxCut s.rx }

/-- `SetLine(line, level)` (R12); a failed one records the drawn level and ends the request (R205). -/
def setLine (line : Line) (level : Level) (s : State) : State × Option LineFault :=
  match drawAt s s.trace.length with
  | .done => (driveLine (line, level) s, none)
  | .fails x => (abortTransmission (driveLine (line, x) s), some ⟨line, s.trace.length⟩)

/-! ## The wire procedures (R133 to R143) -/

/-- The steps the wire procedures are made of. -/
inductive WireOp where
  /-- `SetLine(line, level)`. -/
  | set (line : Line) (level : Level)
  /-- `SetLine(DIO, shreg[k])`. -/
  | shiftOut (k : Nat)
  /-- `phase <- p`. -/
  | phase (p : Phase)
  /-- `bitidx <- n`. -/
  | bitidx (n : Fin 9)
  /-- `shreg <- b`. -/
  | load (b : Byte)
  deriving DecidableEq, Repr

/-- One step of a wire procedure. -/
def doOp (op : WireOp) (s : State) : State × Option LineFault :=
  match op with
  | .set line level => setLine line level s
  | .shiftOut k => setLine .dio (s.shreg.getLsbD k) s
  | .phase p => ({ s with phase := p }, none)
  | .bitidx n => ({ s with bitidx := n }, none)
  | .load b => ({ s with shreg := b }, none)

/-- Steps in order; the first that fails is the last that runs (R59, R205). -/
def runOps : List WireOp → State → State × Option LineFault
  | [], s => (s, none)
  | op :: rest, s =>
    match doOp op s with
    | (t, none) => runOps rest t
    | (t, some f) => (t, some f)

/-- START (R133). -/
def startOps : List WireOp :=
  [.phase .start, .set .dio true, .set .clk true, .set .dio false, .phase .shift, .bitidx 0]

/-- One bit of SHIFT_BYTE (R134). -/
def shiftBitOps (k : Nat) : List WireOp :=
  [.set .clk false, .shiftOut k, .set .clk true, .bitidx (Fin.ofNat 9 (k + 1))]

/-- SHIFT_BYTE (R134). -/
def shiftByteOps (b : Byte) : List WireOp := .load b :: (List.range 8).flatMap shiftBitOps

/-- STOP (R135). -/
def stopOps : List WireOp :=
  [.phase .stop, .set .clk false, .set .dio false, .set .clk true, .set .dio true, .phase .idle, .bitidx 0]

/-- TX, a transmission of these bytes (R141). -/
def txOps (bytes : List Byte) : List WireOp :=
  startOps ++ bytes.flatMap (fun b => .bitidx 0 :: shiftByteOps b) ++ stopOps

/-- SEND_CMD, the transmission of one byte (R142). -/
def sendCmdOps (c : Byte) : List WireOp := txOps [c]

/-- BURST, the address-and-data transmission of a WRITE (R143). -/
def burstOps (pos : Nat) (bytes : List Byte) : List WireOp := txOps (addressByte pos :: bytes)

/-! ## Locks (R34, R58, R240) -/

/-- A request takes the engine lock. -/
def takeLock (s : State) : State := { s with lock := .held }

/-- The engine lock is released. -/
def freeLock (s : State) : State := { s with lock := .free }

/-- The slot's lock is taken. -/
def takeSlotLock (s : State) : State := { s with slotLock := .held }

/-- The slot's lock is released. -/
def freeSlotLock (s : State) : State := { s with slotLock := .free }

/-- An engine request waits while another holds the engine lock (R34, R207). -/
def engineWaits (s : State) : Bool := s.lock == .held

/-- RENDER also needs the slot's lock when it takes the slot (R34, R182). -/
def renderWaits (s : State) : Bool := engineWaits s || (s.life == .ready && s.slotLock == .held)

/-- PUBLISH needs the slot's lock to store a frame (R34, R180); a malformed one is refused before that (R210). -/
def publishWaits (levels : List BarLevel) (s : State) : Bool := (frameOf levels).isSome && s.slotLock == .held

/-- The instruction waits for a lock another request holds: it has not begun, and changes nothing (R58, log 11). -/
def waits (i : Instr) (s : State) : Bool :=
  match i with
  | .cmdData => false
  | .cmdFixedAddr => false
  | .cmdAddr _ => false
  | .cmdDispCtrl _ => false
  | .data _ => false
  | .init _ _ _ => engineWaits s
  | .setBrightness _ => engineWaits s
  | .write _ _ => engineWaits s
  | .clear => engineWaits s
  | .teardown => engineWaits s
  | .transform _ _ _ => false
  | .render => renderWaits s
  | .publish levels => publishWaits levels s

/-! ## How a request ends: responses, and the entry of an error (R200, R211, R212) -/

/-- `respond(code, payload)` (R12): the request ends, with the number of events it emitted since the trace had `start`
events. -/
def respond (start : Nat) (r : Response) (s : State) : State :=
  { s with responses := s.responses ++ [⟨r, s.trace.length - start⟩] }

/-- What the body of a request comes to: the state it leaves and its response. -/
abbrev Body := Except Fault (State × Response)

/-- The body ends with OK and no payload. -/
def succeed (s : State) : Body := .ok (s, .ok [])

/-- `raise E(info)` (R12, R211): an error saves nothing and switches no mode; what was written before stays written,
and the request's response carries the error. Nothing returns from it (R212). -/
def raiseError (r : Response) (s : State) : Body := .ok (s, r)

/-- The response after wire procedures: OK, or LineIOError with the line and the number of the failed event within the
request, counted from its first event (R205). -/
def lineResponse (start : Nat) : Option LineFault → Response
  | none => .ok []
  | some f => .lineIOError f.line (f.event - start)

/-- The body ends with wire procedures. -/
def finishSend (start : Nat) (r : State × Option LineFault) : Body := .ok (r.1, lineResponse start r.2)

/-- A request of the engine (R34, R58, R211): it waits while the engine lock is held; else it holds the lock for all of
its body, releases it, and responds. -/
def engineRequest (body : State → Body) (s : State) : Host.Outcome State Fault Refusal :=
  if engineWaits s then .next s
  else
    match body (takeLock s) with
    | .ok r => .next (respond s.trace.length r.2 (freeLock r.1))
    | .error f => .fault f

/-- An engine request that only READY accepts (R206, R209). -/
def whenReady (body : State → Body) (s : State) : Body :=
  if s.life = .ready then body s else raiseError (.wrongLifecycle s.life) s

/-! ## Releasing the lines (R23, R172) -/

/-- The engine no longer drives the lines: no event, and from then on their levels are any value (U12, log 7). -/
def releaseLines (s : State) : State :=
  { s with
    linesHeld := false
    clk := Config.clkReleased s.trace.length
    dio := Config.dioReleased s.trace.length }

end Sys2Proof.Machine
end

