-- ==== Sys2Proof/Machine/Driver.lean ====
section
/-! DEFINITION. The controller driver's requests INIT, SET_BRIGHTNESS, WRITE, CLEAR and TEARDOWN
(43_driver_operations.md R160 to R172). -/

namespace Sys2Proof.Machine

/-! ## INIT (R160) -/

/-- INIT up to its first event: lines acquired, shadow zeroed, configuration latched. The lines keep the levels they
have, `LINE_LEVEL_AT_ACQUIRE` (log 5). -/
def configure (brightness : Int) (mirror reversed : Bool) (s : State) : State :=
  { s with
    linesHeld := true
    shadow := writeSlice s.shadow 0 (List.replicate 16 0x00)
    bright := brightnessOf brightness
    cfgMirror := mirror
    cfgReversed := reversed }

/-- INIT's two command sends (R160). -/
def initOps (s : State) : List WireOp := sendCmdOps Config.cmdData ++ sendCmdOps (controlByte s.bright)

/-- INIT's end: READY; after a line failure, lines released and RELEASED (R160, D36). -/
def initEnd (failed : Bool) (s : State) : State :=
  if failed then { releaseLines s with life := .released } else { s with life := .ready }

/-- INIT's body (R160). -/
def initBody (brightness : Int) (mirror reversed : Bool) (s : State) : Body :=
  if s.life = .off then
    if brightnessLegal brightness then
      let configured := configure brightness mirror reversed s
      let sent := runOps (initOps configured) configured
      finishSend s.trace.length (initEnd sent.2.isSome sent.1, sent.2)
    else raiseError (.invalidBrightness brightness) s
  else raiseError (.wrongLifecycle s.life) s

/-- INIT (R160). -/
def execInit (brightness : Int) (mirror reversed : Bool) (s : State) : Host.Outcome State Fault Refusal :=
  engineRequest (initBody brightness mirror reversed) s

/-! ## SET_BRIGHTNESS (R162) -/

/-- SET_BRIGHTNESS in READY (R162): the range, then the equality, then the new state, then the wire. -/
def setBrightnessBody (level : Int) (s : State) : Body :=
  if brightnessLegal level then
    if brightnessOf level = s.bright then succeed s
    else
      let updated := { s with bright := brightnessOf level }
      finishSend s.trace.length (runOps (sendCmdOps (controlByte updated.bright)) updated)
  else raiseError (.invalidBrightness level) s

/-- SET_BRIGHTNESS (R162). -/
def execSetBrightness (level : Int) (s : State) : Host.Outcome State Fault Refusal :=
  engineRequest (whenReady (setBrightnessBody level)) s

/-! ## WRITE (R165 to R169) -/

/-- The three transmissions of a WRITE that emits traffic: fixed address, burst, control (R167, R169). -/
def writeOps (pos : Nat) (bytes : List Byte) (s : State) : List WireOp :=
  sendCmdOps Config.cmdFixedAddr ++ burstOps pos bytes ++ sendCmdOps (controlByte s.bright)

/-- WRITE's body (R167): compare, update the shadow, send. -/
def writeBody (pos : Nat) (bytes : List Byte) (s : State) : Body :=
  match memRead pos bytes.length s with
  | .error f => .error f
  | .ok old =>
    if old = bytes then succeed s
    else
      match memWrite pos bytes s with
      | .error f => .error f
      | .ok updated => finishSend s.trace.length (runOps (writeOps pos bytes updated) updated)

/-- WRITE's validation after the lifecycle check, then its body (R166, R167). -/
def writeRequest (pos : Int) (bytes : List Byte) (s : State) : Body :=
  if positionLegal pos then
    if sliceFits pos bytes.length then writeBody pos.toNat bytes s
    else raiseError (.bufferOverflow pos bytes.length) s
  else raiseError (.invalidPosition pos) s

/-- WRITE (R165). -/
def execWrite (pos : Int) (bytes : List Byte) (s : State) : Host.Outcome State Fault Refusal :=
  engineRequest (whenReady (writeRequest pos bytes)) s

/-! ## CLEAR and TEARDOWN (R170 to R172) -/

/-- CLEAR in READY (R170): a no-op on a zero shadow, else WRITE's body on sixteen zero bytes. -/
def clearBody (s : State) : Body :=
  if readSlice s.shadow 0 16 = List.replicate 16 0x00 then succeed s
  else writeBody 0 (List.replicate 16 0x00) s

/-- CLEAR (R170). -/
def execClear (s : State) : Host.Outcome State Fault Refusal := engineRequest (whenReady clearBody) s

/-- TEARDOWN's end, whatever the clear responded: its error is discarded, the lines are released (R171, R214). -/
def shutDown (s : State) : State := { releaseLines s with life := .released }

/-- TEARDOWN (R171): outside READY it does nothing and responds OK. -/
def teardownBody (s : State) : Body :=
  if s.life = .ready then
    match clearBody s with
    | .error f => .error f
    | .ok cleared => succeed (shutDown cleared.1)
  else succeed s

/-- TEARDOWN (R171). -/
def execTeardown (s : State) : Host.Outcome State Fault Refusal := engineRequest teardownBody s

end Sys2Proof.Machine
end

