-- ==== Sys2Proof/Machine/Transform.lean ====
section
/-! DEFINITION. The bitmap transform and TRANSFORM (41_bitmap_transform.md R100 to R107), stage by stage. -/

namespace Sys2Proof.Machine

/-- `fill(v) = (sum over i in 0..v-1 of (1 << i)) & 0xFF` (R100). -/
def fill (v : Nat) : Byte := BitVec.ofNat 8 (((List.range v).map fun i => 1 <<< i).sum)

/-- `PAT[v] = bitrev8(fill(v))` (R100). -/
def pat (v : Nat) : Byte := bitrev8 (fill v)

/-- The ColumnPattern ROM: `PAT` for each BarLevel 0 to 8 (R33, R100). -/
def patTable : List Byte := (List.range 9).map pat

/-- The column of a level: the table's entry (R103). -/
def columnOf (v : BarLevel) : Byte := patTable.getD v.toNat 0

/-- The first level above 8 from index `k` on, with its index (R101). -/
def firstInvalid (k : Nat) : List BarLevel → Option (Nat × BarLevel)
  | [] => none
  | v :: rest => if Config.levelMax < v.toNat then some (k, v) else firstInvalid (k + 1) rest

/-- The levels of the left half after the mirror swap (R102). -/
def leftLevels (frame : List BarLevel) (mirror : Bool) : List BarLevel :=
  if mirror then frame.drop 8 else frame.take 8

/-- The levels of the right half after the mirror swap (R102). -/
def rightLevels (frame : List BarLevel) (mirror : Bool) : List BarLevel :=
  if mirror then frame.take 8 else frame.drop 8

/-- The columns of a half: the lookup, then the orientation reversal of the entries (R103). -/
def columnsOf (half : List BarLevel) (reversed : Bool) : List Byte :=
  if reversed then (half.map columnOf).reverse else half.map columnOf

/-- `rowL[i][7-j] = lb[j][i]` (R104). -/
def rowLeft (lb : List Byte) (i : Nat) : Byte := byteOfBits fun b => (lb.getD (7 - b) 0).getLsbD i

/-- `rowR[i][j] = rb[j][7-i]` (R105). -/
def rowRight (rb : List Byte) (i : Nat) : Byte := byteOfBits fun b => (rb.getD b 0).getLsbD (7 - i)

/-- The 16 rows of a frame of valid levels: left rows 0 to 7, right rows 8 to 15 (R106). -/
def transformRows (frame : List BarLevel) (mirror reversed : Bool) : List Byte :=
  (List.range 8).map (rowLeft (columnsOf (leftLevels frame mirror) reversed))
    ++ (List.range 8).map (rowRight (columnsOf (rightLevels frame mirror) reversed))

/-- The transform, or the error it raises: a frame that is not 16 levels long, then the lowest invalid level (R107). -/
def transformFrame (frame : List BarLevel) (mirror reversed : Bool) : Except Response (List Byte) :=
  if frame.length = Config.nLevels then
    match firstInvalid 0 frame with
    | some (k, v) => .error (.invalidLevel k v)
    | none => .ok (transformRows frame mirror reversed)
  else .error (.invalidRequest 5 [.frame frame.length])

/-- The response of TRANSFORM (R107). -/
def transformResponse (frame : List BarLevel) (mirror reversed : Bool) : Response :=
  match transformFrame frame mirror reversed with
  | .ok rows => .ok rows
  | .error e => e

/-- TRANSFORM (R107): no lock, no state, no event; accepted in every lifecycle state. -/
def execTransform (frame : List BarLevel) (mirror reversed : Bool) (s : State) : Host.Outcome State Fault Refusal :=
  .next (respond s.trace.length (transformResponse frame mirror reversed) s)

end Sys2Proof.Machine
end

