-- ==== Sys2Proof/Machine/Latest.lean ====
section
/-! DEFINITION. The latest-frame boundary: PUBLISH and RENDER (43_driver_operations.md R180 to R182). -/

namespace Sys2Proof.Machine

/-- `slot <- frame` under the slot's lock (R180, R181). -/
def storeFrame (frame : Frame) (s : State) : State := freeSlotLock { takeSlotLock s with slot := some frame }

/-- PUBLISH (R180): a frame of 16 levels overwrites the slot; another length is malformed (R208). -/
def execPublish (levels : List BarLevel) (s : State) : Host.Outcome State Fault Refusal :=
  match frameOf levels with
  | none => .next (respond s.trace.length (.invalidRequest 7 [.frame levels.length]) s)
  | some frame =>
    if publishWaits levels s then .next s
    else .next (respond s.trace.length (.ok []) (storeFrame frame s))

/-- `slot <- empty` under the slot's lock (R182). -/
def takeFrame (s : State) : State := freeSlotLock { takeSlotLock s with slot := none }

/-- RENDER in READY (R182): take the latest frame, transform it under the configuration's flags, write its rows at
row 0. A frame with an invalid level is gone from the slot when the error is raised. -/
def renderBody (s : State) : Body :=
  match s.slot with
  | none => succeed s
  | some frame =>
    match transformFrame frame.toList s.cfgMirror s.cfgReversed with
    | .error e => raiseError e (takeFrame s)
    | .ok rows => writeRequest 0 rows (takeFrame s)

/-- RENDER (R182). -/
def execRender (s : State) : Host.Outcome State Fault Refusal :=
  if renderWaits s then .next s else engineRequest (whenReady renderBody) s

end Sys2Proof.Machine
end

