-- ==== Sys2Proof/Machine/Wire.lean ====
section
/-! DEFINITION. The wire bytes CMD_DATA, CMD_FIXED_ADDR, CMD_ADDR, CMD_DISP_CTRL and DATA: what each does at the
reference receiver (42_wire_framing.md R149), which takes it from a transmission the engine sent. The byte itself has
left the transmission; State.rx.current holds the bytes behind it. -/

namespace Sys2Proof.Machine

/-- CMD_DATA, 0x40 (R72, R149). -/
def execCmdData (s : State) : Host.Outcome State Fault Refusal := .next { s with rx := rxTakeMode s.rx }

/-- CMD_FIXED_ADDR, 0x44 (R73, R149). -/
def execCmdFixedAddr (s : State) : Host.Outcome State Fault Refusal := .next { s with rx := rxTakeMode s.rx }

/-- CMD_ADDR, `0xC0 | p` (R74, R149). -/
def execCmdAddr (p : BitVec 4) (s : State) : Host.Outcome State Fault Refusal :=
  .next { s with rx := rxTakeAddress p s.rx }

/-- CMD_DISP_CTRL, `0x80 | 0x08 | b` (R75, R149). -/
def execCmdDispCtrl (b : Brightness) (s : State) : Host.Outcome State Fault Refusal :=
  .next { s with rx := rxTakeControl b s.rx }

/-- DATA (R76, R149). -/
def execData (d : Byte) (s : State) : Host.Outcome State Fault Refusal := .next { s with rx := rxTakeData d s.rx }

end Sys2Proof.Machine
end

