-- ==== Sys2Proof/Machine/Dispatch.lean ====
section
/-! DEFINITION. Each instruction's meaning. -/

namespace Sys2Proof.Machine

def exec (i : Instr) (s : State) : Host.Outcome State Fault Refusal :=
  match i with
  -- the wire bytes, at the reference receiver
  | .cmdData => Sys2Proof.Machine.execCmdData s
  | .cmdFixedAddr => Sys2Proof.Machine.execCmdFixedAddr s
  | .cmdAddr p => Sys2Proof.Machine.execCmdAddr p s
  | .cmdDispCtrl b => Sys2Proof.Machine.execCmdDispCtrl b s
  | .data d => Sys2Proof.Machine.execData d s
  -- the requests
  | .init brightness mirror reversed => Sys2Proof.Machine.execInit brightness mirror reversed s
  | .setBrightness level => Sys2Proof.Machine.execSetBrightness level s
  | .write pos bytes => Sys2Proof.Machine.execWrite pos bytes s
  | .clear => Sys2Proof.Machine.execClear s
  | .teardown => Sys2Proof.Machine.execTeardown s
  | .transform frame mirror reversed => Sys2Proof.Machine.execTransform frame mirror reversed s
  | .render => Sys2Proof.Machine.execRender s
  | .publish levels => Sys2Proof.Machine.execPublish levels s

end Sys2Proof.Machine
end

