-- ==== Sys2Proof/Machine/Fetch.lean ====
section
/-! DEFINITION. What moves next and what it reads. The receiver takes the bytes of what the wire delivered, first to
last; when there are none, the first request of the port runs (log 1, 2). A request leaves the port when it begins,
so one that waits for a lock stays (log 11). -/

namespace Sys2Proof.Machine

/-- What a step finds to do, with the state in which it is to be done. -/
inductive Fetched where
  /-- Nothing: no byte to take, no request. -/
  | nothing
  /-- An instruction. -/
  | run (i : Instr) (s : State)
  /-- A transmission that is none of R149's: the receiver's state becomes unknown. -/
  | badTransmission (s : State)
  /-- A malformed binary request (R84). -/
  | badRequest (bad : BadRequest) (s : State)
  deriving DecidableEq, Repr

/-- The receiver's next byte, `rest` being the bytes behind it (R70, R149). -/
def fetchByte (b : Byte) (rest : List Byte) (s : State) : Fetched :=
  let taken := { s with rx := { s.rx with current := rest } }
  match s.rx.place with
  | .row _ => .run (.data b) taken
  | .first =>
    match decodeCommand b with
    | some i => .run i taken
    | none => .badTransmission taken

/-- The next request of the port, `rest` being the requests behind it. Always the head: DESIGN CHOICE, which in a run
from reset grants every listed request in its turn, where R63 (20_memory.md) promises no grant (log 27). -/
def fetchRequest (r : PortRequest) (rest : List PortRequest) (s : State) : Fetched :=
  let taken := { s with requests := rest }
  match r with
  | .abstract q => .run q.toInstr (if waits q.toInstr s then s else taken)
  | .binary h payload =>
    match decodeRequest h payload with
    | .ok i => .run i (if waits i s then s else taken)
    | .error bad => .badRequest bad taken

/-- What the next step does. An empty transmission, which a line failure can leave, is none of R149's (logs 22, 25). -/
def fetch (s : State) : Fetched :=
  match s.rx.current, s.rx.queue, s.requests with
  | b :: rest, _, _ => fetchByte b rest s
  | [], [] :: others, _ => .badTransmission { s with rx := { s.rx with queue := others } }
  | [], (b :: rest) :: others, _ => fetchByte b rest { s with rx := { s.rx with queue := others, place := .first } }
  | [], [], r :: rest => fetchRequest r rest s
  | [], [], [] => .nothing

/-- The receiver's state becomes unknown (R149). -/
def loseReceiver (s : State) : State := { s with rx := rxLost s.rx }

/-- A malformed binary request is refused before any state is read: InvalidRequest, and nothing else (R84, R208). -/
def refuseRequest (bad : BadRequest) (s : State) : State :=
  respond s.trace.length (.invalidRequest bad.op bad.fields) s

/-- The state with an encoded instruction placed where the next step fetches it. A wire byte becomes the next byte of a
transmission, an address byte with one data byte of zeros behind it (a burst has at least one: R143), a data byte
at row 0 of a burst. A request goes to the head of the port, and what would keep it from being fetched, bytes the
receiver has yet to take and held locks, is taken away. -/
def placeCode (c : Code) (s : State) : State :=
  match c with
  | .wire true b => { s with rx := { s.rx with current := [b], place := .row 0 } }
  | .wire false b =>
    { s with rx := { s.rx with current := if b &&& 0xF0 = 0xC0 then [b, 0] else [b], place := .first } }
  | .request h payload =>
    { s with
      requests := .binary h payload :: s.requests
      lock := .free
      slotLock := .free
      rx := { s.rx with current := [], queue := [] } }

/-- The state with the instruction of these bits placed where the next step fetches it. -/
def placeWord (nbits w : Nat) (s : State) : State :=
  match tableCode nbits w with
  | some c => placeCode c s
  | none => s

end Sys2Proof.Machine
end

