-- ==== Sys2Proof/Machine/Step.lean ====
section
/-! DEFINITION. One step of the machine: one wire byte taken by the receiver, or one request. -/

namespace Sys2Proof.Machine

/-- One step. With nothing to do the machine stays as it is (log 12). -/
def step (s : State) : Host.Outcome State Fault Refusal :=
  match fetch s with
  | .nothing => .next s
  | .run i t => exec i t
  | .badTransmission t => .next (loseReceiver t)
  | .badRequest bad t => .next (refuseRequest bad t)

/-- The state with this instruction placed where step fetches its next one (log 16). -/
def State.withFetchWord (s : State) (nbits w : Nat) : State := placeWord nbits w s

end Sys2Proof.Machine
end

