-- ==== Sys2Proof/Safety.lean ====
section
/-! DEFINITION. The terms in which claims about the machine are written: the events of a transmission, the state after
a transmission was sent or cut off, what a request's end adds, the invariant of the states between requests, the
receiver after it has taken all that the wire delivered, and the host's side (60_exceptions.md R213, R223). -/

namespace Sys2Proof.Machine

/-! ## The line events of the wire procedures (42_wire_framing.md R133 to R143) -/

/-- START's events (R133). -/
def startEvents : List Event := [(.dio, true), (.clk, true), (.dio, false)]

/-- The three events of bit `k` of a byte (R134). -/
def bitEvents (b : Byte) (k : Nat) : List Event := [(.clk, false), (.dio, b.getLsbD k), (.clk, true)]

/-- SHIFT_BYTE's events, least significant bit first (R134). -/
def shiftEvents (b : Byte) : List Event := (List.range 8).flatMap (bitEvents b)

/-- STOP's events (R135). -/
def stopEvents : List Event := [(.clk, false), (.dio, false), (.clk, true), (.dio, true)]

/-- A transmission's events (R141). -/
def txEvents (bytes : List Byte) : List Event := startEvents ++ bytes.flatMap shiftEvents ++ stopEvents

/-- The events of transmissions one after another. -/
def sendEvents (ts : List (List Byte)) : List Event := ts.flatMap txEvents

/-! ## The state after line events -/

/-- These events happened: the lines stand where the last event of each left them, the trace holds the events, and the
decoder has seen them (R12, R147). -/
def driven (events : List Event) (s : State) : State :=
  { s with
    clk := events.foldl clkAfter s.clk
    dio := events.foldl dioAfter s.dio
    trace := s.trace ++ events
    rx := rxEvents s.clk s.dio events s.rx }

/-- These transmissions were sent, each to its STOP (R133 to R141): the protocol is idle again, and the shift register
holds the last byte. The chip's registers are still as they were: the receiver takes the transmissions from its queue in
later steps (log 1). -/
def afterSending (ts : List (List Byte)) (s : State) : State :=
  { driven (sendEvents ts) s with
    phase := .idle
    bitidx := 0
    shreg := (ts.flatten.getLast?).getD s.shreg }

/-- The first `k` of these events, then event `k` failing with its line at level `x` (R205). -/
def failingAt (events : List Event) (k : Nat) (x : Level) : List Event :=
  events.take k ++ ((events.drop k).take 1).map fun e => (e.1, x)

/-- The transmissions were cut off at event `k`, whose line then stood at `x` (R138, R205); `b` is what the shift
register held. -/
def afterCut (ts : List (List Byte)) (k : Nat) (x : Level) (b : Byte) (s : State) : State :=
  { driven (failingAt (sendEvents ts) k x) s with
    phase := .idle
    bitidx := 0
    shreg := b
    rx := rxCut (rxEvents s.clk s.dio (failingAt (sendEvents ts) k x) s.rx) }

/-- The next `n` line-set events succeed. -/
def eventsSucceed (s : State) (n : Nat) : Prop := ∀ j, j < n → drawAt s (s.trace.length + j) = .done

/-- The next `k` line-set events succeed, and the one after them fails with its line at level `x`. -/
def eventFails (s : State) (k : Nat) (x : Level) : Prop :=
  eventsSucceed s k ∧ drawAt s (s.trace.length + k) = .fails x

/-- The line of event `k` of these. -/
def lineOf (events : List Event) (k : Nat) : Line := ((events[k]?).map Prod.fst).getD .clk

/-- The request responded, having emitted `n` events; nothing else changed. -/
def replied (r : Response) (n : Nat) (s : State) : State := { s with responses := s.responses ++ [⟨r, n⟩] }

/-- The three transmissions of a WRITE that emits traffic (43_driver_operations.md R167). -/
def writeSends (pos : Nat) (bytes : List Byte) (bright : Brightness) : List (List Byte) :=
  [[0x44], addressByte pos :: bytes, [controlByte bright]]

/-! ## The invariant of the states between requests -/

/-- The protocol is idle and no request is under way (10_state.md R35). -/
def Quiet (s : State) : Prop := s.phase = .idle ∧ s.bitidx = 0 ∧ s.lock = .free ∧ s.slotLock = .free

/-- What holds between requests: the protocol is idle and both locks are free (R35); the shadow is in its canonical form;
the lines are held exactly in READY (R23, R27); no event has been emitted before INIT (R22, R23); the decoder is inside
a transmission only if a line failure cut it off (42_wire_framing.md R137, R138), and keeps no samples outside one; the
receiver expects data only while bytes of a burst are left. -/
structure StateInv (s : State) : Prop where
  quiet : Quiet s
  shadowWf : s.shadow.wf = true
  held : s.linesHeld = true ↔ s.life = .ready
  silent : s.life = .off → s.trace = []
  openIsCut : s.rx.isOpen = s.rx.cut
  closedEmpty : s.rx.isOpen = false → s.rx.bits = []
  atFirst : s.rx.current = [] → s.rx.place = .first

/-! ## The receiver when it has caught up -/

/-- The receiver after it has taken every transmission the wire has delivered (R149). -/
def caughtUp (r : Receiver) : Receiver := r.queue.foldl (fun r t => rxApply t r) r

/-- The decoder is outside any transmission, and the receiver between two. -/
def BetweenTransmissions (s : State) : Prop := s.rx.isOpen = false ∧ s.rx.current = [] ∧ s.rx.place = .first

/-- The shadow's byte for this row is the chip's, once the receiver has caught up (20_memory.md R56). -/
def RowMatches (s : State) (i : Nat) : Prop := (caughtUp s.rx).chipRam[i]? = some (readByte s.shadow i)

/-- The shadow equals the chip's rows, once the receiver has caught up (20_memory.md R56). -/
def ShadowMatches (s : State) : Prop := BetweenTransmissions s ∧ ∀ i, i < 16 → RowMatches s i

/-! ## What the wire carries -/

/-- A transmission the engine sends: a command of its own, or a burst of 1 to 16 data bytes (30_encoding.md R70, R78,
R79). -/
def legalTransmission : List Byte → Bool
  | [] => false
  | [c] => c == 0x40 || c == 0x44 || (c &&& 0xF8 == 0x88)
  | a :: rest => (a &&& 0xF0 == 0xC0) && decide (rest.length ≤ 16)

/-! ## The run and its host -/

/-- The run has ended: every issued request has responded and no lock is held (00_scope.md R16). The issued requests are
those the port listed (log 27). -/
def runEnded (s : State) : Prop := s.requests = [] ∧ s.lock = .free ∧ s.slotLock = .free

/-- The observation of a run besides its final state: the trace and the responses (R13). -/
def observation (s : State) : List Event × List Response := (s.trace, s.responses.map Completion.response)

/-- A host under this policy may issue a further request after this response to INIT (R213, R233). -/
def mayGoOnAfterInit (policy : Config.HostPolicy) (r : Response) : Bool :=
  match policy with
  | .halt => responseCode r == 0
  | .carryOn => true

/-- A host under this policy may issue a further request after this response to a RENDER or WRITE (R213). -/
def mayGoOnAfterFrame (policy : Config.HostPolicy) (r : Response) : Bool :=
  match policy with
  | .halt => responseCode r != 5
  | .carryOn => true

end Sys2Proof.Machine
end

