-- ==== Sys2Proof/Certificates/Slice0/Obligations.lean ====
section
/-! DEFINITION. The statements for the provers. Each says what an instruction or the machine does, for every state that
meets its hypotheses; where the conclusion is an equation with a next state, every field it does not name is
unchanged. -/

open Sys2Proof Sys2Proof.Machine

/-! ## Encoding -/

/-- Every well-formed instruction decodes back from its own encoding, every operand at every value the encoding
admits (30_encoding.md sections 1 and 2; the request format is the spec's own decision D3). -/
def Obligations.DecodeEncodeAgree : Prop :=
  ∀ i : Instr, i.wellFormed = true → decodeCode (encode i) = .ok i

/-- No two words stand for one instruction: a request header with a payload of exactly the length it calls for, and a
command byte, are the encoding of what they decode to (30_encoding.md sections 1 and 2; D3). -/
def Obligations.EncodeDecodeAgree : Prop :=
  (∀ (h : BitVec 32) (payload : List Byte) (i : Instr), payload.length = payloadLength h →
    decodeRequest h payload = .ok i → encode i = .request h payload) ∧
  (∀ (b : Byte) (i : Instr), decodeCommand b = some i → encode i = .wire false b)

/-- Words written out from 30_encoding.md's tables and the vectors ENC1, ENC5, ENC11 and ENC13 of 95_test_vectors.md
decode to the instructions they stand for. -/
def Obligations.WrittenWordsDecode : Prop :=
  decodeRequest 0x00030000 [] = .ok (.init 3 false false) ∧
  decodeRequest 0x20030200 [0x12, 0x34] = .ok (.write 3 [0x12, 0x34]) ∧
  decodeRequest 0x50000001 [0x10, 0x32, 0x54, 0x76, 0x08, 0x21, 0x43, 0x65] =
    .ok (.transform [0, 1, 2, 3, 4, 5, 6, 7, 8, 0, 1, 2, 3, 4, 5, 6] false true) ∧
  decodeRequest 0x70000000 [0x08, 0, 0, 0, 0, 0, 0, 0x80] =
    .ok (.publish [8, 0, 0, 0, 0, 0, 0, 0, 0, 0, 0, 0, 0, 0, 0, 8]) ∧
  decodeCommand 0xC3 = some (.cmdAddr 3) ∧ decodeCommand 0x8D = some (.cmdDispCtrl 5) ∧ decodeCommand 0x80 = none

/-- A binary request is refused exactly when its OP is reserved, a reserved bit is set, a field its OP does not use is
not zero, or its payload is too short (30_encoding.md section 2, the list under "Each of these is refused with
InvalidRequest"; D3). That no other request is refused, and so that one with payload bytes past the length is not, is
the model's reading of that list (log 3, DEDUCED). -/
def Obligations.MalformedExactly : Prop :=
  ∀ (h : BitVec 32) (payload : List Byte),
    (∃ bad, decodeRequest h payload = .error bad) ↔
      (8 ≤ (h >>> 28).toNat ∨ h.extractLsb' 24 4 ≠ 0 ∨ h.extractLsb' 2 6 ≠ 0 ∨
        (3 ≤ (h >>> 28).toNat ∧ h.extractLsb' 16 8 ≠ 0) ∨
        ((h >>> 28).toNat ≠ 2 ∧ h.extractLsb' 8 8 ≠ 0) ∨
        ((h >>> 28).toNat ≠ 0 ∧ (h >>> 28).toNat ≠ 5 ∧ h.extractLsb' 0 2 ≠ 0) ∨
        ((h >>> 28).toNat = 2 ∧ payload.length < (h.extractLsb' 8 8).toNat) ∨
        (((h >>> 28).toNat = 5 ∨ (h >>> 28).toNat = 7) ∧ payload.length < 8))

/-- A malformed request at the head of the port responds InvalidRequest, code 7, in every state the block may be in: no
event, and nothing changed but that the request is gone and has its response (60_exceptions.md sections 1 and 2). The
step is the request's own once the receiver has taken what the wire delivered (log 1), and the response records all
the offending fields (log 14). -/
def Obligations.MalformedRefused : Prop :=
  ∀ (s : State) (h : BitVec 32) (payload : List Byte) (rest : List PortRequest) (bad : BadRequest),
    s.rx.current = [] → s.rx.queue = [] → s.requests = .binary h payload :: rest →
    decodeRequest h payload = .error bad →
    step s = .next (replied (.invalidRequest bad.op bad.fields) 0 { s with requests := rest }) ∧
      responseCode (.invalidRequest bad.op bad.fields) = 7

/-- Byte `k` of a frame's payload holds `frame[2k]` in bits [3:0] and `frame[2k+1]` in bits [7:4], and unpacking gives
the frame back (30_encoding.md section 2; D23). -/
def Obligations.FramePayloadPacking : Prop :=
  ∀ f : List BarLevel, f.length = 16 →
    (packFrame f).length = 8 ∧ unpackFrame (packFrame f) = f ∧
      ∀ k, k < 8 → ∃ b, (packFrame f)[k]? = some b ∧
        f[2 * k]? = some (b.extractLsb' 0 4) ∧ f[2 * k + 1]? = some (b.extractLsb' 4 4)

/-- The assembled command bytes: `addr_byte = 0xC0 | pos` is 0b1100 before pos and lies in 0xC0 to 0xCF;
`ctrl_byte = 0x80 | 0x08 | bright` is 0b10001 before bright, lies in 0x88 to 0x8F, and has the display-on bit set
(30_encoding.md section 1, operand assembly of CMD_ADDR and CMD_DISP_CTRL). -/
def Obligations.CommandByteAssembly : Prop :=
  (∀ pos : Nat, pos ≤ 15 →
    addressByte pos = 0xC0 ||| BitVec.ofNat 8 pos ∧ addressByte pos = (0b1100 : BitVec 4) ++ BitVec.ofNat 4 pos ∧
      0xC0 ≤ (addressByte pos).toNat ∧ (addressByte pos).toNat ≤ 0xCF) ∧
  (∀ b : Brightness,
    controlByte b = 0x80 ||| 0x08 ||| b.setWidth 8 ∧ controlByte b = (0b10001 : BitVec 5) ++ b ∧
      0x88 ≤ (controlByte b).toNat ∧ (controlByte b).toNat ≤ 0x8F ∧ (controlByte b).getLsbD 3 = true)

/-! ## The transform and TRANSFORM -/

/-- For v in 0..8, fill(v) has exactly v set bits, and so has PAT[v]; reversing a byte twice gives it back, and bit k of
the reversal is bit 7-k (R109). -/
def Obligations.PatternBitCount : Prop :=
  (∀ v, v ≤ 8 → ((List.range 8).filter fun i => (fill v).getLsbD i).length = v ∧
    ((List.range 8).filter fun i => (pat v).getLsbD i).length = v) ∧
  (∀ b : Byte, bitrev8 (bitrev8 b) = b) ∧ (∀ (b : Byte) (k : Nat), k < 8 → (bitrev8 b).getLsbD k = b.getLsbD (7 - k))

/-- The rotations and the concatenation: for a half's columns `lb` (rule R103 gives them for the left) and `rb` (for the
right), row i's bit 7-j is column j's bit i, row 8+i's bit j is column j's bit 7-i (R104, R105, R106). -/
def Obligations.RotationRows : Prop :=
  ∀ (frame : List BarLevel) (mirror reversed : Bool), frame.length = 16 →
    (transformRows frame mirror reversed).length = 16 ∧
    ∀ i j, i < 8 → j < 8 →
      (∃ row col, (transformRows frame mirror reversed)[i]? = some row ∧
        (columnsOf (leftLevels frame mirror) reversed)[j]? = some col ∧ row.getLsbD (7 - j) = col.getLsbD i) ∧
      (∃ row col, (transformRows frame mirror reversed)[8 + i]? = some row ∧
        (columnsOf (rightLevels frame mirror) reversed)[j]? = some col ∧ row.getLsbD j = col.getLsbD (7 - i))

/-- The mirror swaps the halves wholesale, the orientation reverses the entries within each half, and each entry is the
pattern of its level (R102, R103). -/
def Obligations.MirrorAndOrientation : Prop :=
  ∀ frame : List BarLevel, frame.length = 16 → (∀ v ∈ frame, v.toNat ≤ 8) →
    (leftLevels frame false = frame.take 8 ∧ rightLevels frame false = frame.drop 8) ∧
    (leftLevels frame true = frame.drop 8 ∧ rightLevels frame true = frame.take 8) ∧
    ∀ mirror, columnsOf (leftLevels frame mirror) false = (leftLevels frame mirror).map (fun v => pat v.toNat) ∧
      columnsOf (rightLevels frame mirror) false = (rightLevels frame mirror).map (fun v => pat v.toNat) ∧
      columnsOf (leftLevels frame mirror) true = (columnsOf (leftLevels frame mirror) false).reverse ∧
      columnsOf (rightLevels frame mirror) true = (columnsOf (rightLevels frame mirror) false).reverse

/-- The closed form equals the stages: with L' and R' the halves' levels after mirror and reversal, row i's bit 7-j is
set iff L'[j] >= 8-i, and row 8+i's bit j iff R'[j] >= i+1 (41_bitmap_transform.md section 4: "A model that uses it
must prove the equality rather than assume it"). -/
def Obligations.TransformClosedForm : Prop :=
  ∀ (frame : List BarLevel) (mirror reversed : Bool), frame.length = 16 → (∀ v ∈ frame, v.toNat ≤ 8) →
    ∀ i j, i < 8 → j < 8 →
      let left := if reversed then (leftLevels frame mirror).reverse else leftLevels frame mirror
      let right := if reversed then (rightLevels frame mirror).reverse else rightLevels frame mirror
      ∃ top bottom l r, (transformRows frame mirror reversed)[i]? = some top ∧
        (transformRows frame mirror reversed)[8 + i]? = some bottom ∧
        left[j]? = some l ∧ right[j]? = some r ∧
        (top.getLsbD (7 - j) = true ↔ 8 - i ≤ l.toNat) ∧ (bottom.getLsbD j = true ↔ i + 1 ≤ r.toNat)

/-- TRANSFORM of sixteen valid levels responds OK with the sixteen rows, in every state: no event and no state changed
but the response (R107; its other clauses have statements of their own). -/
def Obligations.TransformCompletes : Prop :=
  ∀ (s : State) (frame : List BarLevel) (mirror reversed : Bool), frame.length = 16 → (∀ v ∈ frame, v.toNat ≤ 8) →
    exec (.transform frame mirror reversed) s = .next (replied (.ok (transformRows frame mirror reversed)) 0 s)

/-- TRANSFORM of a malformed frame: another length than 16 is InvalidRequest; of sixteen levels with one above 8, the
lowest such index and its level are reported (41_bitmap_transform.md sections 2 and 3). -/
def Obligations.TransformRefuses : Prop :=
  (∀ (s : State) (frame : List BarLevel) (mirror reversed : Bool), frame.length ≠ 16 →
    exec (.transform frame mirror reversed) s = .next (replied (.invalidRequest 5 [.frame frame.length]) 0 s)) ∧
  (∀ (s : State) (frame : List BarLevel) (mirror reversed : Bool) (k : Nat) (v : BarLevel), frame.length = 16 →
    frame[k]? = some v → 8 < v.toNat → (∀ j w, j < k → frame[j]? = some w → w.toNat ≤ 8) →
    exec (.transform frame mirror reversed) s = .next (replied (.invalidLevel k v) 0 s))

/-! ## The wire -/

/-- SHIFT_BYTE loads the byte, drives its bits least significant first, each with CLK low and then high, and ends with
bitidx 8, CLK high and DIO at bit 7: 24 events (R134, R52). -/
def Obligations.ShiftByteEvents : Prop :=
  ∀ (s : State) (b : Byte), eventsSucceed s 24 →
    runOps (shiftByteOps b) s = ({ driven (shiftEvents b) s with shreg := b, bitidx := 8 }, none) ∧
    (shiftEvents b).length = 24 ∧
    (∀ k, k < 8 → shiftEvents b = (shiftEvents b).take (3 * k) ++
      [(.clk, false), (.dio, b.getLsbD k), (.clk, true)] ++ (shiftEvents b).drop (3 * k + 3)) ∧
    (shiftEvents b).foldl clkAfter s.clk = true ∧ (shiftEvents b).foldl dioAfter s.dio = b.getLsbD 7

/-- STOP is clock low, data low, clock high, data high: 4 events, both lines end high, and the protocol is idle
(R135). -/
def Obligations.StopEndsHigh : Prop :=
  ∀ s : State, eventsSucceed s 4 →
    runOps stopOps s =
      ({ s with
        clk := true
        dio := true
        trace := s.trace ++ [(.clk, false), (.dio, false), (.clk, true), (.dio, true)]
        rx := rxEvents s.clk s.dio [(.clk, false), (.dio, false), (.clk, true), (.dio, true)] s.rx
        phase := .idle
        bitidx := 0 }, none)

/-- START has 3 events, a byte 24 and STOP 4, so a transmission of m bytes has 7 + 24m, and a WRITE's three transmissions
have 93 + 24n for n data bytes (42_wire_framing.md section 3; 43_driver_operations.md section 6). -/
def Obligations.TransmissionEventCount : Prop :=
  (∀ bytes : List Byte, (txEvents bytes).length = 7 + 24 * bytes.length) ∧
  ∀ (pos : Nat) (bytes : List Byte) (b : Brightness),
    (sendEvents (writeSends pos bytes b)).length = 93 + 24 * bytes.length

/-- The decoder law: from any prior levels and a closed decoder, transmissions one after another decode to their own
bytes (42_wire_framing.md section 4, the decoder law). -/
def Obligations.DecoderLaw : Prop :=
  ∀ (ts : List (List Byte)) (c d : Level), decodeTrace (sendEvents ts) c d = ts

/-- A receiver sees only edges: the decoder gives the same transmissions from a trace's edges as from the trace
(42_wire_framing.md section 4, "A receiver sees only edges"). -/
def Obligations.DecoderSeesOnlyEdges : Prop :=
  ∀ (trace : List Event) (c d : Level), decodeTrace (edgesOf c d trace) c d = decodeTrace trace c d

/-- Within a transmission DIO changes while CLK is high only at START's first event, and then only from CLK high and DIO
low before it, at START's last, the start condition, and at STOP's last, the stop condition (42_wire_framing.md
section 3, levels between events). -/
def Obligations.DataStableWhileClockHigh : Prop :=
  ∀ (bytes : List Byte) (c d : Level) (j : Nat) (v : Level), (txEvents bytes)[j]? = some (.dio, v) →
    ((txEvents bytes).take j).foldl clkAfter c = true → ((txEvents bytes).take j).foldl dioAfter d ≠ v →
    (j = 0 ∧ c = true ∧ d = false ∧ v = true) ∨ (j = 2 ∧ v = false) ∨ (j = 6 + 24 * bytes.length ∧ v = true)

/-- The receiver's decoder, event by event, is the reference decoder: outside a transmission, and with none cut off, the
transmissions it delivers are those the reference decoder returns (42_wire_framing.md section 4, reference decoder;
D16). -/
def Obligations.OnlineDecoderIsReference : Prop :=
  ∀ (r : Receiver) (events : List Event) (c d : Level), r.isOpen = false → r.cut = false →
    (rxEvents c d events r).queue = r.queue ++ decodeTrace events c d

/-- Transmissions whose event k fails are cut off there: the events before it, the failed event at the drawn level, and
no STOP; the protocol is idle, and the failure names the line and the event (60_exceptions.md section 1, LineIOError:
what a failed SetLine does; D12). -/
def Obligations.FailedEventCutsTransmission : Prop :=
  ∀ (ts : List (List Byte)) (s : State) (k : Nat) (x : Level), k < (sendEvents ts).length → eventFails s k x →
    ∃ (t : State) (line : Line) (v : Level), (sendEvents ts)[k]? = some (line, v) ∧
      runOps (ts.flatMap txOps) s = (t, some ⟨line, s.trace.length + k⟩) ∧
      t.trace = s.trace ++ (sendEvents ts).take k ++ [(line, x)] ∧ t.phase = .idle ∧ t.bitidx = 0 ∧
      t.rx.cut = t.rx.isOpen ∧ t.shadow = s.shadow ∧ t.bright = s.bright ∧ t.life = s.life ∧
      (line = .clk → t.clk = x) ∧ (line = .dio → t.dio = x)

/-! ## INIT -/

/-- INIT in OFF with a legal brightness, its 62 events succeeding: lines held, shadow zeroed, configuration latched, the
data command and the control byte sent, READY, OK (R160's path without an error). Zeroing a well-formed shadow leaves
its list empty, every row reading 0x00. -/
def Obligations.InitCompletes : Prop :=
  ∀ (s : State) (brightness : Int) (mirror reversed : Bool), s.lock = .free → s.life = .off →
    0 ≤ brightness → brightness ≤ 7 → eventsSucceed s 62 →
    exec (.init brightness mirror reversed) s = .next (replied (.ok []) 62
      { afterSending [[0x40], [controlByte (BitVec.ofInt 3 brightness)]]
          { s with
            linesHeld := true
            shadow := writeSlice s.shadow 0 (List.replicate 16 0x00)
            bright := BitVec.ofInt 3 brightness
            cfgMirror := mirror
            cfgReversed := reversed }
        with life := .ready }) ∧
    (s.shadow.wf = true → writeSlice s.shadow 0 (List.replicate 16 0x00) = []) ∧ ∀ a, readByte [] a = 0x00

/-- INIT whose event k fails: the response is LineIOError with the line and k, the configuration stays written, the lines
are no longer held, and the engine is RELEASED (43_driver_operations.md section 1; D12, D36). -/
def Obligations.InitLineFailure : Prop :=
  ∀ (s : State) (brightness : Int) (mirror reversed : Bool) (k : Nat) (x : Level), s.lock = .free → s.life = .off →
    0 ≤ brightness → brightness ≤ 7 → k < 62 → eventFails s k x →
    ∃ (t : State) (line : Line), exec (.init brightness mirror reversed) s = .next t ∧
      t.responses = s.responses ++ [⟨.lineIOError line k, k + 1⟩] ∧
      (∃ v, (sendEvents [[0x40], [controlByte (BitVec.ofInt 3 brightness)]])[k]? = some (line, v)) ∧
      t.life = .released ∧ t.linesHeld = false ∧ t.bright = BitVec.ofInt 3 brightness ∧ t.cfgMirror = mirror ∧
      t.cfgReversed = reversed ∧ t.shadow = writeSlice s.shadow 0 (List.replicate 16 0x00) ∧
      t.lock = .free ∧ t.slot = s.slot ∧ t.phase = .idle ∧ t.trace.length = s.trace.length + k + 1

/-- INIT refused: outside OFF it is WrongLifecycle whatever the brightness, and in OFF a brightness outside 0..7 is
InvalidBrightness; nothing changes but the response (43_driver_operations.md section 1; D5, D7). -/
def Obligations.InitRefused : Prop :=
  (∀ (s : State) (brightness : Int) (mirror reversed : Bool), s.lock = .free → s.life ≠ .off →
    exec (.init brightness mirror reversed) s = .next (replied (.wrongLifecycle s.life) 0 s)) ∧
  (∀ (s : State) (brightness : Int) (mirror reversed : Bool), s.lock = .free → s.life = .off →
    (brightness < 0 ∨ 7 < brightness) →
    exec (.init brightness mirror reversed) s = .next (replied (.invalidBrightness brightness) 0 s))

/-! ## Lifecycle -/

/-- SET_BRIGHTNESS, WRITE, CLEAR and RENDER outside READY are WrongLifecycle, before any operand is looked at, and change
nothing but the response (60_exceptions.md section 1, lifecycle acceptance; D5). -/
def Obligations.RefusedOutsideReady : Prop :=
  ∀ (s : State) (i : Instr), s.lock = .free → s.life ≠ .ready →
    ((∃ level, i = .setBrightness level) ∨ (∃ pos bytes, i = .write pos bytes) ∨ i = .clear ∨ i = .render) →
    exec i s = .next (replied (.wrongLifecycle s.life) 0 s)

/-- RELEASED is terminal: from it no step of any kind emits an event, changes the shadow, the brightness or the flags,
holds or releases the lines, or leaves RELEASED (60_exceptions.md section 5; 10_state.md section 3; D19, D33). -/
def Obligations.ReleasedIsTerminal : Prop :=
  ∀ s t : State, s.life = .released → step s = .next t →
    t.life = .released ∧ t.trace = s.trace ∧ t.shadow = s.shadow ∧ t.bright = s.bright ∧ t.cfgMirror = s.cfgMirror ∧
      t.cfgReversed = s.cfgReversed ∧ t.linesHeld = s.linesHeld

/-- Only INIT, in OFF, writes the mirror and orientation flags, and it writes its operands; after INIT no request
writes either flag (10_state.md section 5). -/
def Obligations.FlagsWrittenByInitOnly : Prop :=
  ∀ (i : Instr) (s t : State), exec i s = .next t →
    (t.cfgMirror = s.cfgMirror ∧ t.cfgReversed = s.cfgReversed) ∨
      (s.life = .off ∧ t.life ≠ .off ∧ ∃ brightness mirror reversed, i = .init brightness mirror reversed ∧
        t.cfgMirror = mirror ∧ t.cfgReversed = reversed)

/-! ## SET_BRIGHTNESS -/

/-- SET_BRIGHTNESS in READY to another legal level, its 31 events succeeding: the level is taken and one control
transmission sent (R162's path that changes the level). -/
def Obligations.SetBrightnessCompletes : Prop :=
  ∀ (s : State) (level : Int), s.lock = .free → s.life = .ready → 0 ≤ level → level ≤ 7 →
    BitVec.ofInt 3 level ≠ s.bright → eventsSucceed s 31 →
    exec (.setBrightness level) s = .next (replied (.ok []) 31
      (afterSending [[controlByte (BitVec.ofInt 3 level)]] { s with bright := BitVec.ofInt 3 level }))

/-- SET_BRIGHTNESS to the current level is a no-op with no event; to a level outside 0..7 it is InvalidBrightness, with
no event and no state change (R162's two paths without traffic). -/
def Obligations.SetBrightnessWithoutTraffic : Prop :=
  (∀ (s : State) (level : Int), s.lock = .free → s.life = .ready → level = s.bright.toNat →
    exec (.setBrightness level) s = .next (replied (.ok []) 0 s)) ∧
  (∀ (s : State) (level : Int), s.lock = .free → s.life = .ready → (level < 0 ∨ 7 < level) →
    exec (.setBrightness level) s = .next (replied (.invalidBrightness level) 0 s))

/-- SET_BRIGHTNESS whose event k fails responds LineIOError and keeps the new level; the same request again then emits
nothing (43_driver_operations.md section 2, "On a LineIOError inside SET_BRIGHTNESS's SEND_CMD, bright keeps the new
level"). -/
def Obligations.SetBrightnessLineFailure : Prop :=
  ∀ (s : State) (level : Int) (k : Nat) (x : Level), s.lock = .free → s.life = .ready → 0 ≤ level → level ≤ 7 →
    BitVec.ofInt 3 level ≠ s.bright → k < 31 → eventFails s k x →
    ∃ b, let cut := afterCut [[controlByte (BitVec.ofInt 3 level)]] k x b { s with bright := BitVec.ofInt 3 level }
      let t := replied (.lineIOError (lineOf (sendEvents [[controlByte (BitVec.ofInt 3 level)]]) k) k) (k + 1) cut
      exec (.setBrightness level) s = .next t ∧ exec (.setBrightness level) t = .next (replied (.ok []) 0 t)

/-! ## WRITE -/

/-- WRITE in READY (R167). Of a slice that differs from the shadow, its 93 + 24n events succeeding: the shadow takes the
slice, then fixed address, burst and control byte are sent; every other row keeps its byte. Of a slice equal to the
shadow: no bus transaction. Where event k fails: LineIOError, and the new slice stays in the shadow. -/
def Obligations.WriteCompletes : Prop :=
  (∀ (s : State) (pos : Nat) (bytes : List Byte), s.lock = .free → s.life = .ready → pos ≤ 15 →
    pos + bytes.length ≤ 16 → readSlice s.shadow pos bytes.length ≠ bytes → eventsSucceed s (93 + 24 * bytes.length) →
    exec (.write pos bytes) s = .next (replied (.ok []) (93 + 24 * bytes.length)
      (afterSending [[0x44], addressByte pos :: bytes, [controlByte s.bright]]
        { s with shadow := writeSlice s.shadow pos bytes })) ∧
    (∀ a, a < pos ∨ pos + bytes.length ≤ a → readByte (writeSlice s.shadow pos bytes) a = readByte s.shadow a) ∧
    (s.shadow.wf = true → readSlice (writeSlice s.shadow pos bytes) pos bytes.length = bytes)) ∧
  (∀ (s : State) (pos : Nat) (bytes : List Byte), s.lock = .free → s.life = .ready → pos ≤ 15 →
    pos + bytes.length ≤ 16 → readSlice s.shadow pos bytes.length = bytes →
    exec (.write pos bytes) s = .next (replied (.ok []) 0 s)) ∧
  (∀ (s : State) (pos : Nat) (bytes : List Byte) (k : Nat) (x : Level), s.lock = .free → s.life = .ready → pos ≤ 15 →
    pos + bytes.length ≤ 16 → readSlice s.shadow pos bytes.length ≠ bytes → k < 93 + 24 * bytes.length →
    eventFails s k x →
    ∃ (t : State) (line : Line), exec (.write pos bytes) s = .next t ∧
      t.responses = s.responses ++ [⟨.lineIOError line k, k + 1⟩] ∧ t.shadow = writeSlice s.shadow pos bytes)

/-- WRITE in READY refused: a position outside 0..15 is InvalidPosition whatever the length (R202); a legal one with
pos + n > 16 is BufferOverflow (R203). Nothing changes but the response. -/
def Obligations.WriteRefused : Prop :=
  (∀ (s : State) (pos : Int) (bytes : List Byte), s.lock = .free → s.life = .ready → (pos < 0 ∨ 15 < pos) →
    exec (.write pos bytes) s = .next (replied (.invalidPosition pos) 0 s)) ∧
  (∀ (s : State) (pos : Int) (bytes : List Byte), s.lock = .free → s.life = .ready → 0 ≤ pos → pos ≤ 15 →
    16 < pos + bytes.length →
    exec (.write pos bytes) s = .next (replied (.bufferOverflow pos bytes.length) 0 s))

/-- WRITE whose event k fails responds LineIOError, and the new slice stays in the shadow: the same WRITE again emits
nothing and changes nothing (43_driver_operations.md section 3; 70_reset_and_hazards.md section 3, shadow ahead of the
chip). -/
def Obligations.WriteLineFailureKeepsShadow : Prop :=
  ∀ (s : State) (pos : Nat) (bytes : List Byte) (k : Nat) (x : Level), s.shadow.wf = true → s.lock = .free →
    s.life = .ready → pos ≤ 15 → pos + bytes.length ≤ 16 → readSlice s.shadow pos bytes.length ≠ bytes →
    k < 93 + 24 * bytes.length → eventFails s k x →
    ∃ b, let ts := [[0x44], addressByte pos :: bytes, [controlByte s.bright]]
      let cut := afterCut ts k x b { s with shadow := writeSlice s.shadow pos bytes }
      let t := replied (.lineIOError (lineOf (sendEvents ts) k) k) (k + 1) cut
      exec (.write pos bytes) s = .next t ∧ exec (.write pos bytes) t = .next (replied (.ok []) 0 t)

/-- Writing twice is one bus transaction: after any WRITE that ended in OK, the same WRITE again emits nothing and changes
nothing but the response (43_driver_operations.md section 3, idempotence). -/
def Obligations.WriteIdempotent : Prop :=
  ∀ (s t : State) (pos : Int) (bytes : List Byte) (n : Nat), s.shadow.wf = true → s.lock = .free →
    exec (.write pos bytes) s = .next t → t.responses = s.responses ++ [⟨.ok [], n⟩] →
    exec (.write pos bytes) t = .next (replied (.ok []) 0 t)

/-! ## CLEAR and TEARDOWN -/

/-- CLEAR in READY with one shadow byte not zero (R170's path that emits). Its 477 events succeeding, it writes sixteen
zero bytes at row 0 as WRITE does. Where event k fails, the LineIOError is its response. Either way the shadow is all
zero from before the first event, so the same CLEAR again emits nothing (43_driver_operations.md section 4;
70_reset_and_hazards.md section 3, shadow ahead of the chip). -/
def Obligations.ClearCompletes : Prop :=
  (∀ (s : State) (a : Nat), s.lock = .free → s.life = .ready → a < 16 → readByte s.shadow a ≠ 0x00 →
    eventsSucceed s 477 →
    exec .clear s = .next (replied (.ok []) 477
      (afterSending [[0x44], 0xC0 :: List.replicate 16 0x00, [controlByte s.bright]]
        { s with shadow := writeSlice s.shadow 0 (List.replicate 16 0x00) }))) ∧
  (∀ (s : State) (a k : Nat) (x : Level), s.lock = .free → s.life = .ready → a < 16 → readByte s.shadow a ≠ 0x00 →
    k < 477 → eventFails s k x →
    ∃ b, let ts := [[0x44], 0xC0 :: List.replicate 16 0x00, [controlByte s.bright]]
      exec .clear s = .next (replied (.lineIOError (lineOf (sendEvents ts) k) k) (k + 1)
        (afterCut ts k x b { s with shadow := writeSlice s.shadow 0 (List.replicate 16 0x00) }))) ∧
  (∀ s t : State, s.shadow.wf = true → s.lock = .free → s.life = .ready → exec .clear s = .next t →
    (∀ a, a < 16 → readByte t.shadow a = 0x00) ∧ exec .clear t = .next (replied (.ok []) 0 t))

/-- CLEAR in READY on a zero shadow emits nothing and changes nothing but the response (R170's no-op). -/
def Obligations.ClearOnZeroSkips : Prop :=
  ∀ s : State, s.lock = .free → s.life = .ready → (∀ a, a < 16 → readByte s.shadow a = 0x00) →
    exec .clear s = .next (replied (.ok []) 0 s)

/-- TEARDOWN in READY always responds OK, whatever the line interface does: it ends RELEASED with the lines not held,
having emitted at most 477 events, and none on a zero shadow; the shadow is as CLEAR leaves it, all zero (R171,
R214). That the chip's registers are still as they were is the model's choice (log 1): the receiver takes what the
request sent in steps of its own, after it. -/
def Obligations.TeardownCompletes : Prop :=
  ∀ s : State, s.lock = .free → s.life = .ready →
    ∃ (t : State) (n : Nat), exec .teardown s = .next t ∧ t.responses = s.responses ++ [⟨.ok [], n⟩] ∧ n ≤ 477 ∧
      t.trace.length = s.trace.length + n ∧ t.life = .released ∧ t.linesHeld = false ∧ t.bright = s.bright ∧
      t.cfgMirror = s.cfgMirror ∧ t.cfgReversed = s.cfgReversed ∧ t.slot = s.slot ∧ t.lock = .free ∧
      t.slotLock = s.slotLock ∧ t.requests = s.requests ∧ t.rx.chipRam = s.rx.chipRam ∧
      t.rx.chipCtrl = s.rx.chipCtrl ∧
      (s.shadow.wf = true → ∀ a, a < 16 → readByte t.shadow a = 0x00) ∧
      ((∀ a, a < 16 → readByte s.shadow a = 0x00) → n = 0 ∧ t.trace = s.trace ∧ t.shadow = s.shadow)

/-- TEARDOWN in READY on a shadow that is not zero, the events of its clear succeeding, sends the clear's three
transmissions before it releases the lines (R171; the levels that released lines then have are free values, log 7). -/
def Obligations.TeardownClears : Prop :=
  ∀ (s : State) (a : Nat), s.lock = .free → s.life = .ready → a < 16 → readByte s.shadow a ≠ 0x00 →
    eventsSucceed s 477 →
    exec .teardown s = .next (replied (.ok []) 477 (shutDown
      (afterSending [[0x44], 0xC0 :: List.replicate 16 0x00, [controlByte s.bright]]
        { s with shadow := writeSlice s.shadow 0 (List.replicate 16 0x00) })))

/-- TEARDOWN in OFF or RELEASED responds OK and changes nothing (43_driver_operations.md section 4; D19). -/
def Obligations.TeardownOutsideReady : Prop :=
  ∀ s : State, s.lock = .free → s.life ≠ .ready → exec .teardown s = .next (replied (.ok []) 0 s)

/-! ## PUBLISH and RENDER -/

/-- PUBLISH of sixteen levels, valid or not, overwrites the slot in every lifecycle state and whatever the slot held; no
event, and no other field changes but the response (43_driver_operations.md section 5; D22). -/
def Obligations.PublishCompletes : Prop :=
  ∀ (s : State) (frame : Frame), s.slotLock = .free →
    exec (.publish frame.toList) s = .next (replied (.ok []) 0 { s with slot := some frame })

/-- PUBLISH of another number of levels is InvalidRequest; the slot keeps its frame (43_driver_operations.md section 5;
D22). -/
def Obligations.PublishRefused : Prop :=
  ∀ (s : State) (levels : List BarLevel), levels.length ≠ 16 →
    exec (.publish levels) s = .next (replied (.invalidRequest 7 [.frame levels.length]) 0 s)

/-- RENDER in READY of a valid frame whose rows differ from the shadow: the slot is emptied and the shadow takes the
sixteen rows of the transform under the configuration's flags, before the first event. Its 477 events succeeding, the
rows are sent at row 0. Where event k fails, the response is LineIOError, the slot stays empty and the shadow keeps the
new rows, so that the same frame published again renders without an event (43_driver_operations.md section 5; D21;
70_reset_and_hazards.md section 3, shadow ahead of the chip). -/
def Obligations.RenderCompletes : Prop :=
  (∀ (s : State) (frame : Frame), s.lock = .free → s.slotLock = .free → s.life = .ready → s.slot = some frame →
    (∀ v ∈ frame.toList, v.toNat ≤ 8) →
    readSlice s.shadow 0 16 ≠ transformRows frame.toList s.cfgMirror s.cfgReversed → eventsSucceed s 477 →
    exec .render s = .next (replied (.ok []) 477
      (afterSending [[0x44], 0xC0 :: transformRows frame.toList s.cfgMirror s.cfgReversed, [controlByte s.bright]]
        { s with
          slot := none
          shadow := writeSlice s.shadow 0 (transformRows frame.toList s.cfgMirror s.cfgReversed) }))) ∧
  (∀ (s : State) (frame : Frame) (k : Nat) (x : Level), s.lock = .free → s.slotLock = .free → s.life = .ready →
    s.slot = some frame → (∀ v ∈ frame.toList, v.toNat ≤ 8) →
    readSlice s.shadow 0 16 ≠ transformRows frame.toList s.cfgMirror s.cfgReversed → k < 477 → eventFails s k x →
    ∃ b, let ts := [[0x44], 0xC0 :: transformRows frame.toList s.cfgMirror s.cfgReversed, [controlByte s.bright]]
      let t := replied (.lineIOError (lineOf (sendEvents ts) k) k) (k + 1) (afterCut ts k x b
        { s with
          slot := none
          shadow := writeSlice s.shadow 0 (transformRows frame.toList s.cfgMirror s.cfgReversed) })
      exec .render s = .next t ∧
        (s.shadow.wf = true →
          readSlice t.shadow 0 16 = transformRows frame.toList s.cfgMirror s.cfgReversed ∧
          exec .render { t with slot := some frame } = .next (replied (.ok []) 0 t)))

/-- RENDER in READY without traffic: an empty slot is a no-op; a frame whose rows equal the shadow is taken and nothing
is sent; a frame with an invalid level is taken, and its lowest invalid index reported (43_driver_operations.md
section 5; D21). -/
def Obligations.RenderWithoutTraffic : Prop :=
  (∀ s : State, s.lock = .free → s.slotLock = .free → s.life = .ready → s.slot = none →
    exec .render s = .next (replied (.ok []) 0 s)) ∧
  (∀ (s : State) (frame : Frame), s.lock = .free → s.slotLock = .free → s.life = .ready → s.slot = some frame →
    (∀ v ∈ frame.toList, v.toNat ≤ 8) →
    readSlice s.shadow 0 16 = transformRows frame.toList s.cfgMirror s.cfgReversed →
    exec .render s = .next (replied (.ok []) 0 { s with slot := none })) ∧
  (∀ (s : State) (frame : Frame) (k : Nat) (v : BarLevel), s.lock = .free → s.slotLock = .free → s.life = .ready →
    s.slot = some frame → frame.toList[k]? = some v → 8 < v.toNat →
    (∀ j w, j < k → frame.toList[j]? = some w → w.toNat ≤ 8) →
    exec .render s = .next (replied (.invalidLevel k v) 0 { s with slot := none }))

/-! ## The wire bytes at the reference receiver -/

/-- The commands that are transmissions of their own: CMD_DATA and CMD_FIXED_ADDR change nothing at the receiver, and
CMD_DISP_CTRL puts `0x80 | 0x08 | b` into chip_ctrl and changes nothing else (42_wire_framing.md section 4, reference
receiver; D17). -/
def Obligations.LoneCommandsComplete : Prop :=
  ∀ s : State, s.rx.place = .first → s.rx.current = [] →
    exec .cmdData s = .next s ∧ exec .cmdFixedAddr s = .next s ∧
    ∀ b : Brightness, exec (.cmdDispCtrl b) s =
      .next { s with rx := { s.rx with chipCtrl := 0x80 ||| 0x08 ||| b.setWidth 8 } }

/-- CMD_ADDR with data bytes behind it points the receiver at its row and changes nothing else; DATA in a burst at a row
of the chip stores its byte there and nowhere else, and under INCREMENT the next byte is for the next row, under FIXED
for the same one, until the burst ends. A data byte for a row past 15 stores nothing and moves on the same way (42_wire_framing.md section 4, reference receiver; D17). -/
def Obligations.BurstBytesComplete : Prop :=
  (∀ (s : State) (p : BitVec 4), s.rx.place = .first → s.rx.current ≠ [] →
    exec (.cmdAddr p) s = .next { s with rx := { s.rx with place := .row p.toNat } }) ∧
  (∀ (s : State) (d : Byte) (p : Nat), s.rx.place = .row p → p ≤ 15 →
    ∃ t, exec (.data d) s = .next { s with rx := t } ∧
      t = { s.rx with
        chipRam := t.chipRam
        place := if s.rx.current = [] then .first
          else .row (if s.rx.addressing = .increment then p + 1 else p) } ∧
      t.chipRam[p]? = some d ∧ ∀ i, i ≠ p → t.chipRam[i]? = s.rx.chipRam[i]?) ∧
  (∀ (s : State) (d : Byte) (p : Nat), s.rx.place = .row p → 15 < p →
    exec (.data d) s = .next { s with
      rx := { s.rx with
        place := if s.rx.current = [] then .first
          else .row (if s.rx.addressing = .increment then p + 1 else p) } })

/-- A wire byte where R149 gives it no meaning (a mode or control command with bytes behind it, an address byte with
none, a data byte outside a burst), and a transmission that is empty or begins with a byte that is no command, make the
receiver's state unknown: its two registers take free values, the rest of the transmission is dropped, and nothing else
changes (42_wire_framing.md section 4, "any other t"). That the rest is dropped, that the registers take free values,
and that an empty transmission is among these is the model's form of "unknown" (logs 9, 22 and 25). -/
def Obligations.MisplacedBytesLoseReceiver : Prop :=
  (∀ s : State, s.rx.place = .first →
    let lost := { s with
      rx := { s.rx with
        chipRam := Config.unknownRam s.rx.unknowns
        chipCtrl := Config.unknownCtrl s.rx.unknowns
        unknowns := s.rx.unknowns + 1
        current := []
        place := .first } }
    (s.rx.current ≠ [] → exec .cmdData s = .next lost ∧ exec .cmdFixedAddr s = .next lost ∧
      ∀ b, exec (.cmdDispCtrl b) s = .next lost) ∧
    (s.rx.current = [] → ∀ p, exec (.cmdAddr p) s = .next lost) ∧
    ∀ d, exec (.data d) s = .next lost) ∧
  (∀ (s : State) (t : List Byte) (others : List (List Byte)), s.rx.current = [] → s.rx.queue = t :: others →
    (t = [] ∨ ∃ b rest, t = b :: rest ∧ decodeCommand b = none) →
    step s = .next { s with
      rx := { s.rx with
        chipRam := Config.unknownRam s.rx.unknowns
        chipCtrl := Config.unknownCtrl s.rx.unknowns
        unknowns := s.rx.unknowns + 1
        queue := others
        current := []
        place := .first } })

/-- Taking a transmission byte by byte is what R149's apply does to it whole: from a receiver between transmissions,
some steps of the machine take the oldest delivered transmission and leave the receiver as apply leaves it, and the
engine as it was (42_wire_framing.md section 4, reference receiver; that the receiver moves by steps of its own is log
1). -/
def Obligations.BytewiseReceiverIsApply : Prop :=
  ∀ (s : State) (t : List Byte) (rest : List (List Byte)), s.rx.current = [] → s.rx.queue = t :: rest →
    ∃ n, Sys2Proof.core.run n s =
      .next { s with rx := rxApply t { s.rx with queue := rest, place := .first } }

/-- A burst of n >= 1 data bytes from row p, all within the chip: under INCREMENT row p+k takes byte k; under FIXED row p
takes the last byte and every other row keeps its own, so that for n >= 2 the chip and the shadow may disagree
(42_wire_framing.md section 4; 70_reset_and_hazards.md section 3, multi-byte burst; D17). -/
def Obligations.BurstPlacement : Prop :=
  ∀ (r : Receiver) (p : Nat) (bytes : List Byte), bytes ≠ [] → p + bytes.length ≤ 16 →
    (r.addressing = .increment → ∀ i, i < 16 →
      (rxTakeBurst p bytes r).chipRam[i]? =
        if p ≤ i ∧ i < p + bytes.length then bytes[i - p]? else r.chipRam[i]?) ∧
    (r.addressing = .fixed → ∀ i, i < 16 →
      (rxTakeBurst p bytes r).chipRam[i]? = if i = p then bytes.getLast? else r.chipRam[i]?)

/-- After a line failure cut a transmission off, the next START's rise of DIO with CLK high is a stop condition: a
receiver that follows the reference decoder accepts the complete bytes, and one that does not drops them; with the
levels otherwise, START's fall of DIO begins a new transmission: the one drops the old bytes and the other accepts them
(70_reset_and_hazards.md section 3, aborted transmission: both outcomes admitted; log 10). -/
def Obligations.AbortedTransmissionOutcomes : Prop :=
  ∀ (r : Receiver) (follows : Bool), r.isOpen = true → r.cut = true → r.abortDraws[r.aborts]? = some follows →
    (rxEvent true false (.dio, true) r).queue =
      (if follows then r.queue ++ [bytesOfSamples r.bits] else r.queue) ∧
    (rxEvent true false (.dio, true) r).isOpen = false ∧
    (rxEvent true true (.dio, false) r).queue =
      (if follows then r.queue else r.queue ++ [bytesOfSamples r.bits]) ∧
    (rxEvent true true (.dio, false) r).isOpen = true ∧ (rxEvent true true (.dio, false) r).bits = []

/-! ## The whole machine -/

/-- When the receiver has bytes to take, or the head of the port decodes, the step is exec of that instruction, in the
state with the byte or request taken off (a request that waits for a lock stays); so a run is made of the meanings
above (log 1, 2, 11). -/
def Obligations.StepRunsTheDecoded : Prop :=
  (∀ (s : State) (b : Byte) (rest : List Byte) (i : Instr), s.rx.current = b :: rest →
    decodeCode (.wire (decide (s.rx.place ≠ .first)) b) = .ok i →
    step s = exec i { s with rx := { s.rx with current := rest } }) ∧
  (∀ (s : State) (b : Byte) (rest : List Byte) (others : List (List Byte)) (i : Instr), s.rx.current = [] →
    s.rx.queue = (b :: rest) :: others → decodeCode (.wire false b) = .ok i →
    step s = exec i { s with rx := { s.rx with current := rest, queue := others, place := .first } }) ∧
  (∀ (s : State) (h : BitVec 32) (payload : List Byte) (rest : List PortRequest) (i : Instr), s.rx.current = [] →
    s.rx.queue = [] → s.requests = .binary h payload :: rest → decodeCode (.request h payload) = .ok i →
    step s = exec i (if waits i s then s else { s with requests := rest })) ∧
  (∀ (s : State) (q : Request) (rest : List PortRequest), s.rx.current = [] → s.rx.queue = [] →
    s.requests = .abstract q :: rest →
    step s = exec q.toInstr (if waits q.toInstr s then s else { s with requests := rest }))

/-- Nothing stops the machine: every instruction answers a next state in every state, and so does every step; an error
ends a request and never the machine (60_exceptions.md sections 1 and 3; that an idle step and a waiting request answer
a next state too is logs 11 and 12). -/
def Obligations.NothingStops : Prop :=
  (∀ (i : Instr) (s : State), ∃ t, exec i s = .next t) ∧ ∀ s : State, ∃ t, step s = .next t

/-- No request hangs: one that does not wait for a lock responds exactly once and emits at most 477 events, all appended
to the trace and counted in its completion; one that waits changes nothing (60_exceptions.md section 1, "No request
can hang inside the block"; the count and the waiting step are the model's form, logs 11 and 15). -/
def Obligations.RequestsAreBounded : Prop :=
  ∀ (q : Request) (s t : State), exec q.toInstr s = .next t →
    (waits q.toInstr s = true ∧ t = s) ∨
      ∃ (r : Response) (events : List Event), waits q.toInstr s = false ∧ events.length ≤ 477 ∧
        t.trace = s.trace ++ events ∧ t.responses = s.responses ++ [⟨r, events.length⟩]

/-- A request that ends in a validation error leaves the state as it was and emits no event; the one exception is RENDER's
InvalidLevel, which finds the slot already emptied (R201). The second clause says it of a malformed binary request. -/
def Obligations.ValidationErrorsChangeNothing : Prop :=
  (∀ (q : Request) (s t : State) (r : Response) (n : Nat), s.lock = .free → s.slotLock = .free →
    exec q.toInstr s = .next t → t.responses = s.responses ++ [⟨r, n⟩] → validationError r = true →
    t = replied r 0 s ∨ (q = .render ∧ (∃ k v, r = .invalidLevel k v) ∧ t = replied r 0 { s with slot := none })) ∧
  ∀ (s : State) (h : BitVec 32) (payload : List Byte) (rest : List PortRequest) (bad : BadRequest),
    s.rx.current = [] → s.rx.queue = [] → s.requests = .binary h payload :: rest →
    decodeRequest h payload = .error bad →
    ∃ r, validationError r = true ∧ step s = .next (replied r 0 { s with requests := rest })

/-- Requests act on the engine and the receiver takes the wire: a request changes neither the chip's registers nor the
byte the receiver is at, and a wire byte changes nothing outside the receiver (10_state.md section 8; 60_exceptions.md
section 5, agents; log 1). -/
def Obligations.AgentsKeepApart : Prop :=
  (∀ (q : Request) (s t : State), exec q.toInstr s = .next t →
    t.rx.chipRam = s.rx.chipRam ∧ t.rx.chipCtrl = s.rx.chipCtrl ∧ t.rx.addressing = s.rx.addressing ∧
      t.rx.current = s.rx.current ∧ t.rx.place = s.rx.place ∧ t.requests = s.requests ∧ t.lineDraws = s.lineDraws) ∧
  (∀ (i : Instr) (s t : State),
    (i = .cmdData ∨ i = .cmdFixedAddr ∨ (∃ p, i = .cmdAddr p) ∨ (∃ b, i = .cmdDispCtrl b) ∨ ∃ d, i = .data d) →
    exec i s = .next t → t = { s with rx := t.rx })

/-- What the wire carries: a request whose events all succeed, from a decoder outside any transmission, delivers only
transmissions of the legal kinds: 0x40, 0x44 or a control byte 0x88..0x8F alone, or an address byte 0xC0..0xCF with 1
to 16 data bytes (30_encoding.md section 1, reserved and never-emitted values). Where it delivered one and still holds
the lines, both end high (10_state.md section 3). -/
def Obligations.OnlyLegalTransmissions : Prop :=
  ∀ (q : Request) (s t : State), exec q.toInstr s = .next t → eventsSucceed s 477 → s.rx.isOpen = false →
    s.rx.cut = false →
    ∃ ts : List (List Byte), t.rx.queue = s.rx.queue ++ ts ∧ t.trace = s.trace ++ sendEvents ts ∧
      t.rx.isOpen = false ∧ (∀ u ∈ ts, legalTransmission u = true) ∧
      (ts ≠ [] → q ≠ .teardown → t.clk = true ∧ t.dio = true)

/-- The shadow invariant, once the receiver has caught up, for requests whose events succeed (20_memory.md section 3,
conditions (a) to (d); 70_reset_and_hazards.md section 2). Under INCREMENT every request of READY keeps it; under FIXED
so do SET_BRIGHTNESS, a WRITE of at most one byte, and every request that emits nothing (TRANSFORM and PUBLISH always,
the others where they skip the bus or are refused). INIT over all-zero chip rows establishes it. A WRITE that emits
makes the rows it carries match and keeps the rows that match; under INCREMENT a WRITE of sixteen bytes at row 0, a
CLEAR or a RENDER that emits establishes it whatever the chip held. -/
def Obligations.ShadowMatchesChip : Prop :=
  (∀ (q : Request) (s t : State), s.shadow.wf = true → s.life = .ready → s.lock = .free → ShadowMatches s →
    (s.rx.addressing = .increment ∨ (∃ level, q = .setBrightness level) ∨
      (∃ pos bytes, q = .write pos bytes ∧ bytes.length ≤ 1) ∨ t.trace = s.trace) →
    eventsSucceed s 477 → exec q.toInstr s = .next t → ShadowMatches t) ∧
  (∀ (s t : State) (brightness : Int) (mirror reversed : Bool), s.shadow.wf = true → s.life = .off → s.lock = .free →
    0 ≤ brightness → brightness ≤ 7 → BetweenTransmissions s →
    (∀ i, i < 16 → (caughtUp s.rx).chipRam[i]? = some 0x00) → eventsSucceed s 62 →
    exec (.init brightness mirror reversed) s = .next t → ShadowMatches t) ∧
  (∀ (s t : State) (pos : Nat) (bytes : List Byte), s.shadow.wf = true → s.life = .ready → s.lock = .free →
    BetweenTransmissions s → pos ≤ 15 → pos + bytes.length ≤ 16 → readSlice s.shadow pos bytes.length ≠ bytes →
    (s.rx.addressing = .increment ∨ bytes.length ≤ 1) → eventsSucceed s (93 + 24 * bytes.length) →
    exec (.write pos bytes) s = .next t →
    BetweenTransmissions t ∧
      ∀ i, i < 16 → ((pos ≤ i ∧ i < pos + bytes.length) ∨ RowMatches s i) → RowMatches t i) ∧
  (∀ (q : Request) (s t : State), s.shadow.wf = true → s.life = .ready → s.lock = .free → BetweenTransmissions s →
    s.rx.addressing = .increment → eventsSucceed s 477 →
    (q = .clear ∨ q = .render ∨ ∃ bytes, bytes.length = 16 ∧ q = .write 0 bytes) →
    exec q.toInstr s = .next t → t.trace ≠ s.trace → ShadowMatches t)

/-- The state right after reset, as the spec gives it: OFF, lines not held, protocol idle, both locks free, slot and trace
empty, the parameters LINE_LEVEL_AT_ACQUIRE and CHIP_RAM_INIT on the lines and in the chip (70_reset_and_hazards.md
section 1; the rows the table calls unspecified are the model's choice, log 4, and are not stated). -/
def Obligations.ResetState : Prop :=
  State.reset.life = .off ∧ State.reset.linesHeld = false ∧ State.reset.phase = .idle ∧ State.reset.bitidx = 0 ∧
    State.reset.lock = .free ∧ State.reset.slotLock = .free ∧ State.reset.slot = none ∧ State.reset.trace = [] ∧
    State.reset.clk = Config.clkAtAcquire ∧ State.reset.dio = Config.dioAtAcquire ∧
    State.reset.rx.chipRam = Config.chipRamInit ∧ patTable = [0x00, 0x80, 0xC0, 0xE0, 0xF0, 0xF8, 0xFC, 0xFE, 0xFF]

/-- The invariant holds at reset (10_state.md section 7; 70_reset_and_hazards.md section 1; that an empty list of cells
stands for the unspecified shadow is log 4). -/
def Obligations.ResetMeetsInvariant : Prop := StateInv State.reset

/-- Every step keeps the invariant, from every state that meets it: between requests the protocol is idle and the locks are
free, the shadow is in its canonical form, the lines are held exactly in READY, no event precedes INIT, and a
transmission is left open only by a line failure (10_state.md sections 3 and 7; 42_wire_framing.md section 2, framing
invariants and abort). -/
def Obligations.StepKeepsInvariant : Prop := ∀ s t : State, StateInv s → step s = .next t → StateInv t
end

