-- ==== Sys2Proof/Laws/Receiver.lean ====
section
/-! SUPPORT. What line events do to the receiver: its registers and its place are not touched, a decoder that nothing
cut off is the reference decoder, and a transmission sent to its STOP is delivered as its bytes. -/

namespace Sys2Proof.Machine

/-! ## What the decoder leaves alone -/

/-- The decoder works on its own fields and on the queue alone. -/
theorem rxEvent_frame (c d : Level) (e : Event) (r : Receiver) :
    rxEvent c d e r =
      { r with
        isOpen := (rxEvent c d e r).isOpen
        bits := (rxEvent c d e r).bits
        cut := (rxEvent c d e r).cut
        queue := (rxEvent c d e r).queue
        aborts := (rxEvent c d e r).aborts } := by
  unfold rxEvent beginTransmission endTransmission
  split
  · split <;> rfl
  · split
    · split <;> rfl
    · split <;> rfl

/-- The same for a sequence of events. -/
theorem rxEvents_frame (es : List Event) : ∀ (c d : Level) (r : Receiver),
    rxEvents c d es r =
      { r with
        isOpen := (rxEvents c d es r).isOpen
        bits := (rxEvents c d es r).bits
        cut := (rxEvents c d es r).cut
        queue := (rxEvents c d es r).queue
        aborts := (rxEvents c d es r).aborts } := by
  induction es with
  | nil => intros; rfl
  | cons e es ih =>
    intro c d r
    rw [rxEvents, ih]
    congr 1 <;> rw [rxEvent_frame]

section Frame

variable (c d : Level) (es : List Event) (r : Receiver)

@[simp] theorem rxEvents_chipRam : (rxEvents c d es r).chipRam = r.chipRam := by rw [rxEvents_frame]
@[simp] theorem rxEvents_chipCtrl : (rxEvents c d es r).chipCtrl = r.chipCtrl := by rw [rxEvents_frame]
@[simp] theorem rxEvents_addressing : (rxEvents c d es r).addressing = r.addressing := by rw [rxEvents_frame]
@[simp] theorem rxEvents_current : (rxEvents c d es r).current = r.current := by rw [rxEvents_frame]
@[simp] theorem rxEvents_place : (rxEvents c d es r).place = r.place := by rw [rxEvents_frame]
@[simp] theorem rxEvents_abortDraws : (rxEvents c d es r).abortDraws = r.abortDraws := by rw [rxEvents_frame]
@[simp] theorem rxEvents_unknowns : (rxEvents c d es r).unknowns = r.unknowns := by rw [rxEvents_frame]

end Frame

/-! ## What taking a transmission leaves alone -/

/-- A burst changes the chip's rows and nothing else. -/
theorem rxTakeBurst_frame (bytes : List Byte) : ∀ (p : Nat) (r : Receiver),
    rxTakeBurst p bytes r = { r with chipRam := (rxTakeBurst p bytes r).chipRam } := by
  induction bytes with
  | nil => intros; rfl
  | cons d rest ih =>
    intro p r
    rw [rxTakeBurst, ih]

/-- The receiver's registers after its state became unknown (R149, logs 9 and 22), and what else that changes. -/
theorem rxLost_eq (r : Receiver) : rxLost r = { r with
    chipRam := Config.unknownRam r.unknowns
    chipCtrl := Config.unknownCtrl r.unknowns
    unknowns := r.unknowns + 1
    current := []
    place := .first } := rfl

/-- No transmission changes RX_ADDRESSING. -/
@[simp] theorem rxApply_addressing (t : List Byte) (r : Receiver) : (rxApply t r).addressing = r.addressing := by
  unfold rxApply
  split
  · rfl
  · split
    · rfl
    · split <;> rfl
  · split
    · rw [rxTakeBurst_frame]
    · rfl

/-- Catching up does not either. -/
@[simp] theorem caughtUp_addressing (r : Receiver) : (caughtUp r).addressing = r.addressing := by
  have key : ∀ (q : List (List Byte)) (r : Receiver),
      (q.foldl (fun r t => rxApply t r) r).addressing = r.addressing := by
    intro q
    induction q with
    | nil => intros; rfl
    | cons t q ih => intro r; rw [List.foldl_cons, ih, rxApply_addressing]
  exact key r.queue r

/-! ## Closed and open decoders -/

/-- No event cuts a transmission off; only rxCut does. -/
theorem rxEvents_cut (es : List Event) : ∀ (c d : Level) (r : Receiver), r.cut = false →
    (rxEvents c d es r).cut = false := by
  induction es with
  | nil => intro c d r h; exact h
  | cons e es ih =>
    intro c d r h
    refine ih _ _ _ ?_
    unfold rxEvent beginTransmission endTransmission
    split
    · split <;> simp [h]
    · split
      · split <;> simp
      · split <;> simp [h]

/-- A closed decoder that keeps no samples keeps none when it is closed again. -/
theorem rxEvents_bits (es : List Event) : ∀ (c d : Level) (r : Receiver), (r.isOpen = false → r.bits = []) →
    (rxEvents c d es r).isOpen = false → (rxEvents c d es r).bits = [] := by
  induction es with
  | nil => intro c d r h; exact h
  | cons e es ih =>
    intro c d r h
    refine ih _ _ _ ?_
    unfold rxEvent beginTransmission endTransmission
    split
    · split <;> simp_all
    · split
      · split <;> simp
      · split <;> simp_all

end Sys2Proof.Machine
end

