-- ==== Sys2Proof/Laws/Memory.lean ====
section
/-! SUPPORT. The shadow as a memory: what a read gives after a write, that every write keeps the canonical form, and
that the form is canonical. -/

namespace Sys2Proof.Machine

/-! ## One byte -/

theorem wfFrom_weaken {low low' : Nat} (h : low' ≤ low) : ∀ {m : Memory}, wfFrom low m = true → wfFrom low' m = true
  | [], _ => rfl
  | (a, v) :: rest, hm => by
    simp only [wfFrom, Bool.and_eq_true, decide_eq_true_eq] at hm ⊢
    exact ⟨⟨⟨by omega, hm.1.1.2⟩, hm.1.2⟩, hm.2⟩

/-- Below its first row a well-formed memory lists nothing. -/
theorem readByte_of_lt {low a : Nat} (h : a < low) : ∀ {m : Memory}, wfFrom low m = true → readByte m a = unlistedByte
  | [], _ => rfl
  | (b, v) :: rest, hm => by
    simp only [wfFrom, Bool.and_eq_true, decide_eq_true_eq] at hm
    have hb : b ≠ a := by omega
    simp only [readByte, hb, if_false]
    exact readByte_of_lt (low := b + 1) (by omega) hm.2

/-- Past row 15 a well-formed memory lists nothing (R50). -/
theorem readByte_of_ge {a : Nat} (h : 16 ≤ a) : ∀ {low : Nat} {m : Memory}, wfFrom low m = true →
    readByte m a = unlistedByte
  | _, [], _ => rfl
  | _, (b, v) :: rest, hm => by
    simp only [wfFrom, Bool.and_eq_true, decide_eq_true_eq] at hm
    have hb : b ≠ a := by omega
    simp only [readByte, hb, if_false]
    exact readByte_of_ge h hm.2

/-- A write leaves every other row alone. -/
theorem readByte_writeByte_of_ne {a a' : Nat} (h : a' ≠ a) (v : Byte) : ∀ m : Memory,
    readByte (writeByte m a v) a' = readByte m a'
  | [] => by
    by_cases hv : v = unlistedByte <;> simp [writeByte, readByte, hv, Ne.symm h]
  | (b, w) :: rest => by
    have ih := readByte_writeByte_of_ne h v rest
    simp only [writeByte]
    split
    · split <;> simp [readByte, Ne.symm h]
    · split
      · rename_i hab
        subst hab
        split <;> simp [readByte, Ne.symm h]
      · simp [readByte, ih]

/-- A read after a write to the same row gives the byte written. -/
theorem readByte_writeByte_same {a : Nat} {v : Byte} : ∀ {low : Nat} {m : Memory}, wfFrom low m = true →
    readByte (writeByte m a v) a = v
  | _, [], _ => by
    by_cases hv : v = unlistedByte <;> simp [writeByte, readByte, hv]
  | low, (b, w) :: rest, hm => by
    have hr : wfFrom (b + 1) rest = true := by
      simp only [wfFrom, Bool.and_eq_true] at hm
      exact hm.2
    simp only [writeByte]
    split
    · rename_i hab
      split
      · rename_i hv
        have hb : b ≠ a := by omega
        have hz := readByte_of_lt (a := a) (low := b + 1) (by omega) hr
        simp [readByte, hb, hz, hv]
      · simp [readByte]
    · split
      · rename_i hab
        subst hab
        split
        · rename_i hv
          rw [readByte_of_lt (low := a + 1) (by omega) hr, hv]
        · simp [readByte]
      · rename_i h1 h2
        have hb : b ≠ a := fun e => h2 e.symm
        simp [readByte, hb, readByte_writeByte_same hr]

/-- Writing one of rows 0 to 15 keeps the canonical form. -/
theorem wfFrom_writeByte {a : Nat} {v : Byte} (ha : a < 16) : ∀ {low : Nat} {m : Memory}, low ≤ a →
    wfFrom low m = true → wfFrom low (writeByte m a v) = true
  | low, [], hl, _ => by
    by_cases hv : v = unlistedByte <;> simp [writeByte, wfFrom, hv, ha, hl]
  | low, (b, w) :: rest, hl, hm => by
    simp only [wfFrom, Bool.and_eq_true, decide_eq_true_eq] at hm
    obtain ⟨⟨⟨h1, h2⟩, h3⟩, h4⟩ := hm
    simp only [writeByte]
    split
    · rename_i hab
      split
      · simp [wfFrom, h1, h2, h3, h4]
      · rename_i hv
        simp [wfFrom, hl, ha, hv, h2, h3, h4, Nat.succ_le_of_lt hab]
    · split
      · rename_i hab
        subst hab
        split
        · exact wfFrom_weaken (by omega) h4
        · rename_i hv
          simp [wfFrom, hl, ha, hv, h4]
      · rename_i h5 h6
        simp only [wfFrom, Bool.and_eq_true, decide_eq_true_eq]
        exact ⟨⟨⟨h1, h2⟩, h3⟩, wfFrom_writeByte ha (by omega) h4⟩

/-! ## Slices -/

/-- Writing a slice of rows 0 to 15 keeps the canonical form. -/
theorem wf_writeSlice : ∀ {bytes : List Byte} {m : Memory} {pos : Nat}, pos + bytes.length ≤ 16 → m.wf = true →
    Memory.wf (writeSlice m pos bytes) = true
  | [], _, _, _, hm => hm
  | v :: rest, m, pos, h, hm => by
    simp only [List.length_cons] at h
    exact wf_writeSlice (pos := pos + 1) (by omega) (wfFrom_writeByte (by omega) (Nat.zero_le _) hm)

/-- Writing a slice leaves every row outside it alone. -/
theorem readByte_writeSlice_outside {a : Nat} : ∀ {bytes : List Byte} {m : Memory} {pos : Nat},
    a < pos ∨ pos + bytes.length ≤ a → readByte (writeSlice m pos bytes) a = readByte m a
  | [], _, _, _ => rfl
  | v :: rest, m, pos, h => by
    simp only [List.length_cons] at h
    rw [writeSlice, readByte_writeSlice_outside (by omega), readByte_writeByte_of_ne (by omega)]

/-- Row `pos + k` reads as byte `k` of the slice written. -/
theorem readByte_writeSlice {bytes : List Byte} : ∀ {m : Memory} {pos : Nat} {k : Nat}, pos + bytes.length ≤ 16 →
    m.wf = true → (hk : k < bytes.length) → readByte (writeSlice m pos bytes) (pos + k) = bytes[k] := by
  induction bytes with
  | nil => intro m pos k _ _ hk; simp at hk
  | cons v rest ih =>
    intro m pos k h hm hk
    simp only [List.length_cons] at h hk
    have hw : Memory.wf (writeByte m pos v) = true := wfFrom_writeByte (by omega) (Nat.zero_le _) hm
    cases k with
    | zero => simp [writeSlice, readByte_writeSlice_outside, readByte_writeByte_same hm]
    | succ k =>
      have := ih (m := writeByte m pos v) (pos := pos + 1) (k := k) (by omega) hw (by omega)
      simpa [writeSlice, Nat.add_assoc, Nat.add_comm 1 k] using this

/-- Reading a slice just written gives it back. -/
theorem readSlice_writeSlice {bytes : List Byte} {m : Memory} {pos : Nat} (h : pos + bytes.length ≤ 16)
    (hm : m.wf = true) : readSlice (writeSlice m pos bytes) pos bytes.length = bytes := by
  apply List.ext_getElem
  · simp [readSlice]
  · intro k h1 h2
    simp [readSlice, readByte_writeSlice h hm h2]

@[simp] theorem length_readSlice (m : Memory) (pos n : Nat) : (readSlice m pos n).length = n := by simp [readSlice]

/-! ## The form is canonical -/

/-- Well-formed memories that read alike are equal. -/
theorem wfFrom_ext {low : Nat} : ∀ {m m' : Memory}, wfFrom low m = true → wfFrom low m' = true →
    (∀ a, readByte m a = readByte m' a) → m = m'
  | [], [], _, _, _ => rfl
  | [], (b, v) :: rest, _, hm', h => by
    simp only [wfFrom, Bool.and_eq_true, bne_iff_ne] at hm'
    exact absurd (by simpa [readByte] using (h b).symm) hm'.1.2
  | (b, v) :: rest, [], hm, _, h => by
    simp only [wfFrom, Bool.and_eq_true, bne_iff_ne] at hm
    exact absurd (by simpa [readByte] using h b) hm.1.2
  | (a, v) :: rest, (b, w) :: rest', hm, hm', h => by
    simp only [wfFrom, Bool.and_eq_true, decide_eq_true_eq, bne_iff_ne] at hm hm'
    have hab : a = b := by
      rcases Nat.lt_trichotomy a b with hlt | heq | hgt
      · have := h a
        rw [readByte, if_pos rfl, readByte, if_neg (by omega),
          readByte_of_lt (low := b + 1) (by omega) hm'.2] at this
        exact absurd this hm.1.2
      · exact heq
      · have := h b
        rw [readByte, if_neg (by omega), readByte_of_lt (low := a + 1) (by omega) hm.2, readByte, if_pos rfl] at this
        exact absurd this.symm hm'.1.2
    subst hab
    have hvw : v = w := by simpa [readByte] using h a
    subst hvw
    have : rest = rest' := by
      refine wfFrom_ext hm.2 hm'.2 fun x => ?_
      have hx := h x
      by_cases hax : a = x
      · subst hax
        rw [readByte_of_lt (low := a + 1) (by omega) hm.2, readByte_of_lt (low := a + 1) (by omega) hm'.2]
      · simpa [readByte, hax] using hx
    rw [this]

/-! ## The operations of a request (R12, R51) -/

/-- MemRead answers only for a slice of rows that exist, and then with the rows' bytes. -/
theorem memRead_ok {pos n : Nat} {s : State} {bytes : List Byte} (h : memRead pos n s = .ok bytes) :
    pos ≤ 15 ∧ pos + n ≤ 16 ∧ bytes = readSlice s.shadow pos n := by
  unfold memRead sliceExists at h
  split at h
  · rename_i hc
    simp only [Bool.and_eq_true, decide_eq_true_eq] at hc
    simp only [Except.ok.injEq] at h
    exact ⟨hc.1, hc.2, h.symm⟩
  · cases h

/-- MemRead of rows that exist. -/
theorem memRead_exists {pos n : Nat} (s : State) (h : pos ≤ 15) (h' : pos + n ≤ 16) :
    memRead pos n s = .ok (readSlice s.shadow pos n) := by simp [memRead, sliceExists, h, h']

/-- MemWrite to rows that exist changes the shadow's slice and nothing else. -/
theorem memWrite_exists {pos : Nat} {bytes : List Byte} (s : State) (h : pos ≤ 15) (h' : pos + bytes.length ≤ 16) :
    memWrite pos bytes s = .ok { s with shadow := writeSlice s.shadow pos bytes } := by
  simp [memWrite, sliceExists, h, h']

/-- MemWrite, where it answers, changes the shadow's slice and nothing else. -/
theorem memWrite_ok {pos : Nat} {bytes : List Byte} {s t : State} (h : memWrite pos bytes s = .ok t) :
    pos ≤ 15 ∧ pos + bytes.length ≤ 16 ∧ t = { s with shadow := writeSlice s.shadow pos bytes } := by
  unfold memWrite sliceExists at h
  split at h
  · rename_i hc
    simp only [Bool.and_eq_true, decide_eq_true_eq] at hc
    simp only [Except.ok.injEq] at h
    exact ⟨hc.1, hc.2, h.symm⟩
  · cases h

/-- MemWrite keeps the shadow's canonical form. -/
theorem memWrite_wf {pos : Nat} {bytes : List Byte} {s t : State} (h : memWrite pos bytes s = .ok t)
    (hw : s.shadow.wf = true) : t.shadow.wf = true := by
  obtain ⟨_, h2, rfl⟩ := memWrite_ok h
  exact wf_writeSlice h2 hw

theorem reset_shadow_wf : State.reset.shadow.wf = true := rfl

end Sys2Proof.Machine
end

