-- ==== Sys2Proof/Laws/State.lean ====
section
/-! SUPPORT. What each update of the state does to each field: one lemma per field per update. -/

namespace Sys2Proof.Machine

variable (s : State)

/-! ## driveLine -/

@[simp] theorem driveLine_clk (e : Event) : (driveLine e s).clk = clkAfter s.clk e := rfl
@[simp] theorem driveLine_dio (e : Event) : (driveLine e s).dio = dioAfter s.dio e := rfl
@[simp] theorem driveLine_linesHeld (e : Event) : (driveLine e s).linesHeld = s.linesHeld := rfl
@[simp] theorem driveLine_shadow (e : Event) : (driveLine e s).shadow = s.shadow := rfl
@[simp] theorem driveLine_bright (e : Event) : (driveLine e s).bright = s.bright := rfl
@[simp] theorem driveLine_cfgMirror (e : Event) : (driveLine e s).cfgMirror = s.cfgMirror := rfl
@[simp] theorem driveLine_cfgReversed (e : Event) : (driveLine e s).cfgReversed = s.cfgReversed := rfl
@[simp] theorem driveLine_life (e : Event) : (driveLine e s).life = s.life := rfl
@[simp] theorem driveLine_phase (e : Event) : (driveLine e s).phase = s.phase := rfl
@[simp] theorem driveLine_bitidx (e : Event) : (driveLine e s).bitidx = s.bitidx := rfl
@[simp] theorem driveLine_shreg (e : Event) : (driveLine e s).shreg = s.shreg := rfl
@[simp] theorem driveLine_lock (e : Event) : (driveLine e s).lock = s.lock := rfl
@[simp] theorem driveLine_slot (e : Event) : (driveLine e s).slot = s.slot := rfl
@[simp] theorem driveLine_slotLock (e : Event) : (driveLine e s).slotLock = s.slotLock := rfl
@[simp] theorem driveLine_trace (e : Event) : (driveLine e s).trace = s.trace ++ [e] := rfl
@[simp] theorem driveLine_responses (e : Event) : (driveLine e s).responses = s.responses := rfl
@[simp] theorem driveLine_requests (e : Event) : (driveLine e s).requests = s.requests := rfl
@[simp] theorem driveLine_lineDraws (e : Event) : (driveLine e s).lineDraws = s.lineDraws := rfl
@[simp] theorem driveLine_rx (e : Event) : (driveLine e s).rx = rxEvent s.clk s.dio e s.rx := rfl

/-! ## abortTransmission -/

@[simp] theorem abortTransmission_clk : (abortTransmission s).clk = s.clk := rfl
@[simp] theorem abortTransmission_dio : (abortTransmission s).dio = s.dio := rfl
@[simp] theorem abortTransmission_linesHeld : (abortTransmission s).linesHeld = s.linesHeld := rfl
@[simp] theorem abortTransmission_shadow : (abortTransmission s).shadow = s.shadow := rfl
@[simp] theorem abortTransmission_bright : (abortTransmission s).bright = s.bright := rfl
@[simp] theorem abortTransmission_cfgMirror : (abortTransmission s).cfgMirror = s.cfgMirror := rfl
@[simp] theorem abortTransmission_cfgReversed : (abortTransmission s).cfgReversed = s.cfgReversed := rfl
@[simp] theorem abortTransmission_life : (abortTransmission s).life = s.life := rfl
@[simp] theorem abortTransmission_phase : (abortTransmission s).phase = .idle := rfl
@[simp] theorem abortTransmission_bitidx : (abortTransmission s).bitidx = 0 := rfl
@[simp] theorem abortTransmission_shreg : (abortTransmission s).shreg = s.shreg := rfl
@[simp] theorem abortTransmission_lock : (abortTransmission s).lock = s.lock := rfl
@[simp] theorem abortTransmission_slot : (abortTransmission s).slot = s.slot := rfl
@[simp] theorem abortTransmission_slotLock : (abortTransmission s).slotLock = s.slotLock := rfl
@[simp] theorem abortTransmission_trace : (abortTransmission s).trace = s.trace := rfl
@[simp] theorem abortTransmission_responses : (abortTransmission s).responses = s.responses := rfl
@[simp] theorem abortTransmission_requests : (abortTransmission s).requests = s.requests := rfl
@[simp] theorem abortTransmission_lineDraws : (abortTransmission s).lineDraws = s.lineDraws := rfl
@[simp] theorem abortTransmission_rx : (abortTransmission s).rx = rxCut s.rx := rfl

/-! ## takeLock -/

@[simp] theorem takeLock_clk : (takeLock s).clk = s.clk := rfl
@[simp] theorem takeLock_dio : (takeLock s).dio = s.dio := rfl
@[simp] theorem takeLock_linesHeld : (takeLock s).linesHeld = s.linesHeld := rfl
@[simp] theorem takeLock_shadow : (takeLock s).shadow = s.shadow := rfl
@[simp] theorem takeLock_bright : (takeLock s).bright = s.bright := rfl
@[simp] theorem takeLock_cfgMirror : (takeLock s).cfgMirror = s.cfgMirror := rfl
@[simp] theorem takeLock_cfgReversed : (takeLock s).cfgReversed = s.cfgReversed := rfl
@[simp] theorem takeLock_life : (takeLock s).life = s.life := rfl
@[simp] theorem takeLock_phase : (takeLock s).phase = s.phase := rfl
@[simp] theorem takeLock_bitidx : (takeLock s).bitidx = s.bitidx := rfl
@[simp] theorem takeLock_shreg : (takeLock s).shreg = s.shreg := rfl
@[simp] theorem takeLock_lock : (takeLock s).lock = .held := rfl
@[simp] theorem takeLock_slot : (takeLock s).slot = s.slot := rfl
@[simp] theorem takeLock_slotLock : (takeLock s).slotLock = s.slotLock := rfl
@[simp] theorem takeLock_trace : (takeLock s).trace = s.trace := rfl
@[simp] theorem takeLock_responses : (takeLock s).responses = s.responses := rfl
@[simp] theorem takeLock_requests : (takeLock s).requests = s.requests := rfl
@[simp] theorem takeLock_lineDraws : (takeLock s).lineDraws = s.lineDraws := rfl
@[simp] theorem takeLock_rx : (takeLock s).rx = s.rx := rfl

/-! ## freeLock -/

@[simp] theorem freeLock_clk : (freeLock s).clk = s.clk := rfl
@[simp] theorem freeLock_dio : (freeLock s).dio = s.dio := rfl
@[simp] theorem freeLock_linesHeld : (freeLock s).linesHeld = s.linesHeld := rfl
@[simp] theorem freeLock_shadow : (freeLock s).shadow = s.shadow := rfl
@[simp] theorem freeLock_bright : (freeLock s).bright = s.bright := rfl
@[simp] theorem freeLock_cfgMirror : (freeLock s).cfgMirror = s.cfgMirror := rfl
@[simp] theorem freeLock_cfgReversed : (freeLock s).cfgReversed = s.cfgReversed := rfl
@[simp] theorem freeLock_life : (freeLock s).life = s.life := rfl
@[simp] theorem freeLock_phase : (freeLock s).phase = s.phase := rfl
@[simp] theorem freeLock_bitidx : (freeLock s).bitidx = s.bitidx := rfl
@[simp] theorem freeLock_shreg : (freeLock s).shreg = s.shreg := rfl
@[simp] theorem freeLock_lock : (freeLock s).lock = .free := rfl
@[simp] theorem freeLock_slot : (freeLock s).slot = s.slot := rfl
@[simp] theorem freeLock_slotLock : (freeLock s).slotLock = s.slotLock := rfl
@[simp] theorem freeLock_trace : (freeLock s).trace = s.trace := rfl
@[simp] theorem freeLock_responses : (freeLock s).responses = s.responses := rfl
@[simp] theorem freeLock_requests : (freeLock s).requests = s.requests := rfl
@[simp] theorem freeLock_lineDraws : (freeLock s).lineDraws = s.lineDraws := rfl
@[simp] theorem freeLock_rx : (freeLock s).rx = s.rx := rfl

/-! ## takeSlotLock -/

@[simp] theorem takeSlotLock_clk : (takeSlotLock s).clk = s.clk := rfl
@[simp] theorem takeSlotLock_dio : (takeSlotLock s).dio = s.dio := rfl
@[simp] theorem takeSlotLock_linesHeld : (takeSlotLock s).linesHeld = s.linesHeld := rfl
@[simp] theorem takeSlotLock_shadow : (takeSlotLock s).shadow = s.shadow := rfl
@[simp] theorem takeSlotLock_bright : (takeSlotLock s).bright = s.bright := rfl
@[simp] theorem takeSlotLock_cfgMirror : (takeSlotLock s).cfgMirror = s.cfgMirror := rfl
@[simp] theorem takeSlotLock_cfgReversed : (takeSlotLock s).cfgReversed = s.cfgReversed := rfl
@[simp] theorem takeSlotLock_life : (takeSlotLock s).life = s.life := rfl
@[simp] theorem takeSlotLock_phase : (takeSlotLock s).phase = s.phase := rfl
@[simp] theorem takeSlotLock_bitidx : (takeSlotLock s).bitidx = s.bitidx := rfl
@[simp] theorem takeSlotLock_shreg : (takeSlotLock s).shreg = s.shreg := rfl
@[simp] theorem takeSlotLock_lock : (takeSlotLock s).lock = s.lock := rfl
@[simp] theorem takeSlotLock_slot : (takeSlotLock s).slot = s.slot := rfl
@[simp] theorem takeSlotLock_slotLock : (takeSlotLock s).slotLock = .held := rfl
@[simp] theorem takeSlotLock_trace : (takeSlotLock s).trace = s.trace := rfl
@[simp] theorem takeSlotLock_responses : (takeSlotLock s).responses = s.responses := rfl
@[simp] theorem takeSlotLock_requests : (takeSlotLock s).requests = s.requests := rfl
@[simp] theorem takeSlotLock_lineDraws : (takeSlotLock s).lineDraws = s.lineDraws := rfl
@[simp] theorem takeSlotLock_rx : (takeSlotLock s).rx = s.rx := rfl

/-! ## freeSlotLock -/

@[simp] theorem freeSlotLock_clk : (freeSlotLock s).clk = s.clk := rfl
@[simp] theorem freeSlotLock_dio : (freeSlotLock s).dio = s.dio := rfl
@[simp] theorem freeSlotLock_linesHeld : (freeSlotLock s).linesHeld = s.linesHeld := rfl
@[simp] theorem freeSlotLock_shadow : (freeSlotLock s).shadow = s.shadow := rfl
@[simp] theorem freeSlotLock_bright : (freeSlotLock s).bright = s.bright := rfl
@[simp] theorem freeSlotLock_cfgMirror : (freeSlotLock s).cfgMirror = s.cfgMirror := rfl
@[simp] theorem freeSlotLock_cfgReversed : (freeSlotLock s).cfgReversed = s.cfgReversed := rfl
@[simp] theorem freeSlotLock_life : (freeSlotLock s).life = s.life := rfl
@[simp] theorem freeSlotLock_phase : (freeSlotLock s).phase = s.phase := rfl
@[simp] theorem freeSlotLock_bitidx : (freeSlotLock s).bitidx = s.bitidx := rfl
@[simp] theorem freeSlotLock_shreg : (freeSlotLock s).shreg = s.shreg := rfl
@[simp] theorem freeSlotLock_lock : (freeSlotLock s).lock = s.lock := rfl
@[simp] theorem freeSlotLock_slot : (freeSlotLock s).slot = s.slot := rfl
@[simp] theorem freeSlotLock_slotLock : (freeSlotLock s).slotLock = .free := rfl
@[simp] theorem freeSlotLock_trace : (freeSlotLock s).trace = s.trace := rfl
@[simp] theorem freeSlotLock_responses : (freeSlotLock s).responses = s.responses := rfl
@[simp] theorem freeSlotLock_requests : (freeSlotLock s).requests = s.requests := rfl
@[simp] theorem freeSlotLock_lineDraws : (freeSlotLock s).lineDraws = s.lineDraws := rfl
@[simp] theorem freeSlotLock_rx : (freeSlotLock s).rx = s.rx := rfl

/-! ## respond -/

@[simp] theorem respond_clk (start : Nat) (r : Response) : (respond start r s).clk = s.clk := rfl
@[simp] theorem respond_dio (start : Nat) (r : Response) : (respond start r s).dio = s.dio := rfl
@[simp] theorem respond_linesHeld (start : Nat) (r : Response) : (respond start r s).linesHeld = s.linesHeld := rfl
@[simp] theorem respond_shadow (start : Nat) (r : Response) : (respond start r s).shadow = s.shadow := rfl
@[simp] theorem respond_bright (start : Nat) (r : Response) : (respond start r s).bright = s.bright := rfl
@[simp] theorem respond_cfgMirror (start : Nat) (r : Response) : (respond start r s).cfgMirror = s.cfgMirror := rfl
@[simp] theorem respond_cfgReversed (start : Nat) (r : Response) : (respond start r s).cfgReversed = s.cfgReversed := rfl
@[simp] theorem respond_life (start : Nat) (r : Response) : (respond start r s).life = s.life := rfl
@[simp] theorem respond_phase (start : Nat) (r : Response) : (respond start r s).phase = s.phase := rfl
@[simp] theorem respond_bitidx (start : Nat) (r : Response) : (respond start r s).bitidx = s.bitidx := rfl
@[simp] theorem respond_shreg (start : Nat) (r : Response) : (respond start r s).shreg = s.shreg := rfl
@[simp] theorem respond_lock (start : Nat) (r : Response) : (respond start r s).lock = s.lock := rfl
@[simp] theorem respond_slot (start : Nat) (r : Response) : (respond start r s).slot = s.slot := rfl
@[simp] theorem respond_slotLock (start : Nat) (r : Response) : (respond start r s).slotLock = s.slotLock := rfl
@[simp] theorem respond_trace (start : Nat) (r : Response) : (respond start r s).trace = s.trace := rfl
@[simp] theorem respond_responses (start : Nat) (r : Response) : (respond start r s).responses = s.responses ++ [⟨r, s.trace.length - start⟩] := rfl
@[simp] theorem respond_requests (start : Nat) (r : Response) : (respond start r s).requests = s.requests := rfl
@[simp] theorem respond_lineDraws (start : Nat) (r : Response) : (respond start r s).lineDraws = s.lineDraws := rfl
@[simp] theorem respond_rx (start : Nat) (r : Response) : (respond start r s).rx = s.rx := rfl

/-! ## releaseLines -/

@[simp] theorem releaseLines_clk : (releaseLines s).clk = Config.clkReleased s.trace.length := rfl
@[simp] theorem releaseLines_dio : (releaseLines s).dio = Config.dioReleased s.trace.length := rfl
@[simp] theorem releaseLines_linesHeld : (releaseLines s).linesHeld = false := rfl
@[simp] theorem releaseLines_shadow : (releaseLines s).shadow = s.shadow := rfl
@[simp] theorem releaseLines_bright : (releaseLines s).bright = s.bright := rfl
@[simp] theorem releaseLines_cfgMirror : (releaseLines s).cfgMirror = s.cfgMirror := rfl
@[simp] theorem releaseLines_cfgReversed : (releaseLines s).cfgReversed = s.cfgReversed := rfl
@[simp] theorem releaseLines_life : (releaseLines s).life = s.life := rfl
@[simp] theorem releaseLines_phase : (releaseLines s).phase = s.phase := rfl
@[simp] theorem releaseLines_bitidx : (releaseLines s).bitidx = s.bitidx := rfl
@[simp] theorem releaseLines_shreg : (releaseLines s).shreg = s.shreg := rfl
@[simp] theorem releaseLines_lock : (releaseLines s).lock = s.lock := rfl
@[simp] theorem releaseLines_slot : (releaseLines s).slot = s.slot := rfl
@[simp] theorem releaseLines_slotLock : (releaseLines s).slotLock = s.slotLock := rfl
@[simp] theorem releaseLines_trace : (releaseLines s).trace = s.trace := rfl
@[simp] theorem releaseLines_responses : (releaseLines s).responses = s.responses := rfl
@[simp] theorem releaseLines_requests : (releaseLines s).requests = s.requests := rfl
@[simp] theorem releaseLines_lineDraws : (releaseLines s).lineDraws = s.lineDraws := rfl
@[simp] theorem releaseLines_rx : (releaseLines s).rx = s.rx := rfl

/-! ## shutDown -/

@[simp] theorem shutDown_clk : (shutDown s).clk = Config.clkReleased s.trace.length := rfl
@[simp] theorem shutDown_dio : (shutDown s).dio = Config.dioReleased s.trace.length := rfl
@[simp] theorem shutDown_linesHeld : (shutDown s).linesHeld = false := rfl
@[simp] theorem shutDown_shadow : (shutDown s).shadow = s.shadow := rfl
@[simp] theorem shutDown_bright : (shutDown s).bright = s.bright := rfl
@[simp] theorem shutDown_cfgMirror : (shutDown s).cfgMirror = s.cfgMirror := rfl
@[simp] theorem shutDown_cfgReversed : (shutDown s).cfgReversed = s.cfgReversed := rfl
@[simp] theorem shutDown_life : (shutDown s).life = .released := rfl
@[simp] theorem shutDown_phase : (shutDown s).phase = s.phase := rfl
@[simp] theorem shutDown_bitidx : (shutDown s).bitidx = s.bitidx := rfl
@[simp] theorem shutDown_shreg : (shutDown s).shreg = s.shreg := rfl
@[simp] theorem shutDown_lock : (shutDown s).lock = s.lock := rfl
@[simp] theorem shutDown_slot : (shutDown s).slot = s.slot := rfl
@[simp] theorem shutDown_slotLock : (shutDown s).slotLock = s.slotLock := rfl
@[simp] theorem shutDown_trace : (shutDown s).trace = s.trace := rfl
@[simp] theorem shutDown_responses : (shutDown s).responses = s.responses := rfl
@[simp] theorem shutDown_requests : (shutDown s).requests = s.requests := rfl
@[simp] theorem shutDown_lineDraws : (shutDown s).lineDraws = s.lineDraws := rfl
@[simp] theorem shutDown_rx : (shutDown s).rx = s.rx := rfl

/-! ## configure -/

@[simp] theorem configure_clk (b : Int) (m v : Bool) : (configure b m v s).clk = s.clk := rfl
@[simp] theorem configure_dio (b : Int) (m v : Bool) : (configure b m v s).dio = s.dio := rfl
@[simp] theorem configure_linesHeld (b : Int) (m v : Bool) : (configure b m v s).linesHeld = true := rfl
@[simp] theorem configure_shadow (b : Int) (m v : Bool) : (configure b m v s).shadow = writeSlice s.shadow 0 (List.replicate 16 0x00) := rfl
@[simp] theorem configure_bright (b : Int) (m v : Bool) : (configure b m v s).bright = brightnessOf b := rfl
@[simp] theorem configure_cfgMirror (b : Int) (m v : Bool) : (configure b m v s).cfgMirror = m := rfl
@[simp] theorem configure_cfgReversed (b : Int) (m v : Bool) : (configure b m v s).cfgReversed = v := rfl
@[simp] theorem configure_life (b : Int) (m v : Bool) : (configure b m v s).life = s.life := rfl
@[simp] theorem configure_phase (b : Int) (m v : Bool) : (configure b m v s).phase = s.phase := rfl
@[simp] theorem configure_bitidx (b : Int) (m v : Bool) : (configure b m v s).bitidx = s.bitidx := rfl
@[simp] theorem configure_shreg (b : Int) (m v : Bool) : (configure b m v s).shreg = s.shreg := rfl
@[simp] theorem configure_lock (b : Int) (m v : Bool) : (configure b m v s).lock = s.lock := rfl
@[simp] theorem configure_slot (b : Int) (m v : Bool) : (configure b m v s).slot = s.slot := rfl
@[simp] theorem configure_slotLock (b : Int) (m v : Bool) : (configure b m v s).slotLock = s.slotLock := rfl
@[simp] theorem configure_trace (b : Int) (m v : Bool) : (configure b m v s).trace = s.trace := rfl
@[simp] theorem configure_responses (b : Int) (m v : Bool) : (configure b m v s).responses = s.responses := rfl
@[simp] theorem configure_requests (b : Int) (m v : Bool) : (configure b m v s).requests = s.requests := rfl
@[simp] theorem configure_lineDraws (b : Int) (m v : Bool) : (configure b m v s).lineDraws = s.lineDraws := rfl
@[simp] theorem configure_rx (b : Int) (m v : Bool) : (configure b m v s).rx = s.rx := rfl

/-! ## storeFrame -/

@[simp] theorem storeFrame_clk (f : Frame) : (storeFrame f s).clk = s.clk := rfl
@[simp] theorem storeFrame_dio (f : Frame) : (storeFrame f s).dio = s.dio := rfl
@[simp] theorem storeFrame_linesHeld (f : Frame) : (storeFrame f s).linesHeld = s.linesHeld := rfl
@[simp] theorem storeFrame_shadow (f : Frame) : (storeFrame f s).shadow = s.shadow := rfl
@[simp] theorem storeFrame_bright (f : Frame) : (storeFrame f s).bright = s.bright := rfl
@[simp] theorem storeFrame_cfgMirror (f : Frame) : (storeFrame f s).cfgMirror = s.cfgMirror := rfl
@[simp] theorem storeFrame_cfgReversed (f : Frame) : (storeFrame f s).cfgReversed = s.cfgReversed := rfl
@[simp] theorem storeFrame_life (f : Frame) : (storeFrame f s).life = s.life := rfl
@[simp] theorem storeFrame_phase (f : Frame) : (storeFrame f s).phase = s.phase := rfl
@[simp] theorem storeFrame_bitidx (f : Frame) : (storeFrame f s).bitidx = s.bitidx := rfl
@[simp] theorem storeFrame_shreg (f : Frame) : (storeFrame f s).shreg = s.shreg := rfl
@[simp] theorem storeFrame_lock (f : Frame) : (storeFrame f s).lock = s.lock := rfl
@[simp] theorem storeFrame_slot (f : Frame) : (storeFrame f s).slot = some f := rfl
@[simp] theorem storeFrame_slotLock (f : Frame) : (storeFrame f s).slotLock = .free := rfl
@[simp] theorem storeFrame_trace (f : Frame) : (storeFrame f s).trace = s.trace := rfl
@[simp] theorem storeFrame_responses (f : Frame) : (storeFrame f s).responses = s.responses := rfl
@[simp] theorem storeFrame_requests (f : Frame) : (storeFrame f s).requests = s.requests := rfl
@[simp] theorem storeFrame_lineDraws (f : Frame) : (storeFrame f s).lineDraws = s.lineDraws := rfl
@[simp] theorem storeFrame_rx (f : Frame) : (storeFrame f s).rx = s.rx := rfl

/-! ## takeFrame -/

@[simp] theorem takeFrame_clk : (takeFrame s).clk = s.clk := rfl
@[simp] theorem takeFrame_dio : (takeFrame s).dio = s.dio := rfl
@[simp] theorem takeFrame_linesHeld : (takeFrame s).linesHeld = s.linesHeld := rfl
@[simp] theorem takeFrame_shadow : (takeFrame s).shadow = s.shadow := rfl
@[simp] theorem takeFrame_bright : (takeFrame s).bright = s.bright := rfl
@[simp] theorem takeFrame_cfgMirror : (takeFrame s).cfgMirror = s.cfgMirror := rfl
@[simp] theorem takeFrame_cfgReversed : (takeFrame s).cfgReversed = s.cfgReversed := rfl
@[simp] theorem takeFrame_life : (takeFrame s).life = s.life := rfl
@[simp] theorem takeFrame_phase : (takeFrame s).phase = s.phase := rfl
@[simp] theorem takeFrame_bitidx : (takeFrame s).bitidx = s.bitidx := rfl
@[simp] theorem takeFrame_shreg : (takeFrame s).shreg = s.shreg := rfl
@[simp] theorem takeFrame_lock : (takeFrame s).lock = s.lock := rfl
@[simp] theorem takeFrame_slot : (takeFrame s).slot = none := rfl
@[simp] theorem takeFrame_slotLock : (takeFrame s).slotLock = .free := rfl
@[simp] theorem takeFrame_trace : (takeFrame s).trace = s.trace := rfl
@[simp] theorem takeFrame_responses : (takeFrame s).responses = s.responses := rfl
@[simp] theorem takeFrame_requests : (takeFrame s).requests = s.requests := rfl
@[simp] theorem takeFrame_lineDraws : (takeFrame s).lineDraws = s.lineDraws := rfl
@[simp] theorem takeFrame_rx : (takeFrame s).rx = s.rx := rfl

/-! ## loseReceiver -/

@[simp] theorem loseReceiver_clk : (loseReceiver s).clk = s.clk := rfl
@[simp] theorem loseReceiver_dio : (loseReceiver s).dio = s.dio := rfl
@[simp] theorem loseReceiver_linesHeld : (loseReceiver s).linesHeld = s.linesHeld := rfl
@[simp] theorem loseReceiver_shadow : (loseReceiver s).shadow = s.shadow := rfl
@[simp] theorem loseReceiver_bright : (loseReceiver s).bright = s.bright := rfl
@[simp] theorem loseReceiver_cfgMirror : (loseReceiver s).cfgMirror = s.cfgMirror := rfl
@[simp] theorem loseReceiver_cfgReversed : (loseReceiver s).cfgReversed = s.cfgReversed := rfl
@[simp] theorem loseReceiver_life : (loseReceiver s).life = s.life := rfl
@[simp] theorem loseReceiver_phase : (loseReceiver s).phase = s.phase := rfl
@[simp] theorem loseReceiver_bitidx : (loseReceiver s).bitidx = s.bitidx := rfl
@[simp] theorem loseReceiver_shreg : (loseReceiver s).shreg = s.shreg := rfl
@[simp] theorem loseReceiver_lock : (loseReceiver s).lock = s.lock := rfl
@[simp] theorem loseReceiver_slot : (loseReceiver s).slot = s.slot := rfl
@[simp] theorem loseReceiver_slotLock : (loseReceiver s).slotLock = s.slotLock := rfl
@[simp] theorem loseReceiver_trace : (loseReceiver s).trace = s.trace := rfl
@[simp] theorem loseReceiver_responses : (loseReceiver s).responses = s.responses := rfl
@[simp] theorem loseReceiver_requests : (loseReceiver s).requests = s.requests := rfl
@[simp] theorem loseReceiver_lineDraws : (loseReceiver s).lineDraws = s.lineDraws := rfl
@[simp] theorem loseReceiver_rx : (loseReceiver s).rx = rxLost s.rx := rfl

/-! ## replied -/

@[simp] theorem replied_clk (r : Response) (n : Nat) : (replied r n s).clk = s.clk := rfl
@[simp] theorem replied_dio (r : Response) (n : Nat) : (replied r n s).dio = s.dio := rfl
@[simp] theorem replied_linesHeld (r : Response) (n : Nat) : (replied r n s).linesHeld = s.linesHeld := rfl
@[simp] theorem replied_shadow (r : Response) (n : Nat) : (replied r n s).shadow = s.shadow := rfl
@[simp] theorem replied_bright (r : Response) (n : Nat) : (replied r n s).bright = s.bright := rfl
@[simp] theorem replied_cfgMirror (r : Response) (n : Nat) : (replied r n s).cfgMirror = s.cfgMirror := rfl
@[simp] theorem replied_cfgReversed (r : Response) (n : Nat) : (replied r n s).cfgReversed = s.cfgReversed := rfl
@[simp] theorem replied_life (r : Response) (n : Nat) : (replied r n s).life = s.life := rfl
@[simp] theorem replied_phase (r : Response) (n : Nat) : (replied r n s).phase = s.phase := rfl
@[simp] theorem replied_bitidx (r : Response) (n : Nat) : (replied r n s).bitidx = s.bitidx := rfl
@[simp] theorem replied_shreg (r : Response) (n : Nat) : (replied r n s).shreg = s.shreg := rfl
@[simp] theorem replied_lock (r : Response) (n : Nat) : (replied r n s).lock = s.lock := rfl
@[simp] theorem replied_slot (r : Response) (n : Nat) : (replied r n s).slot = s.slot := rfl
@[simp] theorem replied_slotLock (r : Response) (n : Nat) : (replied r n s).slotLock = s.slotLock := rfl
@[simp] theorem replied_trace (r : Response) (n : Nat) : (replied r n s).trace = s.trace := rfl
@[simp] theorem replied_responses (r : Response) (n : Nat) : (replied r n s).responses = s.responses ++ [⟨r, n⟩] := rfl
@[simp] theorem replied_requests (r : Response) (n : Nat) : (replied r n s).requests = s.requests := rfl
@[simp] theorem replied_lineDraws (r : Response) (n : Nat) : (replied r n s).lineDraws = s.lineDraws := rfl
@[simp] theorem replied_rx (r : Response) (n : Nat) : (replied r n s).rx = s.rx := rfl

/-! ## driven -/

@[simp] theorem driven_clk (es : List Event) : (driven es s).clk = es.foldl clkAfter s.clk := rfl
@[simp] theorem driven_dio (es : List Event) : (driven es s).dio = es.foldl dioAfter s.dio := rfl
@[simp] theorem driven_linesHeld (es : List Event) : (driven es s).linesHeld = s.linesHeld := rfl
@[simp] theorem driven_shadow (es : List Event) : (driven es s).shadow = s.shadow := rfl
@[simp] theorem driven_bright (es : List Event) : (driven es s).bright = s.bright := rfl
@[simp] theorem driven_cfgMirror (es : List Event) : (driven es s).cfgMirror = s.cfgMirror := rfl
@[simp] theorem driven_cfgReversed (es : List Event) : (driven es s).cfgReversed = s.cfgReversed := rfl
@[simp] theorem driven_life (es : List Event) : (driven es s).life = s.life := rfl
@[simp] theorem driven_phase (es : List Event) : (driven es s).phase = s.phase := rfl
@[simp] theorem driven_bitidx (es : List Event) : (driven es s).bitidx = s.bitidx := rfl
@[simp] theorem driven_shreg (es : List Event) : (driven es s).shreg = s.shreg := rfl
@[simp] theorem driven_lock (es : List Event) : (driven es s).lock = s.lock := rfl
@[simp] theorem driven_slot (es : List Event) : (driven es s).slot = s.slot := rfl
@[simp] theorem driven_slotLock (es : List Event) : (driven es s).slotLock = s.slotLock := rfl
@[simp] theorem driven_trace (es : List Event) : (driven es s).trace = s.trace ++ es := rfl
@[simp] theorem driven_responses (es : List Event) : (driven es s).responses = s.responses := rfl
@[simp] theorem driven_requests (es : List Event) : (driven es s).requests = s.requests := rfl
@[simp] theorem driven_lineDraws (es : List Event) : (driven es s).lineDraws = s.lineDraws := rfl
@[simp] theorem driven_rx (es : List Event) : (driven es s).rx = rxEvents s.clk s.dio es s.rx := rfl

/-! ## afterSending -/

@[simp] theorem afterSending_clk (ts : List (List Byte)) : (afterSending ts s).clk = (sendEvents ts).foldl clkAfter s.clk := rfl
@[simp] theorem afterSending_dio (ts : List (List Byte)) : (afterSending ts s).dio = (sendEvents ts).foldl dioAfter s.dio := rfl
@[simp] theorem afterSending_linesHeld (ts : List (List Byte)) : (afterSending ts s).linesHeld = s.linesHeld := rfl
@[simp] theorem afterSending_shadow (ts : List (List Byte)) : (afterSending ts s).shadow = s.shadow := rfl
@[simp] theorem afterSending_bright (ts : List (List Byte)) : (afterSending ts s).bright = s.bright := rfl
@[simp] theorem afterSending_cfgMirror (ts : List (List Byte)) : (afterSending ts s).cfgMirror = s.cfgMirror := rfl
@[simp] theorem afterSending_cfgReversed (ts : List (List Byte)) : (afterSending ts s).cfgReversed = s.cfgReversed := rfl
@[simp] theorem afterSending_life (ts : List (List Byte)) : (afterSending ts s).life = s.life := rfl
@[simp] theorem afterSending_phase (ts : List (List Byte)) : (afterSending ts s).phase = .idle := rfl
@[simp] theorem afterSending_bitidx (ts : List (List Byte)) : (afterSending ts s).bitidx = 0 := rfl
@[simp] theorem afterSending_shreg (ts : List (List Byte)) : (afterSending ts s).shreg = (ts.flatten.getLast?).getD s.shreg := rfl
@[simp] theorem afterSending_lock (ts : List (List Byte)) : (afterSending ts s).lock = s.lock := rfl
@[simp] theorem afterSending_slot (ts : List (List Byte)) : (afterSending ts s).slot = s.slot := rfl
@[simp] theorem afterSending_slotLock (ts : List (List Byte)) : (afterSending ts s).slotLock = s.slotLock := rfl
@[simp] theorem afterSending_trace (ts : List (List Byte)) : (afterSending ts s).trace = s.trace ++ sendEvents ts := rfl
@[simp] theorem afterSending_responses (ts : List (List Byte)) : (afterSending ts s).responses = s.responses := rfl
@[simp] theorem afterSending_requests (ts : List (List Byte)) : (afterSending ts s).requests = s.requests := rfl
@[simp] theorem afterSending_lineDraws (ts : List (List Byte)) : (afterSending ts s).lineDraws = s.lineDraws := rfl
@[simp] theorem afterSending_rx (ts : List (List Byte)) : (afterSending ts s).rx = rxEvents s.clk s.dio (sendEvents ts) s.rx := rfl

/-! ## afterCut -/

@[simp] theorem afterCut_clk (ts : List (List Byte)) (k : Nat) (x : Level) (b : Byte) : (afterCut ts k x b s).clk = (failingAt (sendEvents ts) k x).foldl clkAfter s.clk := rfl
@[simp] theorem afterCut_dio (ts : List (List Byte)) (k : Nat) (x : Level) (b : Byte) : (afterCut ts k x b s).dio = (failingAt (sendEvents ts) k x).foldl dioAfter s.dio := rfl
@[simp] theorem afterCut_linesHeld (ts : List (List Byte)) (k : Nat) (x : Level) (b : Byte) : (afterCut ts k x b s).linesHeld = s.linesHeld := rfl
@[simp] theorem afterCut_shadow (ts : List (List Byte)) (k : Nat) (x : Level) (b : Byte) : (afterCut ts k x b s).shadow = s.shadow := rfl
@[simp] theorem afterCut_bright (ts : List (List Byte)) (k : Nat) (x : Level) (b : Byte) : (afterCut ts k x b s).bright = s.bright := rfl
@[simp] theorem afterCut_cfgMirror (ts : List (List Byte)) (k : Nat) (x : Level) (b : Byte) : (afterCut ts k x b s).cfgMirror = s.cfgMirror := rfl
@[simp] theorem afterCut_cfgReversed (ts : List (List Byte)) (k : Nat) (x : Level) (b : Byte) : (afterCut ts k x b s).cfgReversed = s.cfgReversed := rfl
@[simp] theorem afterCut_life (ts : List (List Byte)) (k : Nat) (x : Level) (b : Byte) : (afterCut ts k x b s).life = s.life := rfl
@[simp] theorem afterCut_phase (ts : List (List Byte)) (k : Nat) (x : Level) (b : Byte) : (afterCut ts k x b s).phase = .idle := rfl
@[simp] theorem afterCut_bitidx (ts : List (List Byte)) (k : Nat) (x : Level) (b : Byte) : (afterCut ts k x b s).bitidx = 0 := rfl
@[simp] theorem afterCut_shreg (ts : List (List Byte)) (k : Nat) (x : Level) (b : Byte) : (afterCut ts k x b s).shreg = b := rfl
@[simp] theorem afterCut_lock (ts : List (List Byte)) (k : Nat) (x : Level) (b : Byte) : (afterCut ts k x b s).lock = s.lock := rfl
@[simp] theorem afterCut_slot (ts : List (List Byte)) (k : Nat) (x : Level) (b : Byte) : (afterCut ts k x b s).slot = s.slot := rfl
@[simp] theorem afterCut_slotLock (ts : List (List Byte)) (k : Nat) (x : Level) (b : Byte) : (afterCut ts k x b s).slotLock = s.slotLock := rfl
@[simp] theorem afterCut_trace (ts : List (List Byte)) (k : Nat) (x : Level) (b : Byte) : (afterCut ts k x b s).trace = s.trace ++ failingAt (sendEvents ts) k x := rfl
@[simp] theorem afterCut_responses (ts : List (List Byte)) (k : Nat) (x : Level) (b : Byte) : (afterCut ts k x b s).responses = s.responses := rfl
@[simp] theorem afterCut_requests (ts : List (List Byte)) (k : Nat) (x : Level) (b : Byte) : (afterCut ts k x b s).requests = s.requests := rfl
@[simp] theorem afterCut_lineDraws (ts : List (List Byte)) (k : Nat) (x : Level) (b : Byte) : (afterCut ts k x b s).lineDraws = s.lineDraws := rfl
@[simp] theorem afterCut_rx (ts : List (List Byte)) (k : Nat) (x : Level) (b : Byte) : (afterCut ts k x b s).rx = rxCut (rxEvents s.clk s.dio (failingAt (sendEvents ts) k x) s.rx) := rfl

end Sys2Proof.Machine
end

