-- ==== Sys2Proof/Laws/Wire.lean ====
section
/-! SUPPORT. What the wire procedures do: the spec lemmas of setLine, runOps and the transmissions. A later proof cites
run_send (every event succeeds) and run_send_cut (one fails), and unfolds none of them. -/

namespace Sys2Proof.Machine

/-! ## One event -/

/-- A set that succeeds drives the line and nothing else (R12). -/
theorem setLine_done {l : Line} {v : Level} {s : State} (h : drawAt s s.trace.length = .done) :
    setLine l v s = (driveLine (l, v) s, none) := by simp [setLine, h]

/-- A set that fails drives the line to the drawn level and ends the transmission (R205). -/
theorem setLine_fails {l : Line} {v x : Level} {s : State} (h : drawAt s s.trace.length = .fails x) :
    setLine l v s = (abortTransmission (driveLine (l, x) s), some ⟨l, s.trace.length⟩) := by simp [setLine, h]

/-- The draws are the environment's: they do not depend on what a request did. -/
@[simp] theorem drawAt_driveLine (e : Event) (s : State) (k : Nat) : drawAt (driveLine e s) k = drawAt s k := rfl

@[simp] theorem driven_nil (s : State) : driven [] s = s := by simp [driven, rxEvents]

theorem driven_cons (e : Event) (es : List Event) (s : State) : driven (e :: es) s = driven es (driveLine e s) := by
  simp [driven, driveLine, rxEvents]

theorem rxEvents_append (c d : Level) (es fs : List Event) (r : Receiver) :
    rxEvents c d (es ++ fs) r = rxEvents (es.foldl clkAfter c) (es.foldl dioAfter d) fs (rxEvents c d es r) := by
  induction es generalizing c d r with
  | nil => rfl
  | cons e es ih => simp [rxEvents, ih]

theorem eventsSucceed_zero (s : State) : eventsSucceed s 0 := fun j h => absurd h (Nat.not_lt_zero j)

theorem eventsSucceed_mono {s : State} {m n : Nat} (h : m ≤ n) (hs : eventsSucceed s n) : eventsSucceed s m :=
  fun j hj => hs j (Nat.lt_of_lt_of_le hj h)

/-- What the environment will do depends on the draws and on how many events there have been. -/
theorem eventsSucceed_congr {s t : State} {n : Nat} (hd : t.lineDraws = s.lineDraws) (ht : t.trace = s.trace) :
    eventsSucceed t n ↔ eventsSucceed s n := by simp [eventsSucceed, drawAt, hd, ht]

theorem eventFails_congr {s t : State} {k : Nat} {x : Level} (hd : t.lineDraws = s.lineDraws)
    (ht : t.trace = s.trace) : eventFails t k x ↔ eventFails s k x := by
  simp [eventFails, eventsSucceed, drawAt, hd, ht]

theorem eventsSucceed_succ {s : State} {n : Nat} (e : Event) :
    eventsSucceed s (n + 1) ↔ drawAt s s.trace.length = .done ∧ eventsSucceed (driveLine e s) n := by
  constructor
  · intro h
    refine ⟨by simpa using h 0 (by omega), fun j hj => ?_⟩
    have := h (j + 1) (by omega)
    simpa [Nat.add_assoc, Nat.add_comm 1 j] using this
  · rintro ⟨h0, h⟩ j hj
    cases j with
    | zero => simpa using h0
    | succ j =>
      have := h j (by omega)
      simpa [Nat.add_assoc, Nat.add_comm 1 j] using this

theorem eventFails_zero {s : State} {x : Level} : eventFails s 0 x ↔ drawAt s s.trace.length = .fails x := by
  simp [eventFails, eventsSucceed_zero]

theorem eventFails_succ {s : State} {k : Nat} {x : Level} (e : Event) :
    eventFails s (k + 1) x ↔ drawAt s s.trace.length = .done ∧ eventFails (driveLine e s) k x := by
  unfold eventFails
  rw [eventsSucceed_succ e, and_assoc]
  simp [Nat.add_assoc, Nat.add_comm 1 k]

/-! ## Steps in order -/

/-- The events of steps, the shift register holding `b` before them. -/
def opsEvents (b : Byte) : List WireOp → List Event
  | [] => []
  | .set l v :: rest => (l, v) :: opsEvents b rest
  | .shiftOut k :: rest => (.dio, b.getLsbD k) :: opsEvents b rest
  | .phase _ :: rest => opsEvents b rest
  | .bitidx _ :: rest => opsEvents b rest
  | .load b' :: rest => opsEvents b' rest

/-- The protocol's hidden registers after steps, from what they hold before. -/
def opsRegs (p : Phase) (n : Fin 9) (b : Byte) : List WireOp → Phase × Fin 9 × Byte
  | [] => (p, n, b)
  | .set _ _ :: rest => opsRegs p n b rest
  | .shiftOut _ :: rest => opsRegs p n b rest
  | .phase p' :: rest => opsRegs p' n b rest
  | .bitidx n' :: rest => opsRegs p n' b rest
  | .load b' :: rest => opsRegs p n b' rest

theorem opsEvents_append (b p n) (ops ops' : List WireOp) :
    opsEvents b (ops ++ ops') = opsEvents b ops ++ opsEvents (opsRegs p n b ops).2.2 ops' := by
  induction ops generalizing b p n with
  | nil => rfl
  | cons op ops ih =>
    cases op with
    | set l v => simp [opsEvents, opsRegs, ih b p n]
    | shiftOut k => simp [opsEvents, opsRegs, ih b p n]
    | phase p' => simp [opsEvents, opsRegs, ih b p' n]
    | bitidx n' => simp [opsEvents, opsRegs, ih b p n']
    | load b' => simp [opsEvents, opsRegs, ih b' p n]

theorem opsRegs_append (p n b) (ops ops' : List WireOp) :
    opsRegs p n b (ops ++ ops') =
      opsRegs (opsRegs p n b ops).1 (opsRegs p n b ops).2.1 (opsRegs p n b ops).2.2 ops' := by
  induction ops generalizing b p n with
  | nil => rfl
  | cons op ops ih => cases op <;> simp [opsRegs, ih]

/-- Steps whose every event succeeds: all the events happen, and the hidden registers end as the steps say. -/
theorem runOps_done (ops : List WireOp) (s : State) (h : eventsSucceed s (opsEvents s.shreg ops).length) :
    runOps ops s = ({ driven (opsEvents s.shreg ops) s with
      phase := (opsRegs s.phase s.bitidx s.shreg ops).1
      bitidx := (opsRegs s.phase s.bitidx s.shreg ops).2.1
      shreg := (opsRegs s.phase s.bitidx s.shreg ops).2.2 }, none) := by
  induction ops generalizing s with
  | nil => simp [runOps, opsEvents, opsRegs]
  | cons op ops ih =>
    cases op with
    | set l v =>
      simp only [opsEvents, List.length_cons] at h
      obtain ⟨h0, h1⟩ := (eventsSucceed_succ (l, v)).1 h
      simp [runOps, doOp, setLine_done h0, ih _ h1, opsEvents, opsRegs, driven_cons]
    | shiftOut k =>
      simp only [opsEvents, List.length_cons] at h
      obtain ⟨h0, h1⟩ := (eventsSucceed_succ (.dio, s.shreg.getLsbD k)).1 h
      simp [runOps, doOp, setLine_done h0, ih _ h1, opsEvents, opsRegs, driven_cons]
    | phase p => exact ih { s with phase := p } h
    | bitidx n => exact ih { s with bitidx := n } h
    | load b => exact ih { s with shreg := b } h

/-- Steps of which event `k` fails: the events before it happen, it happens at the drawn level, and nothing after it; no
STOP is sent, and the protocol is idle (R138, R205). -/
theorem runOps_fails (ops : List WireOp) (s : State) {k : Nat} {x : Level}
    (hk : k < (opsEvents s.shreg ops).length) (h : eventFails s k x) :
    ∃ b, runOps ops s = ({ driven (failingAt (opsEvents s.shreg ops) k x) s with
      phase := .idle
      bitidx := 0
      shreg := b
      rx := rxCut (rxEvents s.clk s.dio (failingAt (opsEvents s.shreg ops) k x) s.rx) },
      some ⟨lineOf (opsEvents s.shreg ops) k, s.trace.length + k⟩) := by
  induction ops generalizing s k with
  | nil => simp [opsEvents] at hk
  | cons op ops ih =>
    have event : ∀ (l : Line) (v : Level), doOp op s = setLine l v s →
        opsEvents s.shreg (op :: ops) = (l, v) :: opsEvents s.shreg ops →
        ∃ b, runOps (op :: ops) s = ({ driven (failingAt (opsEvents s.shreg (op :: ops)) k x) s with
          phase := .idle
          bitidx := 0
          shreg := b
          rx := rxCut (rxEvents s.clk s.dio (failingAt (opsEvents s.shreg (op :: ops)) k x) s.rx) },
          some ⟨lineOf (opsEvents s.shreg (op :: ops)) k, s.trace.length + k⟩) := by
      intro l v hop hev
      rw [hev] at hk ⊢
      cases k with
      | zero =>
        refine ⟨s.shreg, ?_⟩
        simp [runOps, hop, setLine_fails (eventFails_zero.1 h), failingAt, lineOf, driven, abortTransmission, driveLine,
          rxEvents]
      | succ k =>
        obtain ⟨h0, h1⟩ := (eventFails_succ (l, v)).1 h
        have hk' : k < (opsEvents (driveLine (l, v) s).shreg ops).length := by simpa using hk
        obtain ⟨b, hb⟩ := ih _ hk' h1
        refine ⟨b, ?_⟩
        have hl : lineOf ((l, v) :: opsEvents s.shreg ops) (k + 1) = lineOf (opsEvents s.shreg ops) k := by
          simp [lineOf]
        have hf : failingAt ((l, v) :: opsEvents s.shreg ops) (k + 1) x
            = (l, v) :: failingAt (opsEvents s.shreg ops) k x := by simp [failingAt]
        rw [hl, hf, driven_cons]
        simp [runOps, hop, setLine_done h0, hb, rxEvents, Nat.add_assoc, Nat.add_comm 1 k]
    cases op with
    | set l v => exact event l v rfl rfl
    | shiftOut i => exact event .dio (s.shreg.getLsbD i) rfl rfl
    | phase p => exact ih { s with phase := p } hk h
    | bitidx n => exact ih { s with bitidx := n } hk h
    | load b => exact ih { s with shreg := b } hk h

/-! ## Transmissions -/

theorem opsEvents_shiftByte (b b' : Byte) : opsEvents b (shiftByteOps b') = shiftEvents b' := by
  simp [shiftByteOps, shiftBitOps, opsEvents, shiftEvents, bitEvents, List.range, List.range.loop]

theorem opsRegs_shiftByte (p n) (b b' : Byte) : opsRegs p n b (shiftByteOps b') = (p, 8, b') := by
  simp [shiftByteOps, shiftBitOps, opsRegs, List.range, List.range.loop]

/-- The steps that shift the bytes of a transmission. -/
def bytesOps (bytes : List Byte) : List WireOp := bytes.flatMap fun b => .bitidx 0 :: shiftByteOps b

theorem opsEvents_bytes (b : Byte) (bytes : List Byte) : opsEvents b (bytesOps bytes) = bytes.flatMap shiftEvents := by
  induction bytes generalizing b with
  | nil => rfl
  | cons b' bytes ih =>
    simp only [bytesOps, List.flatMap_cons, List.cons_append, opsEvents] at ih ⊢
    rw [opsEvents_append b .idle 0, opsEvents_shiftByte, ih]

theorem opsRegs_bytes (p n) (b : Byte) (bytes : List Byte) :
    (opsRegs p n b (bytesOps bytes)).2.2 = (bytes.getLast?).getD b := by
  induction bytes generalizing p n b with
  | nil => rfl
  | cons b' bytes ih =>
    simp only [bytesOps, List.flatMap_cons, List.cons_append, opsRegs] at ih ⊢
    rw [opsRegs_append, opsRegs_shiftByte, ih]
    cases bytes <;> simp [List.getLast?_cons]

theorem txOps_eq (bytes : List Byte) : txOps bytes = startOps ++ bytesOps bytes ++ stopOps := rfl

/-- A transmission's events are START's, each byte's, and STOP's (R141). -/
theorem opsEvents_tx (b : Byte) (bytes : List Byte) : opsEvents b (txOps bytes) = txEvents bytes := by
  rw [txOps_eq, opsEvents_append b .idle 0, opsEvents_append b .idle 0, opsEvents_bytes]
  rfl

/-- A transmission leaves the protocol idle, with its last byte in the shift register. -/
theorem opsRegs_tx (p n) (b : Byte) (bytes : List Byte) :
    opsRegs p n b (txOps bytes) = (.idle, 0, (bytes.getLast?).getD b) := by
  rw [txOps_eq, opsRegs_append, opsRegs_append]
  have h : ∀ p n b, opsRegs p n b stopOps = (.idle, 0, b) := fun _ _ _ => rfl
  rw [h, opsRegs_bytes]
  rfl

theorem opsEvents_send (b : Byte) (ts : List (List Byte)) : opsEvents b (ts.flatMap txOps) = sendEvents ts := by
  induction ts generalizing b with
  | nil => rfl
  | cons t ts ih =>
    simp only [List.flatMap_cons, sendEvents] at ih ⊢
    rw [opsEvents_append b .idle 0, opsEvents_tx, ih]

theorem opsRegs_send (b : Byte) (ts : List (List Byte)) :
    opsRegs .idle 0 b (ts.flatMap txOps) = (.idle, 0, (ts.flatten.getLast?).getD b) := by
  induction ts generalizing b with
  | nil => rfl
  | cons t ts ih =>
    rw [List.flatMap_cons, opsRegs_append, opsRegs_tx, ih, List.flatten_cons, List.getLast?_append]
    cases ts.flatten.getLast? <;> simp

theorem opsRegs_send_ne {ts : List (List Byte)} (h : ts ≠ []) (p n) (b : Byte) :
    opsRegs p n b (ts.flatMap txOps) = (.idle, 0, (ts.flatten.getLast?).getD b) := by
  cases ts with
  | nil => exact absurd rfl h
  | cons t ts =>
    rw [List.flatMap_cons, opsRegs_append, opsRegs_tx, opsRegs_send, List.flatten_cons, List.getLast?_append]
    cases ts.flatten.getLast? <;> simp

/-- Transmissions whose every event succeeds are sent, each to its STOP. -/
theorem run_send {ts : List (List Byte)} (hne : ts ≠ []) (s : State) (h : eventsSucceed s (sendEvents ts).length) :
    runOps (ts.flatMap txOps) s = (afterSending ts s, none) := by
  rw [runOps_done _ _ (by rw [opsEvents_send]; exact h), opsEvents_send, opsRegs_send_ne hne]
  rfl

/-- Transmissions of which event `k` fails are cut off there, and the failure is reported (R205). -/
theorem run_send_cut (ts : List (List Byte)) (s : State) {k : Nat} {x : Level} (hk : k < (sendEvents ts).length)
    (h : eventFails s k x) :
    ∃ b, runOps (ts.flatMap txOps) s
      = (afterCut ts k x b s, some ⟨lineOf (sendEvents ts) k, s.trace.length + k⟩) := by
  obtain ⟨b, hb⟩ := runOps_fails (ts.flatMap txOps) s (k := k) (x := x) (by rw [opsEvents_send]; exact hk) h
  rw [opsEvents_send] at hb
  exact ⟨b, hb⟩

/-- For some number of events either all succeed or one of them is the first to fail. -/
theorem succeed_or_fail (s : State) (n : Nat) : eventsSucceed s n ∨ ∃ k x, k < n ∧ eventFails s k x := by
  induction n with
  | zero => exact .inl (eventsSucceed_zero s)
  | succ n ih =>
    rcases ih with h | ⟨k, x, hk, h⟩
    · cases hd : drawAt s (s.trace.length + n) with
      | done =>
        refine .inl fun j hj => ?_
        rcases Nat.lt_succ_iff_lt_or_eq.1 hj with hj | rfl
        · exact h j hj
        · exact hd
      | fails x => exact .inr ⟨n, x, Nat.lt_succ_self n, h, hd⟩
    · exact .inr ⟨k, x, Nat.lt_succ_of_lt hk, h⟩

/-- All that sending transmissions can do: they are sent, or cut off at one of their events. -/
theorem run_send_cases {ts : List (List Byte)} (hne : ts ≠ []) (s : State) :
    (eventsSucceed s (sendEvents ts).length ∧ runOps (ts.flatMap txOps) s = (afterSending ts s, none)) ∨
    ∃ k x b, k < (sendEvents ts).length ∧ eventFails s k x ∧
      runOps (ts.flatMap txOps) s = (afterCut ts k x b s, some ⟨lineOf (sendEvents ts) k, s.trace.length + k⟩) := by
  rcases succeed_or_fail s (sendEvents ts).length with h | ⟨k, x, hk, h⟩
  · exact .inl ⟨h, run_send hne s h⟩
  · obtain ⟨b, hb⟩ := run_send_cut ts s hk h
    exact .inr ⟨k, x, b, hk, h, hb⟩

/-! ## What the requests send -/

theorem sendCmdOps_eq (c : Byte) : sendCmdOps c = [[c]].flatMap txOps := by simp [sendCmdOps]

theorem initOps_eq (s : State) : initOps s = [[0x40], [controlByte s.bright]].flatMap txOps := by
  simp [initOps, sendCmdOps, Config.cmdData]

theorem writeOps_eq (pos : Nat) (bytes : List Byte) (s : State) :
    writeOps pos bytes s = (writeSends pos bytes s.bright).flatMap txOps := by
  simp [writeOps, writeSends, sendCmdOps, burstOps, Config.cmdFixedAddr, List.append_assoc]

/-- A shifted byte is 24 events (R139). -/
@[simp] theorem length_shiftEvents (b : Byte) : (shiftEvents b).length = 24 := rfl

end Sys2Proof.Machine
end

