-- ==== Sys2Proof/Laws/Requests.lean ====
section
/-! SUPPORT. What a request of the engine can do: the spec lemmas of the shared operations engineRequest, whenReady,
finishSend and writeBody. A later proof cites them and unfolds none. -/

namespace Sys2Proof.Machine

/-! ## The frame of a request: lock and response -/

/-- A request that finds the engine lock free runs its body under the lock, releases it, and responds. -/
theorem engineRequest_run {body : State → Body} {s t : State} {r : Response} (hl : s.lock = .free)
    (h : body (takeLock s) = .ok (t, r)) :
    engineRequest body s = .next (respond s.trace.length r (freeLock t)) := by
  simp [engineRequest, engineWaits, hl, h]

/-- A request that finds the engine lock held waits, and nothing changes. -/
theorem engineRequest_waits {body : State → Body} {s : State} (h : engineWaits s = true) :
    engineRequest body s = .next s := by simp [engineRequest, h]

/-- All that a request of the engine can do when it answers a next state. -/
theorem engineRequest_next {body : State → Body} {s t : State} (h : engineRequest body s = .next t) :
    (engineWaits s = true ∧ t = s) ∨
      ∃ u r, engineWaits s = false ∧ body (takeLock s) = .ok (u, r) ∧ t = respond s.trace.length r (freeLock u) := by
  unfold engineRequest at h
  split at h
  · rename_i hw
    cases h
    exact .inl ⟨hw, rfl⟩
  · rename_i hw
    split at h
    · rename_i p hb
      cases h
      exact .inr ⟨p.1, p.2, by simpa using hw, hb, rfl⟩
    · cases h

theorem engineWaits_eq_false {s : State} : engineWaits s = false ↔ s.lock = .free := by
  cases h : s.lock <;> simp [engineWaits, h]

/-- In READY the body runs. -/
theorem whenReady_ready {body : State → Body} {s : State} (h : s.life = .ready) : whenReady body s = body s := by
  simp [whenReady, h]

/-- Outside READY the request is refused before its body (R209). -/
theorem whenReady_refused {body : State → Body} {s : State} (h : s.life ≠ .ready) :
    whenReady body s = .ok (s, .wrongLifecycle s.life) := by simp [whenReady, h, raiseError]

/-- A body that ends with the state it began with: the request responds, and nothing else changes. -/
theorem engineRequest_replied {body : State → Body} {s : State} {r : Response} (hl : s.lock = .free)
    (h : body (takeLock s) = .ok (takeLock s, r)) : engineRequest body s = .next (replied r 0 s) := by
  rw [engineRequest_run hl h]
  simp [respond, freeLock, takeLock, replied, ← hl]

/-! ## A body that ends with transmissions -/

/-- What sending transmissions from `s` can come to, for a request whose events began when the trace had `start`
events: all sent and OK, or cut off at event `k` and LineIOError (R205). -/
def SendResult (start : Nat) (ts : List (List Byte)) (s t : State) (r : Response) : Prop :=
  (eventsSucceed s (sendEvents ts).length ∧ t = afterSending ts s ∧ r = .ok []) ∨
  ∃ k x b, k < (sendEvents ts).length ∧ eventFails s k x ∧ t = afterCut ts k x b s ∧
    r = .lineIOError (lineOf (sendEvents ts) k) (s.trace.length + k - start)

/-- Ending with transmissions never faults, and comes to a SendResult. -/
theorem finishSend_run {ts : List (List Byte)} (hne : ts ≠ []) (start : Nat) (s : State) :
    ∃ t r, finishSend start (runOps (ts.flatMap txOps) s) = .ok (t, r) ∧ SendResult start ts s t r := by
  rcases run_send_cases hne s with ⟨h, hr⟩ | ⟨k, x, b, hk, h, hr⟩
  · exact ⟨_, _, by rw [hr]; rfl, .inl ⟨h, rfl, rfl⟩⟩
  · exact ⟨_, _, by rw [hr]; rfl, .inr ⟨k, x, b, hk, h, rfl, rfl⟩⟩

/-- A failed event is not among those that succeed. -/
theorem not_eventFails {s : State} {n k : Nat} {x : Level} (hs : eventsSucceed s n) (hk : k < n)
    (hf : eventFails s k x) : False := by
  have := hs k hk
  rw [hf.2] at this
  cases this

/-- One event is the first to fail. -/
theorem eventFails_unique {s : State} {k k' : Nat} {x x' : Level} (h : eventFails s k x) (h' : eventFails s k' x') :
    k = k' ∧ x = x' := by
  rcases Nat.lt_trichotomy k k' with hlt | rfl | hgt
  · exact (not_eventFails h'.1 hlt h).elim
  · exact ⟨rfl, by have := h.2.symm.trans h'.2; cases this; rfl⟩
  · exact (not_eventFails h.1 hgt h').elim

theorem SendResult.of_succeed {start : Nat} {ts : List (List Byte)} {s t : State} {r : Response}
    (h : SendResult start ts s t r) (hs : eventsSucceed s (sendEvents ts).length) :
    t = afterSending ts s ∧ r = .ok [] := by
  rcases h with ⟨_, h⟩ | ⟨k, x, b, hk, hf, _⟩
  · exact h
  · exact (not_eventFails hs hk hf).elim

theorem SendResult.of_fails {start : Nat} {ts : List (List Byte)} {s t : State} {r : Response} {k : Nat} {x : Level}
    (h : SendResult start ts s t r) (hk : k < (sendEvents ts).length) (hf : eventFails s k x) :
    ∃ b, t = afterCut ts k x b s ∧ r = .lineIOError (lineOf (sendEvents ts) k) (s.trace.length + k - start) := by
  rcases h with ⟨hs, _⟩ | ⟨k', x', b, hk', hf', ht, hr⟩
  · exact (not_eventFails hs hk hf).elim
  · obtain ⟨rfl, rfl⟩ := eventFails_unique hf hf'
    exact ⟨b, ht, hr⟩

/-! ## WRITE's body -/

theorem writeSends_ne (pos : Nat) (bytes : List Byte) (b : Brightness) : writeSends pos bytes b ≠ [] := by
  simp [writeSends]

/-- WRITE's body on a slice equal to the shadow does nothing (R167). -/
theorem writeBody_same {pos : Nat} {bytes : List Byte} {s : State} (h : pos ≤ 15) (h' : pos + bytes.length ≤ 16)
    (he : readSlice s.shadow pos bytes.length = bytes) : writeBody pos bytes s = .ok (s, .ok []) := by
  simp [writeBody, memRead_exists s h h', he, succeed]

/-- WRITE's body on a slice that differs updates the shadow and then sends (R167). -/
theorem writeBody_differs {pos : Nat} {bytes : List Byte} {s : State} (h : pos ≤ 15) (h' : pos + bytes.length ≤ 16)
    (hd : readSlice s.shadow pos bytes.length ≠ bytes) :
    ∃ t r, writeBody pos bytes s = .ok (t, r) ∧
      SendResult s.trace.length (writeSends pos bytes s.bright)
        { s with shadow := writeSlice s.shadow pos bytes } t r := by
  obtain ⟨t, r, hr, hres⟩ := finishSend_run (writeSends_ne pos bytes s.bright) s.trace.length
    { s with shadow := writeSlice s.shadow pos bytes }
  refine ⟨t, r, ?_, hres⟩
  rw [← hr]
  simp [writeBody, memRead_exists s h h', memWrite_exists s h h', hd, writeOps_eq]

/-- All that WRITE's body can do on rows that exist. -/
theorem writeBody_cases (pos : Nat) (bytes : List Byte) (s : State) (h : pos ≤ 15) (h' : pos + bytes.length ≤ 16) :
    (readSlice s.shadow pos bytes.length = bytes ∧ writeBody pos bytes s = .ok (s, .ok [])) ∨
    (readSlice s.shadow pos bytes.length ≠ bytes ∧ ∃ t r, writeBody pos bytes s = .ok (t, r) ∧
      SendResult s.trace.length (writeSends pos bytes s.bright)
        { s with shadow := writeSlice s.shadow pos bytes } t r) := by
  by_cases hd : readSlice s.shadow pos bytes.length = bytes
  · exact .inl ⟨hd, writeBody_same h h' hd⟩
  · exact .inr ⟨hd, writeBody_differs h h' hd⟩

/-- WRITE's validation is of a position and a length the shadow has (R51, R166). -/
theorem slice_of_legal {pos : Int} {n : Nat} (h : positionLegal pos = true) (h' : sliceFits pos n = true) :
    pos.toNat ≤ 15 ∧ pos.toNat + n ≤ 16 := by
  simp only [positionLegal, sliceFits, Bool.and_eq_true, decide_eq_true_eq] at h h'
  omega

/-! ## Locks and responses around a state -/

/-- The lock a request took is released at its end; if it was free before, nothing of it is left. -/
theorem respond_freeLock {s : State} (hl : s.lock = .free) (start : Nat) (r : Response) :
    respond start r (freeLock s) = replied r (s.trace.length - start) s := by
  simp [respond, freeLock, replied, ← hl]

end Sys2Proof.Machine
end

