-- ==== Sys2Proof/Laws/Transform.lean ====
section
/-! SUPPORT. The small lemmas of the operand forms and of the transform: bytes made of bits, frames, the search for an
invalid level, and how many rows there are. -/

namespace Sys2Proof.Machine

/-- A byte made of bits has those bits. -/
theorem getLsbD_byteOfBits (f : Nat → Bool) {k : Nat} (h : k < 8) : (byteOfBits f).getLsbD k = f k := by
  have : k = 0 ∨ k = 1 ∨ k = 2 ∨ k = 3 ∨ k = 4 ∨ k = 5 ∨ k = 6 ∨ k = 7 := by omega
  simp only [byteOfBits, BitVec.getLsbD_ofBoolListLE]
  rcases this with rfl | rfl | rfl | rfl | rfl | rfl | rfl | rfl <;> rfl

/-- A list that is a frame's is read as that frame. -/
theorem frameOf_toList (frame : Frame) : frameOf frame.toList = some frame := by
  unfold frameOf
  rw [dif_pos (Vector.length_toList)]
  exact congrArg some (Vector.toArray_inj.1 Array.toArray_toList)

/-- A list of another length is no frame (R80). -/
theorem frameOf_of_ne {levels : List BarLevel} (h : levels.length ≠ 16) : frameOf levels = none := by
  simp [frameOf, h]

theorem firstInvalid_cons (k : Nat) (v : BarLevel) (rest : List BarLevel) :
    firstInvalid k (v :: rest) = if 8 < v.toNat then some (k, v) else firstInvalid (k + 1) rest := rfl

/-- No level is invalid exactly when each is at most 8 (R101). -/
theorem firstInvalid_none : ∀ {levels : List BarLevel} {k : Nat},
    firstInvalid k levels = none ↔ ∀ v ∈ levels, v.toNat ≤ 8
  | [], k => by simp [firstInvalid]
  | v :: rest, k => by
    rw [firstInvalid_cons]
    by_cases h : 8 < v.toNat
    · simp only [h, if_true, List.mem_cons]
      constructor
      · intro hc
        cases hc
      · intro hc
        have := hc v (.inl rfl)
        omega
    · simp only [h, if_false, firstInvalid_none (levels := rest), List.mem_cons, forall_eq_or_imp]
      exact ⟨fun hc => ⟨by omega, hc⟩, fun hc => hc.2⟩

/-- The level reported is the one at the lowest invalid index (R101). -/
theorem firstInvalid_some : ∀ {levels : List BarLevel} {k j : Nat} {v : BarLevel}, levels[j]? = some v → 8 < v.toNat →
    (∀ i w, i < j → levels[i]? = some w → w.toNat ≤ 8) → firstInvalid k levels = some (k + j, v)
  | [], k, j, v, h, _, _ => by simp at h
  | x :: rest, k, 0, v, h, hv, _ => by
    simp only [List.getElem?_cons_zero, Option.some.injEq] at h
    subst h
    simp [firstInvalid_cons, hv]
  | x :: rest, k, j + 1, v, h, hv, hl => by
    have h0 := hl 0 x (by omega) rfl
    rw [firstInvalid_cons, if_neg (by omega), firstInvalid_some (levels := rest) (j := j) (by simpa using h) hv
      (fun i w hi hw => hl (i + 1) w (by omega) (by simpa using hw))]
    congr 2
    omega

/-- The rows of a transform are sixteen (R106). -/
theorem length_transformRows (frame : List BarLevel) (mirror reversed : Bool) :
    (transformRows frame mirror reversed).length = 16 := by simp [transformRows]

/-- A frame of sixteen levels is transformed, or its lowest invalid level reported (R107). -/
theorem transformFrame_frame (frame : Frame) (mirror reversed : Bool) :
    transformFrame frame.toList mirror reversed =
      match firstInvalid 0 frame.toList with
      | some (k, w) => .error (.invalidLevel k w)
      | none => .ok (transformRows frame.toList mirror reversed) := by
  cases h : firstInvalid 0 frame.toList <;> simp [transformFrame, h, Config.nLevels]

end Sys2Proof.Machine
end

