-- ==== Sys2Proof/Laws/Cases.lean ====
section
/-! SUPPORT. All that a request can do, said once: it waits, it ends without an event (Silent), or it sends
transmissions (Sends), all of them or up to a failed event (SendResult). A later proof about every request takes
request_cases apart and unfolds no meaning. -/

namespace Sys2Proof.Machine

/-- The request ends without an event: its response, and the state before the response is recorded. -/
inductive Silent : Request → State → Response → State → Prop
  | initLate {s b m v} : s.life ≠ .off → Silent (.init b m v) s (.wrongLifecycle s.life) s
  | initRange {s b m v} : s.life = .off → brightnessLegal b = false → Silent (.init b m v) s (.invalidBrightness b) s
  | setLate {s l} : s.life ≠ .ready → Silent (.setBrightness l) s (.wrongLifecycle s.life) s
  | setRange {s l} : s.life = .ready → brightnessLegal l = false → Silent (.setBrightness l) s (.invalidBrightness l) s
  | setSame {s l} : s.life = .ready → brightnessLegal l = true → brightnessOf l = s.bright →
      Silent (.setBrightness l) s (.ok []) s
  | writeLate {s pos bytes} : s.life ≠ .ready → Silent (.write pos bytes) s (.wrongLifecycle s.life) s
  | writePosition {s pos bytes} : s.life = .ready → positionLegal pos = false →
      Silent (.write pos bytes) s (.invalidPosition pos) s
  | writeLength {s pos bytes} : s.life = .ready → positionLegal pos = true → sliceFits pos bytes.length = false →
      Silent (.write pos bytes) s (.bufferOverflow pos bytes.length) s
  | writeSame {s pos bytes} : s.life = .ready → positionLegal pos = true → sliceFits pos bytes.length = true →
      readSlice s.shadow pos.toNat bytes.length = bytes → Silent (.write pos bytes) s (.ok []) s
  | clearLate {s} : s.life ≠ .ready → Silent .clear s (.wrongLifecycle s.life) s
  | clearZero {s} : s.life = .ready → readSlice s.shadow 0 16 = List.replicate 16 0x00 → Silent .clear s (.ok []) s
  | teardownLate {s} : s.life ≠ .ready → Silent .teardown s (.ok []) s
  | teardownZero {s} : s.life = .ready → readSlice s.shadow 0 16 = List.replicate 16 0x00 →
      Silent .teardown s (.ok []) (shutDown s)
  | transform {s f m v} : Silent (.transform f m v) s (transformResponse f m v) s
  | renderLate {s} : s.life ≠ .ready → Silent .render s (.wrongLifecycle s.life) s
  | renderEmpty {s} : s.life = .ready → s.slot = none → Silent .render s (.ok []) s
  | renderLevel {s frame k v} : s.life = .ready → s.slot = some frame → firstInvalid 0 frame.toList = some (k, v) →
      Silent .render s (.invalidLevel k v) { s with slot := none }
  | renderSame {s frame} : s.life = .ready → s.slot = some frame → firstInvalid 0 frame.toList = none →
      readSlice s.shadow 0 16 = transformRows frame.toList s.cfgMirror s.cfgReversed →
      Silent .render s (.ok []) { s with slot := none }
  | publishLength {s levels} : frameOf levels = none →
      Silent (.publish levels) s (.invalidRequest 7 [.frame levels.length]) s
  | publish {s levels frame} : frameOf levels = some frame →
      Silent (.publish levels) s (.ok []) { s with slot := some frame }

/-- The request sends these transmissions, from this state. -/
inductive Sends : Request → State → List (List Byte) → State → Prop
  | init {s b m v} : s.life = .off → brightnessLegal b = true →
      Sends (.init b m v) s [[0x40], [controlByte (brightnessOf b)]] (configure b m v s)
  | setBrightness {s l} : s.life = .ready → brightnessLegal l = true → brightnessOf l ≠ s.bright →
      Sends (.setBrightness l) s [[controlByte (brightnessOf l)]] { s with bright := brightnessOf l }
  | write {s pos bytes} : s.life = .ready → positionLegal pos = true → sliceFits pos bytes.length = true →
      readSlice s.shadow pos.toNat bytes.length ≠ bytes →
      Sends (.write pos bytes) s (writeSends pos.toNat bytes s.bright)
        { s with shadow := writeSlice s.shadow pos.toNat bytes }
  | clear {s} : s.life = .ready → readSlice s.shadow 0 16 ≠ List.replicate 16 0x00 →
      Sends .clear s (writeSends 0 (List.replicate 16 0x00) s.bright)
        { s with shadow := writeSlice s.shadow 0 (List.replicate 16 0x00) }
  | teardown {s} : s.life = .ready → readSlice s.shadow 0 16 ≠ List.replicate 16 0x00 →
      Sends .teardown s (writeSends 0 (List.replicate 16 0x00) s.bright)
        { s with shadow := writeSlice s.shadow 0 (List.replicate 16 0x00) }
  | render {s frame} : s.life = .ready → s.slot = some frame → firstInvalid 0 frame.toList = none →
      readSlice s.shadow 0 16 ≠ transformRows frame.toList s.cfgMirror s.cfgReversed →
      Sends .render s (writeSends 0 (transformRows frame.toList s.cfgMirror s.cfgReversed) s.bright)
        { s with
          slot := none
          shadow := writeSlice s.shadow 0 (transformRows frame.toList s.cfgMirror s.cfgReversed) }

/-- What a request does after its transmissions: INIT is READY, or releases the lines; TEARDOWN releases them. -/
def afterwards (q : Request) (r : Response) (s : State) : State :=
  match q with
  | .init _ _ _ => initEnd (r != .ok []) s
  | .teardown => shutDown s
  | .setBrightness _ => s
  | .write _ _ => s
  | .clear => s
  | .transform _ _ _ => s
  | .render => s
  | .publish _ => s

/-- The response of a request after its transmissions: TEARDOWN's discards the error (R214). -/
def answers (q : Request) (r : Response) : Response :=
  match q with
  | .teardown => .ok []
  | .init _ _ _ => r
  | .setBrightness _ => r
  | .write _ _ => r
  | .clear => r
  | .transform _ _ _ => r
  | .render => r
  | .publish _ => r

/-! ## Locks -/

/-- Sending under the lock and releasing it is sending without it. -/
theorem SendResult.freed {start : Nat} {ts : List (List Byte)} {s u : State} {r : Response} (hl : s.lock = .free)
    (h : SendResult start ts (takeLock s) u r) : SendResult start ts s (freeLock u) r := by
  have e1 : freeLock (afterSending ts (takeLock s)) = afterSending ts s := by
    simp [freeLock, afterSending, driven, takeLock, ← hl]
  have e2 : ∀ k x b, freeLock (afterCut ts k x b (takeLock s)) = afterCut ts k x b s := by
    intros; simp [freeLock, afterCut, driven, takeLock, ← hl]
  rcases h with ⟨h, rfl, rfl⟩ | ⟨k, x, b, hk, h, rfl, rfl⟩
  · exact .inl ⟨h, e1, rfl⟩
  · exact .inr ⟨k, x, b, hk, h, e2 k x b, rfl⟩

theorem respond_released (start : Nat) (r : Response) (u : State) :
    respond start r (freeLock u) = replied r (u.trace.length - start) (freeLock u) := rfl

/-- A response without an event, after what a request did under the lock. -/
theorem respond_silent {s u : State} {r : Response} (ht : u.trace = s.trace) :
    respond s.trace.length r u = replied r 0 u := by simp [respond, replied, ht]

/-! ## All that a request can do -/

/-- The body of WRITE's request, under the lock, on rows that exist. -/
theorem engineRequest_write {body : State → Body} {s v t : State} {pos : Nat} {bytes : List Byte}
    (hl : s.lock = .free) (hv : v.lock = .free) (hp : pos ≤ 15) (hn : pos + bytes.length ≤ 16)
    (hb : body (takeLock s) = writeBody pos bytes (takeLock v)) (hvt : v.trace = s.trace)
    (h : engineRequest body s = .next t) :
    (readSlice v.shadow pos bytes.length = bytes ∧ t = replied (.ok []) 0 v) ∨
    (readSlice v.shadow pos bytes.length ≠ bytes ∧ ∃ u r,
      SendResult s.trace.length (writeSends pos bytes v.bright) { v with shadow := writeSlice v.shadow pos bytes } u r ∧
      t = replied r (u.trace.length - s.trace.length) u) := by
  rcases writeBody_cases pos bytes (takeLock v) hp hn with ⟨he, hw⟩ | ⟨hd, u, r, hw, hr⟩
  · rw [engineRequest_run hl (hb.trans hw)] at h
    cases h
    refine .inl ⟨he, ?_⟩
    simp [respond, freeLock, takeLock, replied, hvt, ← hv]
  · rw [engineRequest_run hl (hb.trans hw)] at h
    cases h
    refine .inr ⟨hd, freeLock u, r, ?_, rfl⟩
    rw [← hvt]
    exact SendResult.freed (s := { v with shadow := writeSlice v.shadow pos bytes }) hv hr

theorem waits_engine {s : State} (h : engineWaits s = false) : s.lock = .free := engineWaits_eq_false.1 h

/-- All that an instruction of the engine that ends without an event can do. -/
theorem engineRequest_silent {body : State → Body} {s t : State} {r : Response} (hl : s.lock = .free)
    (hb : body (takeLock s) = .ok (takeLock s, r)) (h : engineRequest body s = .next t) : t = replied r 0 s := by
  rw [engineRequest_replied hl hb] at h
  cases h
  rfl

/-- All that INIT can do. -/
theorem init_cases {s t : State} {b : Int} {m v : Bool} (hl : s.lock = .free) (h : execInit b m v s = .next t) :
    (∃ r u, Silent (.init b m v) s r u ∧ t = replied r 0 u) ∨
    ∃ ts w u r, Sends (.init b m v) s ts w ∧ SendResult s.trace.length ts w u r ∧
      t = replied r (u.trace.length - s.trace.length) (afterwards (.init b m v) r u) := by
  unfold execInit at h
  by_cases ho : s.life = .off
  · cases hb : brightnessLegal b with
    | false =>
      exact .inl ⟨_, _, .initRange ho hb, engineRequest_silent hl (by
        simp only [initBody, show (takeLock s).life = .off from ho, if_true, hb]; rfl) h⟩
    | true =>
      obtain ⟨u, r, hs, hr⟩ := finishSend_run (ts := [[0x40], [controlByte (brightnessOf b)]]) (by simp)
        s.trace.length (configure b m v (takeLock s))
      refine .inr ⟨_, _, freeLock u, r, .init ho hb, SendResult.freed (s := configure b m v s) hl hr, ?_⟩
      obtain ⟨f, hf⟩ : ∃ f, runOps (initOps (configure b m v (takeLock s))) (configure b m v (takeLock s)) = (u, f) ∧
          lineResponse s.trace.length f = r ∧ f.isSome = (r != .ok []) := by
        rw [initOps_eq]
        change ∃ f, runOps ([[0x40], [controlByte (brightnessOf b)]].flatMap txOps) _ = (u, f) ∧ _
        generalize runOps ([[0x40], [controlByte (brightnessOf b)]].flatMap txOps) _ = p at hs
        obtain ⟨p1, p2⟩ := p
        simp only [finishSend, Except.ok.injEq, Prod.mk.injEq] at hs
        obtain ⟨rfl, rfl⟩ := hs
        refine ⟨p2, rfl, rfl, ?_⟩
        cases p2 <;> simp [lineResponse]
      have hbody : initBody b m v (takeLock s) = .ok (initEnd (r != .ok []) u, r) := by
        simp only [initBody, show (takeLock s).life = .off from ho, if_true, hb, hf.1, finishSend]
        rw [hf.2.2]
        simp only [takeLock, hf.2.1]
      rw [engineRequest_run hl hbody] at h
      cases h
      simp only [afterwards]
      cases (r != .ok []) <;> rfl
  · exact .inl ⟨_, _, .initLate ho, engineRequest_silent hl (by
      simp only [initBody, show ¬ (takeLock s).life = .off from ho, if_false]; rfl) h⟩

/-- All that SET_BRIGHTNESS can do. -/
theorem setBrightness_cases {s t : State} {l : Int} (hl : s.lock = .free) (h : execSetBrightness l s = .next t) :
    (∃ r u, Silent (.setBrightness l) s r u ∧ t = replied r 0 u) ∨
    ∃ ts w u r, Sends (.setBrightness l) s ts w ∧ SendResult s.trace.length ts w u r ∧
      t = replied r (u.trace.length - s.trace.length) u := by
  unfold execSetBrightness at h
  by_cases ho : s.life = .ready
  · have hw : ∀ body, whenReady body (takeLock s) = body (takeLock s) := fun body => whenReady_ready ho
    cases hb : brightnessLegal l with
    | false =>
      exact .inl ⟨_, _, .setRange ho hb, engineRequest_silent hl (by
        simp only [hw, setBrightnessBody, hb]; rfl) h⟩
    | true =>
      by_cases he : brightnessOf l = s.bright
      · exact .inl ⟨_, _, .setSame ho hb he, engineRequest_silent hl (by
          simp only [hw, setBrightnessBody, hb, if_true, show brightnessOf l = (takeLock s).bright from he, succeed]) h⟩
      · obtain ⟨u, r, hs, hr⟩ := finishSend_run (ts := [[controlByte (brightnessOf l)]]) (by simp)
          s.trace.length { takeLock s with bright := brightnessOf l }
        refine .inr ⟨_, _, freeLock u, r, .setBrightness ho hb he,
          SendResult.freed (s := { s with bright := brightnessOf l }) hl hr, ?_⟩
        have hbody : whenReady (setBrightnessBody l) (takeLock s) = .ok (u, r) := by
          simp only [hw, setBrightnessBody, hb, if_true, show ¬ brightnessOf l = (takeLock s).bright from he, if_false]
          rw [sendCmdOps_eq]
          exact hs
        rw [engineRequest_run hl hbody] at h
        cases h
        rfl
  · exact .inl ⟨_, _, .setLate ho, engineRequest_silent hl (whenReady_refused (s := takeLock s) ho) h⟩

/-- All that WRITE can do. -/
theorem write_cases {s t : State} {pos : Int} {bytes : List Byte} (hl : s.lock = .free)
    (h : execWrite pos bytes s = .next t) :
    (∃ r u, Silent (.write pos bytes) s r u ∧ t = replied r 0 u) ∨
    ∃ ts w u r, Sends (.write pos bytes) s ts w ∧ SendResult s.trace.length ts w u r ∧
      t = replied r (u.trace.length - s.trace.length) u := by
  unfold execWrite at h
  by_cases ho : s.life = .ready
  · have hw : ∀ body, whenReady body (takeLock s) = body (takeLock s) := fun body => whenReady_ready ho
    cases hp : positionLegal pos with
    | false =>
      exact .inl ⟨_, _, .writePosition ho hp, engineRequest_silent hl (by
        simp only [hw, writeRequest, hp]; rfl) h⟩
    | true =>
      cases hn : sliceFits pos bytes.length with
      | false =>
        exact .inl ⟨_, _, .writeLength ho hp hn, engineRequest_silent hl (by
          simp only [hw, writeRequest, hp, if_true, hn]; rfl) h⟩
      | true =>
        have hs := slice_of_legal hp hn
        rcases engineRequest_write (v := s) hl hl hs.1 hs.2 (by simp only [hw, writeRequest, hp, if_true, hn]) rfl h with
          ⟨he, ht⟩ | ⟨hd, u, r, hr, ht⟩
        · exact .inl ⟨_, _, .writeSame ho hp hn he, ht⟩
        · exact .inr ⟨_, _, u, r, .write ho hp hn hd, hr, ht⟩
  · exact .inl ⟨_, _, .writeLate ho, engineRequest_silent hl (whenReady_refused (s := takeLock s) ho) h⟩

/-- All that CLEAR can do. -/
theorem clear_cases {s t : State} (hl : s.lock = .free) (h : execClear s = .next t) :
    (∃ r u, Silent .clear s r u ∧ t = replied r 0 u) ∨
    ∃ ts w u r, Sends .clear s ts w ∧ SendResult s.trace.length ts w u r ∧
      t = replied r (u.trace.length - s.trace.length) u := by
  unfold execClear at h
  by_cases ho : s.life = .ready
  · have hw : ∀ body, whenReady body (takeLock s) = body (takeLock s) := fun body => whenReady_ready ho
    by_cases hz : readSlice s.shadow 0 16 = List.replicate 16 0x00
    · exact .inl ⟨_, _, .clearZero ho hz, engineRequest_silent hl (by
        rw [hw, clearBody, if_pos (show readSlice (takeLock s).shadow 0 16 = _ from hz)]; rfl) h⟩
    · have hb : whenReady clearBody (takeLock s) = writeBody 0 (List.replicate 16 0x00) (takeLock s) := by
        rw [hw, clearBody, if_neg (show ¬ readSlice (takeLock s).shadow 0 16 = _ from hz)]
      rcases engineRequest_write (v := s) hl hl (by decide) (by decide) hb rfl h with ⟨he, ht⟩ | ⟨hd, u, r, hr, ht⟩
      · exact (hz he).elim
      · exact .inr ⟨_, _, u, r, .clear ho hz, hr, ht⟩
  · exact .inl ⟨_, _, .clearLate ho, engineRequest_silent hl (whenReady_refused (s := takeLock s) ho) h⟩

/-- All that TEARDOWN can do. -/
theorem teardown_cases {s t : State} (hl : s.lock = .free) (h : execTeardown s = .next t) :
    (∃ r u, Silent .teardown s r u ∧ t = replied r 0 u) ∨
    ∃ ts w u r, Sends .teardown s ts w ∧ SendResult s.trace.length ts w u r ∧
      t = replied (.ok []) (u.trace.length - s.trace.length) (shutDown u) := by
  unfold execTeardown at h
  by_cases ho : s.life = .ready
  · have ho' : (takeLock s).life = .ready := ho
    by_cases hz : readSlice s.shadow 0 16 = List.replicate 16 0x00
    · have hb : teardownBody (takeLock s) = .ok (shutDown (takeLock s), .ok []) := by
        simp only [teardownBody, ho', if_true]
        rw [clearBody, if_pos (show readSlice (takeLock s).shadow 0 16 = _ from hz)]
        rfl
      rw [engineRequest_run hl hb] at h
      cases h
      refine .inl ⟨_, _, .teardownZero ho hz, ?_⟩
      simp [respond, replied, shutDown, releaseLines, freeLock, takeLock, ← hl]
    · obtain ⟨u, r, hw, hr⟩ := writeBody_differs (s := takeLock s) (pos := 0) (bytes := List.replicate 16 0x00)
        (by decide) (by decide) hz
      have hb : teardownBody (takeLock s) = .ok (shutDown u, .ok []) := by
        simp only [teardownBody, ho', if_true]
        rw [clearBody, if_neg (show ¬ readSlice (takeLock s).shadow 0 16 = _ from hz), hw]
        rfl
      rw [engineRequest_run hl hb] at h
      cases h
      refine .inr ⟨_, _, freeLock u, r, .teardown ho hz, SendResult.freed (s := { s with
        shadow := writeSlice s.shadow 0 (List.replicate 16 0x00) }) hl hr, rfl⟩
  · exact .inl ⟨_, _, .teardownLate ho, engineRequest_silent hl (by
      simp only [teardownBody, show ¬ (takeLock s).life = .ready from ho, if_false]; rfl) h⟩

/-- All that RENDER can do when it need not wait. -/
theorem render_cases {s t : State} (hw : renderWaits s = false) (h : execRender s = .next t) :
    (∃ r u, Silent .render s r u ∧ t = replied r 0 u) ∨
    ∃ ts w u r, Sends .render s ts w ∧ SendResult s.trace.length ts w u r ∧
      t = replied r (u.trace.length - s.trace.length) u := by
  simp only [execRender, hw, Bool.false_eq_true, if_false] at h
  simp only [renderWaits, Bool.or_eq_false_iff] at hw
  have hl := engineWaits_eq_false.1 hw.1
  by_cases ho : s.life = .ready
  · have hs : s.slotLock = .free := by
      have := hw.2
      cases hc : s.slotLock <;> simp [ho, hc] at this ⊢
    have hr : ∀ body, whenReady body (takeLock s) = body (takeLock s) := fun body => whenReady_ready ho
    cases hf : s.slot with
    | none =>
      exact .inl ⟨_, _, .renderEmpty ho hf, engineRequest_silent hl (by
        simp only [hr, renderBody, show (takeLock s).slot = none from hf, succeed]) h⟩
    | some frame =>
      have htake : takeFrame (takeLock s) = takeLock { s with slot := none } := by
        simp [takeFrame, freeSlotLock, takeSlotLock, takeLock, ← hs]
      have hb : whenReady renderBody (takeLock s) =
          match firstInvalid 0 frame.toList with
          | some (k, w) => .ok (takeLock { s with slot := none }, .invalidLevel k w)
          | none => writeBody 0 (transformRows frame.toList s.cfgMirror s.cfgReversed) (takeLock { s with slot := none }) := by
        simp only [hr, renderBody, show (takeLock s).slot = some frame from hf, transformFrame_frame, htake]
        cases firstInvalid 0 frame.toList with
        | some p => rfl
        | none =>
          simp only [writeRequest, length_transformRows, show positionLegal 0 = true from rfl,
            show sliceFits 0 16 = true from rfl, if_true]
          rfl
      cases hi : firstInvalid 0 frame.toList with
      | some p =>
        obtain ⟨k, w⟩ := p
        rw [hi] at hb
        rw [engineRequest_run hl hb] at h
        cases h
        refine .inl ⟨_, _, .renderLevel ho hf hi, ?_⟩
        simp [respond, replied, freeLock, takeLock, ← hl]
      | none =>
        rw [hi] at hb
        have hn := length_transformRows frame.toList s.cfgMirror s.cfgReversed
        rcases engineRequest_write (v := { s with slot := none }) hl hl (by decide) (by rw [hn]) hb rfl h with
          ⟨he, ht⟩ | ⟨hd, u, r, hres, ht⟩
        · rw [hn] at he
          exact .inl ⟨_, _, .renderSame ho hf hi he, ht⟩
        · rw [hn] at hd
          exact .inr ⟨_, _, u, r, .render ho hf hi hd, hres, ht⟩
  · exact .inl ⟨_, _, .renderLate ho, engineRequest_silent hl (whenReady_refused (s := takeLock s) ho) h⟩

/-- All that PUBLISH can do when it need not wait. -/
theorem publish_cases {s t : State} {levels : List BarLevel} (hw : publishWaits levels s = false)
    (h : execPublish levels s = .next t) : ∃ r u, Silent (.publish levels) s r u ∧ t = replied r 0 u := by
  unfold execPublish at h
  cases hf : frameOf levels with
  | none =>
    rw [hf] at h
    cases h
    exact ⟨_, _, .publishLength hf, respond_silent rfl⟩
  | some frame =>
    rw [hf] at h
    simp only [hw, Bool.false_eq_true, if_false] at h
    cases h
    refine ⟨_, _, .publish hf, ?_⟩
    have hs : s.slotLock = .free := by
      simp only [publishWaits, hf, Option.isSome_some, Bool.true_and] at hw
      cases hc : s.slotLock <;> simp [hc] at hw ⊢
    simp [respond, replied, storeFrame, freeSlotLock, takeSlotLock, ← hs]

/-- All that a request can do when it answers a next state. -/
theorem request_cases {q : Request} {s t : State} (h : exec q.toInstr s = .next t) :
    (waits q.toInstr s = true ∧ t = s) ∨
    waits q.toInstr s = false ∧
      ((∃ r u, Silent q s r u ∧ t = replied r 0 u) ∨
      ∃ ts v u r, Sends q s ts v ∧ SendResult s.trace.length ts v u r ∧
        t = replied (answers q r) (u.trace.length - s.trace.length) (afterwards q r u)) := by
  have engine : ∀ body, engineWaits s = true → engineRequest body s = .next t → t = s := by
    intro body hw h
    rw [engineRequest_waits hw] at h
    cases h
    rfl
  cases q with
  | init b m v =>
    cases hw : engineWaits s with
    | true => exact .inl ⟨hw, engine _ hw h⟩
    | false => exact .inr ⟨hw, init_cases (waits_engine hw) h⟩
  | setBrightness l =>
    cases hw : engineWaits s with
    | true => exact .inl ⟨hw, engine _ hw h⟩
    | false => exact .inr ⟨hw, setBrightness_cases (waits_engine hw) h⟩
  | write pos bytes =>
    cases hw : engineWaits s with
    | true => exact .inl ⟨hw, engine _ hw h⟩
    | false => exact .inr ⟨hw, write_cases (waits_engine hw) h⟩
  | clear =>
    cases hw : engineWaits s with
    | true => exact .inl ⟨hw, engine _ hw h⟩
    | false => exact .inr ⟨hw, clear_cases (waits_engine hw) h⟩
  | teardown =>
    cases hw : engineWaits s with
    | true => exact .inl ⟨hw, engine _ hw h⟩
    | false => exact .inr ⟨hw, teardown_cases (waits_engine hw) h⟩
  | transform f m v =>
    cases h
    exact .inr ⟨rfl, .inl ⟨_, _, .transform, respond_silent rfl⟩⟩
  | render =>
    cases hw : renderWaits s with
    | true =>
      simp only [Request.toInstr, exec, execRender, hw, if_true] at h
      cases h
      exact .inl ⟨hw, rfl⟩
    | false => exact .inr ⟨hw, render_cases hw h⟩
  | publish levels =>
    cases hw : publishWaits levels s with
    | true =>
      have hf : ∃ frame, frameOf levels = some frame := by
        cases hf : frameOf levels with
        | none => simp [publishWaits, hf] at hw
        | some frame => exact ⟨frame, rfl⟩
      obtain ⟨frame, hf⟩ := hf
      simp only [Request.toInstr, exec, execPublish, hf, hw, if_true] at h
      cases h
      exact .inl ⟨hw, rfl⟩
    | false => exact .inr ⟨hw, .inl (publish_cases hw h)⟩

/-! ## What the parts of a request leave alone -/

/-- A request that ends without an event leaves trace, responses, port, draws, locks, shadow and receiver alone. -/
theorem Silent.frame {q : Request} {s u : State} {r : Response} (h : Silent q s r u) :
    u.trace = s.trace ∧ u.responses = s.responses ∧ u.requests = s.requests ∧ u.lineDraws = s.lineDraws ∧
      u.lock = s.lock ∧ u.slotLock = s.slotLock ∧ u.shadow = s.shadow ∧ u.rx = s.rx ∧ u.phase = s.phase ∧
      u.bitidx = s.bitidx := by cases h <;> exact ⟨rfl, rfl, rfl, rfl, rfl, rfl, rfl, rfl, rfl, rfl⟩

/-- Before its first event a request writes driver state only: lines, protocol, locks and receiver are as they were. -/
theorem Sends.frame {q : Request} {s v : State} {ts : List (List Byte)} (h : Sends q s ts v) :
    v.trace = s.trace ∧ v.responses = s.responses ∧ v.requests = s.requests ∧ v.lineDraws = s.lineDraws ∧
      v.lock = s.lock ∧ v.slotLock = s.slotLock ∧ v.rx = s.rx ∧ v.clk = s.clk ∧ v.dio = s.dio ∧ v.life = s.life ∧
      v.phase = s.phase ∧ v.bitidx = s.bitidx ∧ v.shreg = s.shreg := by
  cases h <;> exact ⟨rfl, rfl, rfl, rfl, rfl, rfl, rfl, rfl, rfl, rfl, rfl, rfl, rfl⟩

/-- A request that sends sends at least one transmission. -/
theorem Sends.ne_nil {q : Request} {s v : State} {ts : List (List Byte)} (h : Sends q s ts v) : ts ≠ [] := by
  cases h <;> simp [writeSends]

/-- The transform's rows written at row 0 keep the canonical form. -/
theorem wf_writeSlice_rows {m : Memory} {frame : List BarLevel} {mirror reversed : Bool} (hw : m.wf = true) :
    Memory.wf (writeSlice m 0 (transformRows frame mirror reversed)) = true := by
  refine wf_writeSlice ?_ hw
  rw [length_transformRows]

/-- What a request writes to the shadow keeps its canonical form. -/
theorem Sends.wf {q : Request} {s v : State} {ts : List (List Byte)} (h : Sends q s ts v)
    (hw : s.shadow.wf = true) : v.shadow.wf = true := by
  cases h with
  | init => exact wf_writeSlice (by decide) hw
  | setBrightness => exact hw
  | write _ hp hn _ => exact wf_writeSlice (slice_of_legal hp hn).2 hw
  | clear => exact wf_writeSlice (by decide) hw
  | teardown => exact wf_writeSlice (by decide) hw
  | render =>
    dsimp only
    exact wf_writeSlice_rows hw

/-- Sending, whole or cut off, leaves driver state, locks and responses alone, and the protocol idle. -/
theorem SendResult.frame {start : Nat} {ts : List (List Byte)} {v u : State} {r : Response}
    (h : SendResult start ts v u r) :
    u.responses = v.responses ∧ u.requests = v.requests ∧ u.lineDraws = v.lineDraws ∧ u.lock = v.lock ∧
      u.slotLock = v.slotLock ∧ u.shadow = v.shadow ∧ u.bright = v.bright ∧ u.cfgMirror = v.cfgMirror ∧
      u.cfgReversed = v.cfgReversed ∧ u.life = v.life ∧ u.slot = v.slot ∧ u.linesHeld = v.linesHeld ∧
      u.phase = .idle ∧ u.bitidx = 0 := by
  rcases h with ⟨_, rfl, _⟩ | ⟨k, x, b, hk, _, rfl, _⟩ <;>
    exact ⟨rfl, rfl, rfl, rfl, rfl, rfl, rfl, rfl, rfl, rfl, rfl, rfl, rfl, rfl⟩

/-- Sending, whole or cut off, reaches the receiver's decoder alone. -/
theorem SendResult.rx_frame {start : Nat} {ts : List (List Byte)} {v u : State} {r : Response}
    (h : SendResult start ts v u r) :
    u.rx.chipRam = v.rx.chipRam ∧ u.rx.chipCtrl = v.rx.chipCtrl ∧ u.rx.addressing = v.rx.addressing ∧
      u.rx.current = v.rx.current ∧ u.rx.place = v.rx.place := by
  rcases h with ⟨_, rfl, _⟩ | ⟨k, x, b, hk, _, rfl, _⟩ <;> simp [afterSending, afterCut, driven, rxCut]

/-- Sending adds at most the transmissions' events to the trace. -/
theorem SendResult.trace {start : Nat} {ts : List (List Byte)} {v u : State} {r : Response}
    (h : SendResult start ts v u r) :
    ∃ es : List Event, es.length ≤ (sendEvents ts).length ∧ u.trace = v.trace ++ es := by
  rcases h with ⟨_, rfl, _⟩ | ⟨k, x, b, hk, _, rfl, _⟩
  · exact ⟨_, Nat.le_refl _, rfl⟩
  · exact ⟨_, by simp [failingAt]; omega, rfl⟩

/-- What a request does after its transmissions leaves all but the lifecycle and the lines alone. -/
theorem afterwards_frame (q : Request) (r : Response) (u : State) :
    (afterwards q r u).trace = u.trace ∧ (afterwards q r u).responses = u.responses ∧
      (afterwards q r u).requests = u.requests ∧ (afterwards q r u).lineDraws = u.lineDraws ∧
      (afterwards q r u).lock = u.lock ∧ (afterwards q r u).slotLock = u.slotLock ∧
      (afterwards q r u).shadow = u.shadow ∧ (afterwards q r u).rx = u.rx ∧ (afterwards q r u).phase = u.phase ∧
      (afterwards q r u).bitidx = u.bitidx := by
  cases q with
  | init b m v =>
    simp only [afterwards, initEnd]
    cases (r != .ok []) <;> exact ⟨rfl, rfl, rfl, rfl, rfl, rfl, rfl, rfl, rfl, rfl⟩
  | setBrightness l => exact ⟨rfl, rfl, rfl, rfl, rfl, rfl, rfl, rfl, rfl, rfl⟩
  | write p b => exact ⟨rfl, rfl, rfl, rfl, rfl, rfl, rfl, rfl, rfl, rfl⟩
  | clear => exact ⟨rfl, rfl, rfl, rfl, rfl, rfl, rfl, rfl, rfl, rfl⟩
  | teardown => exact ⟨rfl, rfl, rfl, rfl, rfl, rfl, rfl, rfl, rfl, rfl⟩
  | transform f m v => exact ⟨rfl, rfl, rfl, rfl, rfl, rfl, rfl, rfl, rfl, rfl⟩
  | render => exact ⟨rfl, rfl, rfl, rfl, rfl, rfl, rfl, rfl, rfl, rfl⟩
  | publish l => exact ⟨rfl, rfl, rfl, rfl, rfl, rfl, rfl, rfl, rfl, rfl⟩

/-- Sending, whole or cut off, emits at least one event. -/
theorem SendResult.emits {start : Nat} {ts : List (List Byte)} {v u : State} {r : Response} (hne : ts ≠ [])
    (h : SendResult start ts v u r) : u.trace ≠ v.trace := by
  have hpos : 0 < (sendEvents ts).length := by
    cases ts with
    | nil => exact absurd rfl hne
    | cons t ts => simp [sendEvents, txEvents, startEvents]
  have key : ∀ es : List Event, 0 < es.length → v.trace ++ es ≠ v.trace := by
    intro es hes he
    have := congrArg List.length he
    rw [List.length_append] at this
    omega
  rcases h with ⟨_, rfl, _⟩ | ⟨k, x, b, hk, _, rfl, _⟩
  · exact key _ hpos
  · refine key _ ?_
    simp only [failingAt, List.length_append, List.length_take, List.length_map, List.length_drop]
    omega

/-- A request that neither waits nor ends without an event emits. -/
theorem emits_of_not_silent {q : Request} {s t : State} (h : exec q.toInstr s = .next t)
    (hw : waits q.toInstr s = false) (hs : ∀ r u, ¬ Silent q s r u) : t.trace ≠ s.trace := by
  rcases request_cases h with ⟨hw', _⟩ | ⟨_, ⟨r, u, hu, _⟩ | ⟨ts, v, u, r, hv, hr, rfl⟩⟩
  · rw [hw] at hw'
    cases hw'
  · exact (hs r u hu).elim
  · have := hr.emits hv.ne_nil
    rw [hv.frame.1] at this
    exact (afterwards_frame q r u).1 ▸ this

end Sys2Proof.Machine
end

