-- ==== Sys2Proof/Laws/Encoding.lean ====
section
/-! SUPPORT. The fields of an assembled header, operand fields, and the two levels of a frame byte: what the encoder
puts in, the decoder's field functions take out. -/

namespace Sys2Proof

section Header

variable (op : BitVec 4) (a n : BitVec 8) (m v : Bool)

@[simp] theorem headerOp_headerWord : headerOp (headerWord op a n m v) = op := by
  unfold headerOp headerWord
  ext i hi
  simp only [BitVec.getElem_extractLsb', BitVec.getLsbD_append]
  have : i = 0 ∨ i = 1 ∨ i = 2 ∨ i = 3 := by omega
  rcases this with rfl | rfl | rfl | rfl <;> simp

@[simp] theorem headerRes1_headerWord : headerRes1 (headerWord op a n m v) = 0 := by
  unfold headerRes1 headerWord
  ext i hi
  simp only [BitVec.getElem_extractLsb', BitVec.getLsbD_append]
  have : i = 0 ∨ i = 1 ∨ i = 2 ∨ i = 3 := by omega
  rcases this with rfl | rfl | rfl | rfl <;> simp

@[simp] theorem headerA_headerWord : headerA (headerWord op a n m v) = a := by
  unfold headerA headerWord
  ext i hi
  simp only [BitVec.getElem_extractLsb', BitVec.getLsbD_append]
  have : i = 0 ∨ i = 1 ∨ i = 2 ∨ i = 3 ∨ i = 4 ∨ i = 5 ∨ i = 6 ∨ i = 7 := by omega
  rcases this with rfl | rfl | rfl | rfl | rfl | rfl | rfl | rfl <;> simp

@[simp] theorem headerN_headerWord : headerN (headerWord op a n m v) = n := by
  unfold headerN headerWord
  ext i hi
  simp only [BitVec.getElem_extractLsb', BitVec.getLsbD_append]
  have : i = 0 ∨ i = 1 ∨ i = 2 ∨ i = 3 ∨ i = 4 ∨ i = 5 ∨ i = 6 ∨ i = 7 := by omega
  rcases this with rfl | rfl | rfl | rfl | rfl | rfl | rfl | rfl <;> simp

@[simp] theorem headerRes0_headerWord : headerRes0 (headerWord op a n m v) = 0 := by
  unfold headerRes0 headerWord
  ext i hi
  simp only [BitVec.getElem_extractLsb', BitVec.getLsbD_append]
  have : i = 0 ∨ i = 1 ∨ i = 2 ∨ i = 3 ∨ i = 4 ∨ i = 5 := by omega
  rcases this with rfl | rfl | rfl | rfl | rfl | rfl <;> simp

@[simp] theorem headerM_headerWord : headerM (headerWord op a n m v) = m := by
  unfold headerM headerWord
  simp only [BitVec.getLsbD_append]
  simp

@[simp] theorem headerV_headerWord : headerV (headerWord op a n m v) = v := by
  unfold headerV headerWord
  simp only [BitVec.getLsbD_append]
  simp

end Header

/-- An operand that fits the field A is read back from it. -/
theorem toNat_ofInt_of_fits {x : Int} (h : fitsField x = true) : ((BitVec.ofInt 8 x).toNat : Int) = x := by
  simp only [fitsField, Bool.and_eq_true, decide_eq_true_eq] at h
  rw [BitVec.toNat_ofInt]
  omega

/-- The low half of a frame byte. -/
theorem lowLevel_append (lo hi : BarLevel) : (hi ++ lo).extractLsb' 0 4 = lo := by
  ext i h
  have : i = 0 ∨ i = 1 ∨ i = 2 ∨ i = 3 := by omega
  simp only [BitVec.getElem_extractLsb', BitVec.getLsbD_append]
  rcases this with rfl | rfl | rfl | rfl <;> simp

/-- The high half of a frame byte. -/
theorem highLevel_append (lo hi : BarLevel) : (hi ++ lo).extractLsb' 4 4 = hi := by
  ext i h
  have : i = 0 ∨ i = 1 ∨ i = 2 ∨ i = 3 := by omega
  simp only [BitVec.getElem_extractLsb', BitVec.getLsbD_append]
  rcases this with rfl | rfl | rfl | rfl <;> simp

/-- A binary request decodes exactly when no field of it offends, and then to its OP's instruction. -/
theorem decodeRequest_ok_iff {h : BitVec 32} {payload : List Byte} {i : Instr} :
    decodeRequest h payload = .ok i ↔ offendingFields h payload = [] ∧ requestOf h payload = some i := by
  unfold decodeRequest
  split
  · rename_i j h1 h2
    simp [h1, h2]
  · rename_i hne
    constructor
    · intro hc; cases hc
    · rintro ⟨h1, h2⟩
      exact (hne i h1 h2).elim

end Sys2Proof
end

