-- ==== Sys2Proof/Laws/PerInstr.lean ====
section
/-! SUPPORT. The encoding of each instruction against its row of spec/opcode_table.json: the fixed bits, and the length
of the payload. -/

namespace Sys2Proof.Laws.FixedBits

/-- The row's `match`. -/
def rowMatch : Instr → Nat
  | .cmdData => 0x40
  | .cmdFixedAddr => 0x44
  | .cmdAddr _ => 0xC0
  | .cmdDispCtrl _ => 0x88
  | .data _ => 0x00
  | .init _ _ _ => 0x00000000
  | .setBrightness _ => 0x10000000
  | .write _ _ => 0x20000000
  | .clear => 0x30000000
  | .teardown => 0x40000000
  | .transform _ _ _ => 0x50000000
  | .render => 0x60000000
  | .publish _ => 0x70000000

/-- The row's `mask`. -/
def rowMask : Instr → Nat
  | .cmdData => 0xFF
  | .cmdFixedAddr => 0xFF
  | .cmdAddr _ => 0xF0
  | .cmdDispCtrl _ => 0xF8
  | .data _ => 0x00
  | .init _ _ _ => 0xFF00FFFC
  | .setBrightness _ => 0xFF00FFFF
  | .write _ _ => 0xFF0000FF
  | .clear => 0xFFFFFFFF
  | .teardown => 0xFFFFFFFF
  | .transform _ _ _ => 0xFFFFFFFC
  | .render => 0xFFFFFFFF
  | .publish _ => 0xFFFFFFFF

/-- The row's fixed bits stand in the words of a well-formed instruction, and its payload has the length its header
calls for (R71, R81, R82). -/
def Statement (i : Instr) : Prop :=
  i.wellFormed = true →
    match encode i with
    | .wire _ b => b &&& BitVec.ofNat 8 (rowMask i) = BitVec.ofNat 8 (rowMatch i)
    | .request h payload =>
      h &&& BitVec.ofNat 32 (rowMask i) = BitVec.ofNat 32 (rowMatch i) ∧ payload.length = payloadLength h

/-- A frame's payload has half as many bytes as the frame has levels. -/
theorem length_packFrame : ∀ f : List BarLevel, (packFrame f).length = f.length / 2
  | [] => rfl
  | [_] => by simp [packFrame]
  | _ :: _ :: rest => by
    simp only [packFrame, List.length_cons, length_packFrame rest]
    omega

/-- A header keeps, under a mask that leaves out the fields that are free, its OP and zeros. -/
theorem headerWord_fixed (op : BitVec 4) (a n : BitVec 8) (m v : Bool) :
    headerWord op a 0 m v &&& 0xFF00FFFC#32 = headerWord op 0 0 false false ∧
      headerWord op a 0 false false &&& 0xFF00FFFF#32 = headerWord op 0 0 false false ∧
      headerWord op a n false false &&& 0xFF0000FF#32 = headerWord op 0 0 false false ∧
      headerWord op 0 0 m v &&& 0xFFFFFFFC#32 = headerWord op 0 0 false false := by
  refine ⟨?_, ?_, ?_, ?_⟩ <;>
  · apply BitVec.eq_of_getLsbD_eq
    intro i hi
    simp only [headerWord, BitVec.getLsbD_and, BitVec.getLsbD_append]
    interval_cases i <;> simp

/-! ## One lemma for each constructor -/

theorem cmdData : Statement .cmdData := fun _ => rfl

theorem cmdFixedAddr : Statement .cmdFixedAddr := fun _ => rfl

theorem cmdAddr (p : BitVec 4) : Statement (.cmdAddr p) := fun _ =>
  (by decide : ∀ p : BitVec 4, ((0xC : BitVec 4) ++ p) &&& 0xF0#8 = 0xC0#8) p

theorem cmdDispCtrl (b : Brightness) : Statement (.cmdDispCtrl b) := fun _ =>
  (by decide : ∀ b : Brightness, ((0x11 : BitVec 5) ++ b) &&& 0xF8#8 = 0x88#8) b

theorem data (d : Byte) : Statement (.data d) := fun _ => by simp [encode, rowMask, rowMatch]

theorem init (brightness : Int) (mirror reversed : Bool) : Statement (.init brightness mirror reversed) := fun _ =>
  ⟨(headerWord_fixed 0 _ 0 mirror reversed).1.trans (by simp only [rowMatch]; decide), by simp [payloadLength]⟩

theorem setBrightness (level : Int) : Statement (.setBrightness level) := fun _ =>
  ⟨(headerWord_fixed 1 _ 0 false false).2.1.trans (by simp only [rowMatch]; decide), by simp [payloadLength]⟩

theorem write (pos : Int) (bytes : List Byte) : Statement (.write pos bytes) := fun h => by
  simp only [Instr.wellFormed, Bool.and_eq_true, decide_eq_true_eq] at h
  refine ⟨(headerWord_fixed 2 _ _ false false).2.2.1.trans (by simp only [rowMatch]; decide), ?_⟩
  simp [payloadLength]
  omega

theorem clear : Statement .clear := fun _ => ⟨rfl, rfl⟩

theorem teardown : Statement .teardown := fun _ => ⟨rfl, rfl⟩

theorem transform (frame : List BarLevel) (mirror reversed : Bool) : Statement (.transform frame mirror reversed) :=
  fun h => by
    simp only [Instr.wellFormed, decide_eq_true_eq] at h
    exact ⟨(headerWord_fixed 5 0 0 mirror reversed).2.2.2.trans (by simp only [rowMatch]; decide), by simp [payloadLength, length_packFrame, h]⟩

theorem render : Statement .render := fun _ => ⟨rfl, rfl⟩

theorem publish (frame : List BarLevel) : Statement (.publish frame) := fun h => by
  simp only [Instr.wellFormed, decide_eq_true_eq] at h
  exact ⟨by simp only [rowMask, rowMatch]; decide, by simp [payloadLength, length_packFrame, h]⟩

end Sys2Proof.Laws.FixedBits
end

