-- ==== Sys2Proof/Laws/Step.lean ====
section
/-! SUPPORT. All that a step can do, said once: nothing, a move of the receiver alone, a request, or the refusal of a
malformed one. -/

namespace Sys2Proof.Machine

/-- A binary request decodes to a request. -/
theorem requestOf_request {h : BitVec 32} {payload : List Byte} {i : Instr} (hi : requestOf h payload = some i) :
    ∃ q : Request, i = q.toInstr := by
  unfold requestOf at hi
  split at hi
  · cases hi
    exact ⟨.init _ _ _, rfl⟩
  · cases hi
    exact ⟨.setBrightness _, rfl⟩
  · cases hi
    exact ⟨.write _ _, rfl⟩
  · cases hi
    exact ⟨.clear, rfl⟩
  · cases hi
    exact ⟨.teardown, rfl⟩
  · cases hi
    exact ⟨.transform _ _ _, rfl⟩
  · cases hi
    exact ⟨.render, rfl⟩
  · cases hi
    exact ⟨.publish _, rfl⟩
  · cases hi

/-- What the receiver's move leaves of it: the decoder as it was, and between transmissions its place is the first. -/
def ReceiverMoved (r r' : Receiver) : Prop :=
  r'.isOpen = r.isOpen ∧ r'.bits = r.bits ∧ r'.cut = r.cut ∧ r'.addressing = r.addressing ∧
    r'.abortDraws = r.abortDraws ∧ r'.aborts = r.aborts ∧ (r'.current = [] → r'.place = .first)

theorem ReceiverMoved.lost (r : Receiver) : ReceiverMoved r (rxLost r) := ⟨rfl, rfl, rfl, rfl, rfl, rfl, fun _ => rfl⟩

theorem ReceiverMoved.mode {r : Receiver} (hp : r.place = .first) : ReceiverMoved r (rxTakeMode r) := by
  unfold rxTakeMode
  split
  · exact ⟨rfl, rfl, rfl, rfl, rfl, rfl, fun _ => hp⟩
  · exact .lost r

theorem ReceiverMoved.control {r : Receiver} (b : Brightness) (hp : r.place = .first) :
    ReceiverMoved r (rxTakeControl b r) := by
  unfold rxTakeControl
  split
  · exact ⟨rfl, rfl, rfl, rfl, rfl, rfl, fun _ => hp⟩
  · exact .lost r

theorem ReceiverMoved.address {r : Receiver} (p : BitVec 4) : ReceiverMoved r (rxTakeAddress p r) := by
  unfold rxTakeAddress
  split
  · rename_i h
    refine ⟨rfl, rfl, rfl, rfl, rfl, rfl, fun hc => ?_⟩
    simp only [Bool.and_eq_true] at h
    rw [show r.current = [] from hc] at h
    exact absurd h.2 (by decide)
  · exact .lost r

theorem ReceiverMoved.data {r : Receiver} (d : Byte) : ReceiverMoved r (rxTakeData d r) := by
  unfold rxTakeData
  split
  · exact .lost r
  · refine ⟨rfl, rfl, rfl, rfl, rfl, rfl, fun hc => ?_⟩
    simp only [show r.current = [] from hc, List.isEmpty_nil, if_true]

/-- The first byte of a transmission is a command, never data. -/
theorem decodeCommand_cases {b : Byte} {i : Instr} (h : decodeCommand b = some i) :
    (b = 0x40 ∧ i = .cmdData) ∨ (b = 0x44 ∧ i = .cmdFixedAddr) ∨
      (b &&& 0xF0 = 0xC0 ∧ i = .cmdAddr (b.extractLsb' 0 4)) ∨
      (b &&& 0xF8 = 0x88 ∧ i = .cmdDispCtrl (b.extractLsb' 0 3)) := by
  unfold decodeCommand at h
  split at h
  · cases h
    exact .inl ⟨by assumption, rfl⟩
  · split at h
    · cases h
      exact .inr (.inl ⟨by assumption, rfl⟩)
    · split at h
      · cases h
        exact .inr (.inr (.inl ⟨by assumption, rfl⟩))
      · split at h
        · cases h
          exact .inr (.inr (.inr ⟨by assumption, rfl⟩))
        · cases h

/-- Taking one byte moves the receiver alone. -/
theorem stepByte_moves {b : Byte} {rest : List Byte} {s s0 t : State}
    (h : (match fetchByte b rest s with
      | .nothing => Host.Outcome.next s0
      | .run i u => exec i u
      | .badTransmission u => .next (loseReceiver u)
      | .badRequest bad u => .next (refuseRequest bad u)) = .next t) :
    ∃ r, t = { s with rx := r } ∧ ReceiverMoved s.rx r := by
  unfold fetchByte at h
  split at h <;> rename_i hf
  · split at hf
    · cases hf
    · split at hf <;> cases hf
  · split at hf
    · cases hf
      cases h
      exact ⟨_, rfl, .data b⟩
    · rename_i hp
      split at hf
      · rename_i i hd
        cases hf
        rcases decodeCommand_cases hd with ⟨_, rfl⟩ | ⟨_, rfl⟩ | ⟨_, rfl⟩ | ⟨_, rfl⟩
        · cases h
          exact ⟨_, rfl, ReceiverMoved.mode (r := { s.rx with current := rest }) hp⟩
        · cases h
          exact ⟨_, rfl, ReceiverMoved.mode (r := { s.rx with current := rest }) hp⟩
        · cases h
          exact ⟨_, rfl, ReceiverMoved.address (r := { s.rx with current := rest }) _⟩
        · cases h
          exact ⟨_, rfl, ReceiverMoved.control (r := { s.rx with current := rest }) _ hp⟩
      · cases hf
  · split at hf
    · cases hf
    · split at hf
      · cases hf
      · cases hf
        cases h
        exact ⟨_, rfl, ReceiverMoved.lost { s.rx with current := rest }⟩
  · split at hf
    · cases hf
    · split at hf <;> cases hf

/-- All that a step can do when it answers a next state. -/
theorem step_cases {s t : State} (h : step s = .next t) :
    t = s ∨ (∃ r, t = { s with rx := r } ∧ ReceiverMoved s.rx r) ∨
      (∃ (q : Request) (u : State), (u = s ∨ ∃ rest, u = { s with requests := rest }) ∧ exec q.toInstr u = .next t) ∨
      ∃ (bad : BadRequest) (rest : List PortRequest),
        t = replied (.invalidRequest bad.op bad.fields) 0 { s with requests := rest } := by
  unfold step fetch at h
  cases hc : s.rx.current with
  | cons b rest =>
    simp only [hc] at h
    exact .inr (.inl (stepByte_moves h))
  | nil =>
    cases hq : s.rx.queue with
    | cons t0 others =>
      cases t0 with
      | nil =>
        simp only [hc, hq] at h
        cases h
        exact .inr (.inl ⟨_, rfl, ReceiverMoved.lost { s.rx with queue := others }⟩)
      | cons b rest =>
        simp only [hc, hq] at h
        obtain ⟨r, ht, hr⟩ := stepByte_moves h
        exact .inr (.inl ⟨r, ht, hr⟩)
    | nil =>
      cases hr : s.requests with
      | nil =>
        simp only [hc, hq, hr] at h
        cases h
        exact .inl rfl
      | cons p rest =>
        simp only [hc, hq, hr] at h
        unfold fetchRequest at h
        cases p with
        | abstract q =>
          refine .inr (.inr (.inl ⟨q, _, ?_, h⟩))
          split
          · exact .inl rfl
          · exact .inr ⟨rest, rfl⟩
        | binary w payload =>
          cases hd : decodeRequest w payload with
          | ok i =>
            simp only [hd] at h
            obtain ⟨q, rfl⟩ := requestOf_request (decodeRequest_ok_iff.1 hd).2
            refine .inr (.inr (.inl ⟨q, _, ?_, h⟩))
            split
            · exact .inl rfl
            · exact .inr ⟨rest, rfl⟩
          | error bad =>
            simp only [hd] at h
            cases h
            refine .inr (.inr (.inr ⟨bad, rest, ?_⟩))
            simp [refuseRequest, respond, replied]

end Sys2Proof.Machine
end

