-- ==== Sys2Proof/Machine/Assembly.lean ====
section
/-! DEFINITION. The text form of the requests (30_encoding.md R86; the spec's own decision D25): one request a line,
read to its abstract form. No step reads text; the binary form is Decode.lean's. -/

namespace Sys2Proof.Machine

/-- The pieces of a line. -/
inductive Token where
  | word (letters : List Char)
  | comma
  | opening
  | closing
  deriving DecidableEq, Repr

/-- A word, if it has letters, before what follows it; `letters` are in reverse. -/
def endWord (letters : List Char) (rest : List Token) : List Token :=
  match letters with
  | [] => rest
  | _ => .word letters.reverse :: rest

/-- The pieces of a line, `letters` being those of the word under way; a comment runs from `;` to the line's end. -/
def tokensOf (letters : List Char) : List Char → List Token
  | [] => endWord letters []
  | c :: rest =>
    if c = ';' then endWord letters []
    else if c = ' ' ∨ c = '\t' then endWord letters (tokensOf [] rest)
    else if c = ',' then endWord letters (.comma :: tokensOf [] rest)
    else if c = '[' then endWord letters (.opening :: tokensOf [] rest)
    else if c = ']' then endWord letters (.closing :: tokensOf [] rest)
    else tokensOf (c :: letters) rest

/-! ## Numbers -/

/-- The value of a digit. -/
def digitOf (base : Nat) (c : Char) : Option Nat :=
  let v :=
    if 48 ≤ c.toNat ∧ c.toNat ≤ 57 then c.toNat - 48
    else if 97 ≤ c.toNat ∧ c.toNat ≤ 102 then c.toNat - 87
    else if 65 ≤ c.toNat ∧ c.toNat ≤ 70 then c.toNat - 55
    else base
  if v < base then some v else none

/-- Digits read after the value `v`. -/
def digitsFrom (base v : Nat) : List Char → Option Nat
  | [] => some v
  | c :: rest =>
    match digitOf base c with
    | some d => digitsFrom base (v * base + d) rest
    | none => none

/-- A number of at least one digit. -/
def digitsOf (base : Nat) : List Char → Option Nat
  | [] => none
  | cs => digitsFrom base 0 cs

/-- A number written `0xNN` or in decimal. -/
def naturalOf : List Char → Option Nat
  | '0' :: 'x' :: cs => digitsOf 16 cs
  | cs => digitsOf 10 cs

/-- An operand of a request: an integer (R80). -/
def integerOf : List Char → Option Int
  | '-' :: cs => (naturalOf cs).map fun n => -(n : Int)
  | cs => (naturalOf cs).map fun n => (n : Int)

/-- A flag, 0 or 1. -/
def flagOf : List Char → Option Bool
  | ['0'] => some false
  | ['1'] => some true
  | _ => none

/-- A byte of a list: two bare hexadecimal digits, or `0xNN`. -/
def byteOf (cs : List Char) : Option Byte :=
  match cs with
  | [_, _] => (digitsOf 16 cs).map (BitVec.ofNat 8)
  | ['0', 'x', _, _] => (naturalOf cs).map (BitVec.ofNat 8)
  | _ => none

/-- A level of a list: a number of 4 bits (R10). -/
def levelOf (cs : List Char) : Option BarLevel :=
  match naturalOf cs with
  | some n => if n ≤ 15 then some (BitVec.ofNat 4 n) else none
  | none => none

/-! ## Lists -/

/-- The items up to the closing bracket, and what stands after it; `xN` makes the item before it stand N times. -/
def itemsOf {α : Type} (item : List Char → Option α) (found : List α) : List Token → Option (List α × List Token)
  | .closing :: rest => some (found.reverse, rest)
  | .word ('x' :: cs) :: rest =>
    match found, digitsOf 10 cs with
    | v :: before, some (n + 1) => itemsOf item (List.replicate (n + 1) v ++ before) rest
    | _, _ => none
  | .word cs :: rest =>
    match item cs with
    | some v => itemsOf item (v :: found) rest
    | none => none
  | _ => none

/-! ## Requests -/

/-- The flags of INIT and TRANSFORM, to the line's end. -/
def flagsOf : List Token → Option (Bool × Bool)
  | [.comma, .word m, .comma, .word v] =>
    match flagOf m, flagOf v with
    | some mirror, some reversed => some (mirror, reversed)
    | _, _ => none
  | _ => none

/-- A list that ends the line. -/
def lastItemsOf {α : Type} (item : List Char → Option α) (ts : List Token) : Option (List α) :=
  match itemsOf item [] ts with
  | some (found, []) => some found
  | _ => none

/-- The request of a line's pieces: a mnemonic and its operands (R86). `write` with its list alone is the
pseudo-form with position 0. -/
def requestOfTokens : List Token → Option Request
  | .word ['i', 'n', 'i', 't'] :: .word b :: rest =>
    match integerOf b, flagsOf rest with
    | some brightness, some f => some (.init brightness f.1 f.2)
    | _, _ => none
  | [.word ['s', 'e', 't', 'b'], .word l] => (integerOf l).map .setBrightness
  | .word ['w', 'r', 'i', 't', 'e'] :: .opening :: rest => (lastItemsOf byteOf rest).map (.write 0)
  | .word ['w', 'r', 'i', 't', 'e'] :: .word p :: .comma :: .opening :: rest =>
    match integerOf p, lastItemsOf byteOf rest with
    | some pos, some bytes => some (.write pos bytes)
    | _, _ => none
  | [.word ['c', 'l', 'e', 'a', 'r']] => some .clear
  | [.word ['t', 'e', 'a', 'r', 'd', 'o', 'w', 'n']] => some .teardown
  | .word ['t', 'r', 'a', 'n', 's', 'f', 'o', 'r', 'm'] :: .opening :: rest =>
    match itemsOf levelOf [] rest with
    | some (levels, after) => (flagsOf after).map fun f => .transform levels f.1 f.2
    | none => none
  | [.word ['r', 'e', 'n', 'd', 'e', 'r']] => some .render
  | .word ['p', 'u', 'b', 'l', 'i', 's', 'h'] :: .opening :: rest => (lastItemsOf levelOf rest).map .publish
  | _ => none

/-- The request a line asks for (R86). -/
def assemble (line : List Char) : Option Request := requestOfTokens (tokensOf [] line)

end Sys2Proof.Machine
end

