-- ==== Sys2Proof/Tests/Slice0.lean ====
section
/-! SUPPORT. The model's own tests. Expected values are those of spec/95_test_vectors.md (its vector's name stands
before each) or are written out from the rules. The last part gives, for each statement with hypotheses, a state and
operands that meet them. -/

set_option maxRecDepth 20000

namespace Sys2Proof.Tests

open Sys2Proof.Machine

/-! ## States -/

/-- Every event of a request succeeds. -/
def good : List LineDraw := List.replicate 480 .done

/-- Event `k` fails, its line then at level `x`. -/
def failing (k : Nat) (x : Level) : List LineDraw := List.replicate k .done ++ [.fails x]

/-- The state after reset, with the lines low, the chip's registers zero, and these draws. -/
def off (draws : List LineDraw) : State :=
  { State.reset with
    clk := false
    dio := false
    lineDraws := draws
    rx := { State.reset.rx with chipRam := Vector.replicate 16 0, chipCtrl := 0, addressing := .increment } }

/-- READY at brightness 3, the trace empty, and these draws. -/
def ready (draws : List LineDraw) : State := { off draws with life := .ready, linesHeld := true, bright := 3 }

/-- READY with `12 34` at rows 3 and 4 (vector WR1). -/
def written (draws : List LineDraw) : State := { ready draws with shadow := [(3, 0x12), (4, 0x34)] }

/-- READY with this frame in the slot. -/
def holding (frame : Frame) (draws : List LineDraw) : State := { ready draws with slot := some frame }

/-- A receiver taking its bytes from here. -/
def taking (place : RxPlace) (current : List Byte) : State :=
  { ready good with rx := { (ready good).rx with place := place, current := current } }

/-- What is seen of a next state. -/
def seen {α : Type} (f : State → α) : Host.Outcome State Fault Refusal → Option α
  | .next t => some (f t)
  | .fault _ => none
  | .refused _ => none

/-- The responses, the transmissions on the wire, and the shadow. -/
structure Shown where
  responses : List Completion
  sent : List (List Byte)
  shadow : Memory
  deriving DecidableEq, Repr

/-- What a state shows. -/
def outcome (t : State) : Shown := ⟨t.responses, decodeTrace t.trace false false, t.shadow⟩

/-- The frame of vectors S5, T3 and ENC13. -/
def corners : List BarLevel := [8, 0, 0, 0, 0, 0, 0, 0, 0, 0, 0, 0, 0, 0, 0, 8]

/-- The frame of vector T31 and ENC11. -/
def ramp : List BarLevel := [0, 1, 2, 3, 4, 5, 6, 7, 8, 0, 1, 2, 3, 4, 5, 6]

/-- Sixteen times this level. -/
def flat (v : BarLevel) : Frame := Vector.replicate 16 v

/-! ## WellFormed: one ill-formed term for each check -/

theorem test_ill_init_high : (Instr.init 256 false false).wellFormed = false := by decide
theorem test_ill_init_negative : (Instr.init (-1) false false).wellFormed = false := by decide
theorem test_ill_brightness : (Instr.setBrightness 256).wellFormed = false := by decide
theorem test_ill_position : (Instr.write (-1) [1]).wellFormed = false := by decide
theorem test_ill_data : (Instr.write 0 (List.replicate 256 0)).wellFormed = false := by decide
theorem test_ill_transform : (Instr.transform (corners.take 15) false false).wellFormed = false := by decide
theorem test_ill_publish : (Instr.publish (0 :: corners)).wellFormed = false := by decide

/-! ## Decoding: one word written out for each constructor -/

/-- ENC1 to ENC4, ENC7, ENC8: `0000 0000 00000011 00000000 000000 0 0` and so on. -/
theorem test_decode_operands :
    decodeRequest 0x00030000 [] = .ok (.init 3 false false) ∧ decodeRequest 0x00070002 [] = .ok (.init 7 true false) ∧
      decodeRequest 0x00020001 [] = .ok (.init 2 false true) ∧ decodeRequest 0x10050000 [] = .ok (.setBrightness 5) ∧
      decodeRequest 0x200F0100 [0xFF] = .ok (.write 15 [0xFF]) ∧ decodeRequest 0x20100000 [] = .ok (.write 16 []) := by
  decide

/-- ENC9, ENC10, ENC12. -/
theorem test_decode_plain :
    decodeRequest 0x30000000 [] = .ok .clear ∧ decodeRequest 0x40000000 [] = .ok .teardown ∧
      decodeRequest 0x60000000 [] = .ok .render := by decide

/-- ENC5, ENC6, with bits numbered as the opcode table numbers them. -/
theorem test_decode_table_word :
    decodeTableWord 48 0x341220030200 = some (.write 3 [0x12, 0x34]) ∧
      decodeTableWord 32 0x20001000 = some (.write 0 (List.replicate 16 0)) := by decide

/-- ENC11, ENC14, ENC15. -/
theorem test_decode_frames :
    decodeRequest 0x50000001 [0x10, 0x32, 0x54, 0x76, 0x08, 0x21, 0x43, 0x65] = .ok (.transform ramp false true) ∧
      decodeRequest 0x70000000 [0x10, 0x32, 0x54, 0x76, 0x78, 0x56, 0x34, 0x12] =
        .ok (.publish [0, 1, 2, 3, 4, 5, 6, 7, 8, 7, 6, 5, 4, 3, 2, 1]) ∧
      decodeRequest 0x70000000 [0x09, 0, 0, 0, 0, 0, 0, 0] = .ok (.publish (9 :: List.replicate 15 0)) := by decide

/-- 30_encoding.md's table of wire bytes: `0100_0000`, `0100_0100`, `1100_pppp`, `1000_1bbb`, and a data byte. -/
theorem test_decode_wire :
    decodeTableWord 8 0b01000000 = some .cmdData ∧ decodeTableWord 8 0b01000100 = some .cmdFixedAddr ∧
      decodeTableWord 8 0b11001111 = some (.cmdAddr 15) ∧ decodeTableWord 8 0b10001101 = some (.cmdDispCtrl 5) ∧
      decodeTableWord 8 0b00010010 = some (.data 0x12) ∧ decodeCode (.wire true 0x40) = .ok (.data 0x40) := by decide

/-- Values that are no command: a display-control byte with bit 3 clear, and others (R78). -/
theorem test_decode_reserved :
    decodeCode (.wire false 0x80) = .error (.unknownCommand 0x80) ∧ decodeCommand 0x87 = none ∧
      decodeCommand 0x41 = none ∧ decodeCommand 0xD0 = none ∧ decodeCommand 0x00 = none := by decide

/-- ENC16 to ENC23: the malformed requests, with the field that offends. -/
theorem test_decode_malformed :
    decodeRequest 0x80000000 [] = .error ⟨8, [.op]⟩ ∧ decodeRequest 0xF0000000 [] = .error ⟨15, [.op]⟩ ∧
      decodeRequest 0x31000000 [] = .error ⟨3, [.res1]⟩ ∧ decodeRequest 0x30000004 [] = .error ⟨3, [.res0]⟩ ∧
      decodeRequest 0x10050100 [] = .error ⟨1, [.n]⟩ ∧ decodeRequest 0x30000002 [] = .error ⟨3, [.m]⟩ ∧
      decodeRequest 0x20000200 [0xAA] = .error ⟨2, [.payload 1]⟩ ∧
      decodeRequest 0x50000000 (List.replicate 7 0) = .error ⟨5, [.payload 7]⟩ := by decide

/-- ENC1, ENC5, ENC6, ENC11: the text form. -/
theorem test_assemble :
    assemble "init 3, 0, 0".toList = some (.init 3 false false) ∧
      assemble "write 3, [12 34]   ; rows 3 and 4".toList = some (.write 3 [0x12, 0x34]) ∧
      assemble "write [80 x16]".toList = some (.write 0 (List.replicate 16 0x80)) ∧
      assemble "transform [0 1 2 3 4 5 6 7 8 0 1 2 3 4 5 6], 0, 1".toList = some (.transform ramp false true) := by decide

/-- ENC15, DRV10, ENC9, and lines that are no request. -/
theorem test_assemble_more :
    assemble "publish [9 0 x15]".toList = some (.publish (9 :: List.replicate 15 0)) ∧
      assemble "setb -1".toList = some (.setBrightness (-1)) ∧ assemble "clear".toList = some .clear ∧
      assemble "write 3, [123]".toList = none ∧ assemble "clear 1".toList = none := by decide

/-! ## The wire bytes at the receiver -/

/-- WR1 under INCREMENT: the burst `C3 12 34`, byte by byte. -/
theorem test_burst_increment :
    seen (fun t => (t.rx.chipRam[3]?, t.rx.chipRam[4]?, t.rx.place)) (Sys2Proof.core.run 3 (taking .first [0xC3, 0x12, 0x34])) =
      some (some 0x12, some 0x34, .first) := by decide

/-- WR1 under FIXED: row 3 takes the last byte. -/
theorem test_burst_fixed :
    seen (fun t => (t.rx.chipRam[3]?, t.rx.chipRam[4]?))
      (Sys2Proof.core.run 3 { taking .first [0xC3, 0x12, 0x34] with
        rx := { (taking .first [0xC3, 0x12, 0x34]).rx with addressing := .fixed } }) = some (some 0x34, some 0) := by decide

/-- A control byte of its own (R149), and mode commands. -/
theorem test_control :
    seen (fun t => t.rx.chipCtrl) (step (taking .first [0x8D])) = some 0x8D ∧
      seen (fun t => t.rx.unknowns) (step (taking .first [0x40])) = some 0 ∧
      seen (fun t => t.rx.unknowns) (step (taking .first [0x44])) = some 0 := by decide

/-- R149's "any other": the receiver's state becomes unknown. FLT1's `[C4]` is one such. -/
theorem test_receiver_lost :
    seen (fun t => (t.rx.unknowns, t.rx.current)) (step (taking .first [0xC4])) = some (1, []) ∧
      seen (fun t => (t.rx.unknowns, t.rx.current)) (step (taking .first [0x40, 1])) = some (1, []) ∧
      seen (fun t => (t.rx.unknowns, t.rx.current)) (step (taking .first [0x80])) = some (1, []) := by decide

/-- A data byte past row 15 goes nowhere (R149). -/
theorem test_data_edge :
    seen (fun t => (t.rx.chipRam[15]?, t.rx.place)) (exec (.data 7) (taking (.row 15) [1])) = some (some 7, .row 16) ∧
      seen (fun t => t.rx.chipRam.toList) (exec (.data 7) (taking (.row 16) [])) = some (List.replicate 16 0) := by decide

/-! ## The requests -/

/-- DRV3: `init 7, 1, 0`; and DRV5, `init -1, 0, 0`. -/
theorem test_init :
    seen (fun t => (outcome t, t.life, t.bright, t.cfgMirror, t.cfgReversed)) (exec (.init 7 true false) (off good)) =
      some (⟨[⟨.ok [], 62⟩], [[0x40], [0x8F]], []⟩, .ready, 7, true, false) ∧
    seen (fun t => (outcome t, t.life)) (exec (.init (-1) false false) (off good)) =
      some (⟨[⟨.invalidBrightness (-1), 0⟩], [], []⟩, .off) := by decide

/-- FLT8: INIT's first event fails; the engine is RELEASED. -/
theorem test_init_fails :
    seen (fun t => (t.responses, t.life, t.linesHeld, t.trace)) (exec (.init 1 false false) (off (failing 0 true))) =
      some ([⟨.lineIOError .dio 0, 1⟩], .released, false, [(.dio, true)]) := by decide

/-- S1 and DRV7, DRV9: brightness 3 to 5, 3 to 3, and 8. -/
theorem test_set_brightness :
    seen (fun t => (outcome t, t.bright)) (exec (.setBrightness 5) (ready good)) = some (⟨[⟨.ok [], 31⟩], [[0x8D]], []⟩, 5) ∧
      seen outcome (exec (.setBrightness 3) (ready good)) = some ⟨[⟨.ok [], 0⟩], [], []⟩ ∧
      seen outcome (exec (.setBrightness 8) (ready good)) = some ⟨[⟨.invalidBrightness 8, 0⟩], [], []⟩ := by decide

/-- FLT4: event 10 fails and the new level stays. -/
theorem test_set_brightness_fails :
    seen (fun t => (t.responses, t.bright, t.phase, t.rx.cut)) (exec (.setBrightness 5) (ready (failing 10 false))) =
      some ([⟨.lineIOError .dio 10, 11⟩], 5, .idle, true) := by decide

/-- WR1, WR2, WR5, WR7. -/
theorem test_write :
    seen outcome (exec (.write 3 [0x12, 0x34]) (ready good)) =
      some ⟨[⟨.ok [], 141⟩], [[0x44], [0xC3, 0x12, 0x34], [0x8B]], [(3, 0x12), (4, 0x34)]⟩ ∧
    seen outcome (exec (.write 3 [0x12, 0x34]) (written good)) = some ⟨[⟨.ok [], 0⟩], [], [(3, 0x12), (4, 0x34)]⟩ ∧
    seen outcome (exec (.write 15 [0xAA, 0xBB]) (ready good)) = some ⟨[⟨.bufferOverflow 15 2, 0⟩], [], []⟩ ∧
    seen outcome (exec (.write 16 (List.replicate 20 0)) (ready good)) = some ⟨[⟨.invalidPosition 16, 0⟩], [], []⟩ := by
  decide

/-- FLT2: event 70 of `write 4, [3C]` fails at level 0. -/
theorem test_write_fails :
    seen (fun t => (t.responses, t.shadow, t.clk, t.dio)) (exec (.write 4 [0x3C]) (ready (failing 70 false))) =
      some ([⟨.lineIOError .clk 70, 71⟩], [(4, 0x3C)], false, true) := by decide

/-- CLR1; and CLR2 cut off at event 60, the rise of the clock for bit 0 of the first data byte (R205). -/
theorem test_clear :
    seen outcome (exec .clear (ready good)) = some ⟨[⟨.ok [], 0⟩], [], []⟩ ∧
      seen (fun t => (outcome t, t.trace.drop 58)) (exec .clear (written (failing 60 false))) =
        some (⟨[⟨.lineIOError .clk 60, 61⟩], [[0x44]], []⟩, [(.clk, false), (.dio, false), (.clk, false)]) := by decide

/-- FLT7: TEARDOWN's clear fails at event 100, and the response is OK; CLR7: in OFF nothing happens. -/
theorem test_teardown :
    seen (fun t => (t.responses, t.life, t.linesHeld, t.shadow)) (exec .teardown (written (failing 100 true))) =
      some ([⟨.ok [], 101⟩], .released, false, []) ∧
    seen (fun t => (t.responses, t.life)) (exec .teardown (off good)) = some ([⟨.ok [], 0⟩], .off) := by decide

/-- T33: the ramp mirrored; T51: the lowest invalid level. -/
theorem test_transform :
    seen (fun t => t.responses) (exec (.transform ramp true false) (off good)) =
      some [⟨.ok [0x80, 0x80, 0x81, 0x83, 0x87, 0x8F, 0x9F, 0xBF, 0xFE, 0xFC, 0xF8, 0xF0, 0xE0, 0xC0, 0x80, 0x00], 0⟩] ∧
    seen (fun t => t.responses) (exec (.transform ([0, 0, 12, 0, 9] ++ List.replicate 11 0) false false) (off good)) =
      some [⟨.invalidLevel 2 12, 0⟩] := by decide

/-- T31, T32, T34 and S5: mirror and orientation. -/
theorem test_transform_flags :
    transformRows ramp false false =
      [0x00, 0x01, 0x03, 0x07, 0x0F, 0x1F, 0x3F, 0x7F, 0xFD, 0xF9, 0xF1, 0xE1, 0xC1, 0x81, 0x01, 0x01] ∧
    transformRows ramp false true =
      [0x00, 0x80, 0xC0, 0xE0, 0xF0, 0xF8, 0xFC, 0xFE, 0xBF, 0x9F, 0x8F, 0x87, 0x83, 0x81, 0x80, 0x80] ∧
    transformRows ramp true true =
      [0x01, 0x01, 0x81, 0xC1, 0xE1, 0xF1, 0xF9, 0xFD, 0x7F, 0x3F, 0x1F, 0x0F, 0x07, 0x03, 0x01, 0x00] ∧
    transformRows corners false false = List.replicate 16 0x80 := by decide

/-- PR6, the rows of sixteen 2s, cut off at event 60; PR7: a frame with a 9 is gone from the slot. -/
theorem test_render :
    seen (fun t => (t.slot, outcome t)) (exec .render (holding (flat 2) (failing 60 true))) =
      some (none, ⟨[⟨.lineIOError .clk 60, 61⟩], [[0x44]], [(6, 0xFF), (7, 0xFF), (8, 0xFF), (9, 0xFF)]⟩) ∧
    seen (fun t => (t.slot, t.responses)) (exec .render (holding (flat 9) good)) =
      some (none, [⟨.invalidLevel 0 9, 0⟩]) := by decide

/-- PR5 and PR10. -/
theorem test_publish :
    seen (fun t => (t.slot, t.responses)) (exec (.publish (flat 2).toList) (holding (flat 1) good)) =
      some (some (flat 2), [⟨.ok [], 0⟩]) ∧
    seen (fun t => (t.slot, t.responses)) (exec (.publish (corners.take 15)) (holding (flat 1) good)) =
      some (some (flat 1), [⟨.invalidRequest 7 [.frame 15], 0⟩]) := by decide

/-- X1 and X3: InvalidRequest before WrongLifecycle, WrongLifecycle before the operand check. -/
theorem test_priority :
    seen (fun t => t.responses) (step { off good with requests := [.binary 0x80000000 []] }) =
      some [⟨.invalidRequest 8 [.op], 0⟩] ∧
    seen (fun t => t.responses) (exec (.init 9 false false) (ready good)) = some [⟨.wrongLifecycle .ready, 0⟩] := by decide

/-- A request waits for a held lock and stays on the port. -/
theorem test_waits :
    seen (fun t => (t.requests, t.responses)) (step { ready good with lock := .held, requests := [.abstract .clear] }) =
      some ([.abstract .clear], []) := by decide

/-- The first instruction after reset is the one placed. -/
theorem test_first_instruction :
    seen (fun t => (t.slot, t.responses)) (step (State.reset.withFetchWord 96 0x650000000000000070000000)) =
      some (some (Vector.ofFn fun i => if i = 14 then 5 else if i = 15 then 6 else 0), [⟨.ok [], 0⟩]) := by decide

/-! ## The statements' hypotheses are met -/

theorem good_succeeds (n : Nat) (h : n ≤ 480) : eventsSucceed (ready good) n := fun j hj => by
  change ((List.replicate 480 LineDraw.done)[0 + j]?).getD (Config.lineDraw (0 + j)) = .done
  rw [List.getElem?_replicate, if_pos (by omega)]
  rfl

theorem test_meets_DecodeEncodeAgree :
    (Instr.init 255 true true).wellFormed = true ∧ (Instr.write 255 (List.replicate 255 1)).wellFormed = true ∧
      (Instr.transform ramp true false).wellFormed = true ∧ (Instr.publish (flat 15).toList).wellFormed = true := by decide

theorem test_meets_EncodeDecodeAgree :
    [0x12, 0x34].length = payloadLength 0x20030200 ∧ decodeRequest 0x20030200 [0x12, 0x34] = .ok (.write 3 [0x12, 0x34]) ∧
      decodeCommand 0xC0 = some (.cmdAddr 0) ∧ decodeCommand 0x8F = some (.cmdDispCtrl 7) := by decide

theorem test_meets_MalformedRefused :
    let s := { off good with requests := [.binary 0x20000200 [0xAA], .abstract .clear] }
    s.rx.current = [] ∧ s.rx.queue = [] ∧ s.requests = [.binary 0x20000200 [0xAA], .abstract .clear] ∧
      decodeRequest 0x20000200 [0xAA] = .error ⟨2, [.payload 1]⟩ := by decide

theorem test_meets_FramePayloadPacking : (flat 15).toList.length = 16 ∧ 0 < 8 ∧ 7 < 8 := by decide

theorem test_meets_CommandByteAssembly : 0 ≤ 15 ∧ 15 ≤ 15 := by decide

theorem test_meets_PatternBitCount : 0 ≤ 8 ∧ 8 ≤ 8 ∧ 0 < 8 ∧ 7 < 8 := by decide

theorem test_meets_RotationRows : ramp.length = 16 ∧ 0 < 8 ∧ 7 < 8 := by decide

theorem test_meets_MirrorAndOrientation : ramp.length = 16 ∧ ∀ v ∈ ramp, v.toNat ≤ 8 := by decide

theorem test_meets_TransformClosedForm : (ramp.length = 16 ∧ ∀ v ∈ ramp, v.toNat ≤ 8) ∧ 0 < 8 ∧ 7 < 8 := by decide

theorem test_meets_TransformCompletes : corners.length = 16 ∧ ∀ v ∈ corners, v.toNat ≤ 8 := by decide

/-- Only the last level of this frame is invalid. -/
def lastInvalid : List BarLevel := [8, 0, 0, 0, 0, 0, 0, 0, 0, 0, 0, 0, 0, 0, 0, 15]

/-- Two lengths that are not 16; the first index of a frame and the last as its lowest invalid one. -/
theorem test_meets_TransformRefuses :
    ((corners.take 15).length ≠ 16 ∧ (corners ++ corners).length ≠ 16) ∧
      ((flat 9).toList.length = 16 ∧ (flat 9).toList[0]? = some 9) ∧
      (lastInvalid.length = 16 ∧ lastInvalid[15]? = some 15 ∧ (lastInvalid.take 15).all (fun w => w.toNat ≤ 8)) := by
  decide

theorem test_meets_ShiftByteEvents : eventsSucceed (ready good) 24 := good_succeeds 24 (by decide)

theorem test_meets_StopEndsHigh : eventsSucceed (ready good) 4 := good_succeeds 4 (by decide)

/-- The levels before event `j`. -/
def levelsBefore (es : List Event) (j : Nat) (c d : Level) : Level × Level :=
  ((es.take j).foldl clkAfter c, (es.take j).foldl dioAfter d)

/-- One event of each of the three kinds: DIO changes while CLK is high. -/
theorem test_meets_DataStableWhileClockHigh :
    ((txEvents [0x40])[0]? = some (Line.dio, true) ∧ levelsBefore (txEvents [0x40]) 0 true false = (true, false)) ∧
      ((txEvents [0x40])[2]? = some (Line.dio, false) ∧ levelsBefore (txEvents [0x40]) 2 false true = (true, true)) ∧
      ((txEvents [0x40])[30]? = some (Line.dio, true) ∧ levelsBefore (txEvents [0x40]) 30 false false = (true, false)) := by
  decide

theorem test_meets_OnlineDecoderIsReference : (ready good).rx.isOpen = false ∧ (ready good).rx.cut = false := by decide

theorem test_meets_FailedEventCutsTransmission :
    (30 < (sendEvents [[0x40]]).length ∧ eventFails (ready (failing 30 true)) 30 true) ∧
      (0 < (sendEvents [[0x40]]).length ∧ eventFails (ready (failing 0 false)) 0 false) := by
  unfold eventFails eventsSucceed
  decide

theorem test_meets_InitCompletes :
    (off good).lock = .free ∧ (off good).life = .off ∧ (0 : Int) ≤ 7 ∧ (7 : Int) ≤ 7 ∧ eventsSucceed (off good) 62 ∧
      (off good).shadow.wf = true := by
  unfold eventsSucceed
  decide

theorem test_meets_InitLineFailure :
    (off (failing 61 false)).lock = .free ∧ (off (failing 61 false)).life = .off ∧ (0 : Int) ≤ 0 ∧ (0 : Int) ≤ 7 ∧
      61 < 62 ∧ eventFails (off (failing 61 false)) 61 false := by
  unfold eventFails eventsSucceed
  decide

theorem test_meets_InitRefused :
    ((ready good).lock = .free ∧ (ready good).life ≠ .off) ∧
      ((off good).lock = .free ∧ (off good).life = .off ∧ ((-1 : Int) < 0 ∨ (7 : Int) < -1) ∧
        ((8 : Int) < 0 ∨ (7 : Int) < 8)) := by decide

theorem test_meets_RefusedOutsideReady :
    (off good).lock = .free ∧ (off good).life ≠ .ready ∧ ∃ level, Instr.setBrightness 9 = .setBrightness level :=
  ⟨rfl, by decide, 9, rfl⟩

theorem test_meets_ReleasedIsTerminal :
    let s := { ready good with life := .released, requests := [.abstract (.write 0 [1])] }
    s.life = .released ∧ ∃ t, step s = .next t := ⟨rfl, _, rfl⟩

theorem test_meets_FlagsWrittenByInitOnly :
    (∃ t, exec (.init 7 true false) (off good) = .next t) ∧ ∃ t, exec (.setBrightness 3) (ready good) = .next t :=
  ⟨⟨_, rfl⟩, _, rfl⟩

theorem test_meets_SetBrightnessCompletes :
    (ready good).lock = .free ∧ (ready good).life = .ready ∧ (0 : Int) ≤ 7 ∧ (7 : Int) ≤ 7 ∧
      BitVec.ofInt 3 7 ≠ (ready good).bright ∧ eventsSucceed (ready good) 31 :=
  ⟨rfl, rfl, by decide, by decide, by decide, good_succeeds 31 (by decide)⟩

theorem test_meets_SetBrightnessWithoutTraffic :
    ((ready good).lock = .free ∧ (ready good).life = .ready ∧ (3 : Int) = (ready good).bright.toNat) ∧
      ((-1 : Int) < 0 ∨ (7 : Int) < -1) ∧ ((8 : Int) < 0 ∨ (7 : Int) < 8) := by decide

theorem test_meets_SetBrightnessLineFailure :
    (ready (failing 30 true)).lock = .free ∧ (ready (failing 30 true)).life = .ready ∧ (0 : Int) ≤ 0 ∧ (0 : Int) ≤ 7 ∧
      BitVec.ofInt 3 0 ≠ (ready (failing 30 true)).bright ∧ 30 < 31 ∧ eventFails (ready (failing 30 true)) 30 true := by
  unfold eventFails eventsSucceed
  decide

theorem test_meets_WriteCompletes :
    ((ready good).lock = .free ∧ (ready good).life = .ready ∧ 15 ≤ 15 ∧ 15 + [(0xAA : Byte)].length ≤ 16 ∧
      readSlice (ready good).shadow 15 1 ≠ [0xAA] ∧ eventsSucceed (ready good) (93 + 24 * 1) ∧
      (ready good).shadow.wf = true) ∧
    ((written good).lock = .free ∧ (written good).life = .ready ∧ 3 ≤ 15 ∧ 3 + [(0x12 : Byte), 0x34].length ≤ 16 ∧
      readSlice (written good).shadow 3 2 = [0x12, 0x34] ∧ readSlice (written good).shadow 15 0 = []) ∧
    ((ready (failing 0 true)).lock = .free ∧ (ready (failing 0 true)).life = .ready ∧
      readSlice (ready (failing 0 true)).shadow 15 1 ≠ [0xAA] ∧ 0 < 93 + 24 * 1 ∧
      eventFails (ready (failing 0 true)) 0 true) :=
  ⟨⟨rfl, rfl, by decide, by decide, by decide, good_succeeds 117 (by decide), by decide⟩, by decide, by
    unfold eventFails eventsSucceed
    decide⟩

theorem test_meets_WriteRefused :
    ((ready good).lock = .free ∧ (ready good).life = .ready) ∧ ((-1 : Int) < 0 ∨ (15 : Int) < -1) ∧
      ((16 : Int) < 0 ∨ (15 : Int) < 16) ∧ ((0 : Int) ≤ 15 ∧ (15 : Int) ≤ 15 ∧ 16 < (15 : Int) + 2) ∧
      ((0 : Int) ≤ 0 ∧ (0 : Int) ≤ 15 ∧ 16 < (0 : Int) + 17) := by decide

theorem test_meets_WriteLineFailureKeepsShadow :
    (ready (failing 116 false)).shadow.wf = true ∧ (ready (failing 116 false)).lock = .free ∧
      (ready (failing 116 false)).life = .ready ∧ 4 ≤ 15 ∧ 4 + [(0x3C : Byte)].length ≤ 16 ∧
      readSlice (ready (failing 116 false)).shadow 4 1 ≠ [0x3C] ∧ 116 < 93 + 24 * 1 ∧
      eventFails (ready (failing 116 false)) 116 false := by
  unfold eventFails eventsSucceed
  decide

/-- A WRITE that ends in OK, with traffic (and so the state after it). -/
theorem test_meets_WriteIdempotent :
    (ready good).shadow.wf = true ∧ (ready good).lock = .free ∧
      seen (fun t => t.responses) (exec (.write 15 [0xAA]) (ready good)) =
        some ((ready good).responses ++ [⟨.ok [], 117⟩]) := by decide

/-- All events succeed; the last of them fails; and any state in READY. -/
theorem test_meets_ClearCompletes :
    ((written good).lock = .free ∧ (written good).life = .ready ∧ 4 < 16 ∧ readByte (written good).shadow 4 ≠ 0x00 ∧
      eventsSucceed (written good) 477) ∧
    ((written (failing 476 true)).lock = .free ∧ (written (failing 476 true)).life = .ready ∧
      readByte (written (failing 476 true)).shadow 4 ≠ 0x00 ∧ 476 < 477 ∧ eventFails (written (failing 476 true)) 476 true) ∧
    (written good).shadow.wf = true ∧ ∃ t, exec .clear (written good) = .next t :=
  ⟨⟨rfl, rfl, by decide, by decide, (eventsSucceed_congr rfl rfl).2 (good_succeeds 477 (by decide))⟩,
    by unfold eventFails eventsSucceed; decide, by decide, _, rfl⟩

theorem test_meets_ClearOnZeroSkips :
    (ready good).lock = .free ∧ (ready good).life = .ready ∧ ∀ a, a < 16 → readByte (ready good).shadow a = 0x00 := by
  decide

theorem test_meets_TeardownCompletes :
    (written (failing 100 true)).lock = .free ∧ (written (failing 100 true)).life = .ready ∧
      (written (failing 100 true)).shadow.wf = true := by decide

theorem test_meets_TeardownClears :
    (written good).lock = .free ∧ (written good).life = .ready ∧ 3 < 16 ∧ readByte (written good).shadow 3 ≠ 0x00 ∧
      eventsSucceed (written good) 477 :=
  ⟨rfl, rfl, by decide, by decide, (eventsSucceed_congr rfl rfl).2 (good_succeeds 477 (by decide))⟩

theorem test_meets_TeardownOutsideReady : (off good).lock = .free ∧ (off good).life ≠ .ready := by decide

theorem test_meets_PublishCompletes : (holding (flat 1) good).slotLock = .free := rfl

theorem test_meets_PublishRefused : (corners.take 15).length ≠ 16 ∧ (corners ++ corners).length ≠ 16 := by decide

theorem test_meets_RenderCompletes :
    (holding (flat 2) good).lock = .free ∧ (holding (flat 2) good).slotLock = .free ∧
      (holding (flat 2) good).life = .ready ∧ (holding (flat 2) good).slot = some (flat 2) ∧
      (∀ v ∈ (flat 2).toList, v.toNat ≤ 8) ∧
      readSlice (holding (flat 2) good).shadow 0 16 ≠ transformRows (flat 2).toList false false ∧
      eventsSucceed (holding (flat 2) good) 477 :=
  ⟨rfl, rfl, rfl, rfl, by decide, by decide, (eventsSucceed_congr rfl rfl).2 (good_succeeds 477 (by decide))⟩

/-- RENDER's first event fails. -/
theorem test_meets_RenderCompletes_failing :
    let s := holding (flat 2) (failing 0 true)
    (s.lock = .free ∧ s.slotLock = .free ∧ s.life = .ready ∧ s.slot = some (flat 2) ∧ s.shadow.wf = true) ∧
      readSlice s.shadow 0 16 ≠ transformRows (flat 2).toList false false ∧ 0 < 477 ∧ eventFails s 0 true := by
  unfold eventFails eventsSucceed
  decide

/-- An empty slot; a frame whose rows are the shadow's; a frame with an invalid level. -/
theorem test_meets_RenderWithoutTraffic :
    (ready good).slot = none ∧
      ((∀ v ∈ (flat 0).toList, v.toNat ≤ 8) ∧
        readSlice (holding (flat 0) good).shadow 0 16 = transformRows (flat 0).toList false false) ∧
      ((flat 9).toList[0]? = some 9 ∧ 8 < (9 : BarLevel).toNat ∧ (holding (flat 9) good).slot = some (flat 9)) ∧
      (holding (flat 9) good).lock = .free ∧ (holding (flat 9) good).slotLock = .free ∧
      (holding (flat 9) good).life = .ready := by decide

theorem test_meets_LoneCommandsComplete : (taking .first []).rx.place = .first ∧ (taking .first []).rx.current = [] := by
  decide

/-- The address byte; a data byte at row 0, at row 15, and past it. -/
theorem test_meets_BurstBytesComplete :
    ((taking .first [1]).rx.place = .first ∧ (taking .first [1]).rx.current ≠ []) ∧
      ((taking (.row 0) []).rx.place = .row 0 ∧ 0 ≤ 15) ∧ ((taking (.row 15) [1]).rx.place = .row 15 ∧ 15 ≤ 15) ∧
      ((taking (.row 16) []).rx.place = .row 16 ∧ 15 < 16) := by decide

theorem test_meets_MisplacedBytesLoseReceiver :
    ((taking .first [1]).rx.place = .first ∧ (taking .first [1]).rx.current ≠ [] ∧ (taking .first []).rx.current = []) ∧
      ({ (taking .first []).rx with queue := [[]] }.queue = [[]] ∧
        { (taking .first []).rx with queue := [[0x80, 1]] }.queue = [[0x80, 1]] ∧ decodeCommand 0x80 = none) := by decide

theorem test_meets_BytewiseReceiverIsApply :
    let s := { ready good with rx := { (ready good).rx with queue := [[0xC3, 0x12, 0x34], [0x8B]] } }
    s.rx.current = [] ∧ s.rx.queue = [0xC3, 0x12, 0x34] :: [[0x8B]] := by decide

theorem test_meets_BurstPlacement :
    [(0x12 : Byte), 0x34] ≠ [] ∧ 14 + [(0x12 : Byte), 0x34].length ≤ 16 ∧ (ready good).rx.addressing = .increment ∧
      { (ready good).rx with addressing := .fixed }.addressing = .fixed := by decide

theorem test_meets_AbortedTransmissionOutcomes :
    let r := { (ready good).rx with isOpen := true, cut := true, abortDraws := [true, false] }
    (r.isOpen = true ∧ r.cut = true ∧ r.abortDraws[r.aborts]? = some true) ∧
      { r with aborts := 1 }.abortDraws[1]? = some false := by decide

/-- A byte of a transmission under way, the first of the next one, a binary request, and an abstract one. -/
theorem test_meets_StepRunsTheDecoded :
    ((taking (.row 3) [0x12]).rx.current = [0x12] ∧ decodeCode (.wire true 0x12) = .ok (.data 0x12)) ∧
      ((taking .first []).rx.current = [] ∧ decodeCode (.wire false 0xC3) = .ok (.cmdAddr 3)) ∧
      ((off good).rx.queue = [] ∧ decodeCode (.request 0x30000000 []) = .ok .clear) ∧
      { off good with requests := [.abstract .clear] }.requests = [.abstract .clear] := by decide

theorem test_meets_RequestsAreBounded :
    (∃ t, exec (Request.write 15 [0xAA]).toInstr (ready good) = .next t) ∧
      ∃ t, exec Request.clear.toInstr { ready good with lock := .held } = .next t := ⟨⟨_, rfl⟩, _, rfl⟩

/-- A WRITE at position 16; and RENDER's InvalidLevel. -/
theorem test_meets_ValidationErrorsChangeNothing :
    ((ready good).lock = .free ∧ (ready good).slotLock = .free) ∧
      (∃ t, exec (Request.write 16 []).toInstr (ready good) = .next t ∧
        t.responses = (ready good).responses ++ [⟨.invalidPosition 16, 0⟩]) ∧
      (∃ t, exec Request.render.toInstr (holding (flat 9) good) = .next t ∧
        t.responses = (holding (flat 9) good).responses ++ [⟨.invalidLevel 0 9, 0⟩]) ∧
      (validationError (.invalidPosition 16) = true ∧ validationError (.invalidLevel 0 9) = true) ∧
      ∃ bad, decodeRequest 0x80000000 [] = .error bad :=
  ⟨⟨rfl, rfl⟩, ⟨_, rfl, by decide⟩, ⟨_, rfl, by decide⟩, ⟨rfl, rfl⟩, _, rfl⟩

theorem test_meets_AgentsKeepApart :
    (∃ t, exec (Request.setBrightness 5).toInstr (ready good) = .next t) ∧
      ∃ t, exec (.data 7) (taking (.row 15) []) = .next t := ⟨⟨_, rfl⟩, _, rfl⟩

theorem test_meets_OnlyLegalTransmissions :
    (∃ t, exec (Request.write 15 [0xAA]).toInstr (ready good) = .next t) ∧ eventsSucceed (ready good) 477 ∧
      (ready good).rx.isOpen = false ∧ (ready good).rx.cut = false :=
  ⟨⟨_, rfl⟩, good_succeeds 477 (by decide), rfl, rfl⟩

/-- READY after reset with the receiver under FIXED. -/
def fixed (draws : List LineDraw) : State :=
  { ready draws with rx := { (ready draws).rx with addressing := .fixed } }

/-- A request keeps the shadow the chip's: under INCREMENT; under FIXED a WRITE of one byte, a SET_BRIGHTNESS, and a
CLEAR that emits nothing. -/
theorem test_meets_ShadowMatchesChip :
    ((ready good).shadow.wf = true ∧ (ready good).life = .ready ∧ (ready good).lock = .free ∧
      ShadowMatches (ready good) ∧ (ready good).rx.addressing = .increment ∧ eventsSucceed (ready good) 477 ∧
      ∃ t, exec (Request.write 15 [0xAA]).toInstr (ready good) = .next t) ∧
    (ShadowMatches (fixed good) ∧ [(0xAA : Byte)].length ≤ 1 ∧
      (∃ t, exec (Request.setBrightness 5).toInstr (fixed good) = .next t) ∧
      ∃ t, exec Request.clear.toInstr (fixed good) = .next t ∧ t.trace = (fixed good).trace) :=
  ⟨⟨rfl, rfl, rfl, by unfold ShadowMatches BetweenTransmissions RowMatches; decide, rfl, good_succeeds 477 (by decide),
      _, rfl⟩,
    by unfold ShadowMatches BetweenTransmissions RowMatches; decide, by decide, ⟨_, rfl⟩, _, rfl, rfl⟩

/-- INIT over zero rows; a WRITE of one byte under FIXED; and, under INCREMENT, a WRITE of sixteen bytes, a CLEAR and a
RENDER that emit. -/
theorem test_meets_ShadowMatchesChip_establishing :
    (((off good).shadow.wf = true ∧ (off good).life = .off ∧ BetweenTransmissions (off good) ∧
        ∀ i, i < 16 → (caughtUp (off good).rx).chipRam[i]? = some 0x00) ∧
      eventsSucceed (off good) 62 ∧ ∃ t, exec (.init 7 false true) (off good) = .next t) ∧
    (BetweenTransmissions (fixed good) ∧ readSlice (fixed good).shadow 15 1 ≠ [0xAA] ∧
      eventsSucceed (fixed good) (93 + 24 * 1)) ∧
    (BetweenTransmissions (ready good) ∧ (ready good).rx.addressing = .increment ∧ eventsSucceed (ready good) 477) ∧
    (∃ t, exec (Request.write 0 (List.replicate 16 0xAA)).toInstr (ready good) = .next t ∧
      t.trace ≠ (ready good).trace) ∧
    (∃ t, exec Request.clear.toInstr (written good) = .next t ∧ t.trace ≠ (written good).trace) ∧
    ∃ t, exec Request.render.toInstr (holding (flat 2) good) = .next t ∧ t.trace ≠ (holding (flat 2) good).trace :=
  ⟨⟨by unfold BetweenTransmissions; decide, (eventsSucceed_congr rfl rfl).2 (good_succeeds 62 (by decide)), _, rfl⟩,
    ⟨by unfold BetweenTransmissions; decide, by decide, (eventsSucceed_congr rfl rfl).2 (good_succeeds 117 (by decide))⟩,
    ⟨by unfold BetweenTransmissions; decide, rfl, good_succeeds 477 (by decide)⟩,
    ⟨_, rfl, emits_of_not_silent (q := .write 0 (List.replicate 16 0xAA)) rfl rfl fun r u h => by
      cases h with
      | writeLate h => exact h rfl
      | writePosition _ h => exact absurd h (by decide)
      | writeLength _ _ h => exact absurd h (by decide)
      | writeSame _ _ _ h => exact absurd h (by decide)⟩,
    ⟨_, rfl, emits_of_not_silent (q := .clear) rfl rfl fun r u h => by
      cases h with
      | clearLate h => exact h rfl
      | clearZero _ h => exact absurd h (by decide)⟩,
    _, rfl, emits_of_not_silent (q := .render) rfl rfl fun r u h => by
      cases h with
      | renderLate h => exact h rfl
      | renderEmpty _ h => cases h
      | renderLevel _ h h' =>
        cases h
        rw [show firstInvalid 0 (flat 2).toList = none by decide] at h'
        cases h'
      | renderSame _ h _ h' => cases h; exact absurd h' (by decide)⟩

theorem test_meets_StepKeepsInvariant :
    StateInv { ready good with requests := [.abstract (.setBrightness 5)] } ∧
      ∃ t, step { ready good with requests := [.abstract (.setBrightness 5)] } = .next t :=
  ⟨⟨by unfold Quiet; decide, by decide, by decide, by decide, by decide, by decide, by decide⟩, _, rfl⟩

end Sys2Proof.Tests
end

/-! PROOFS. The bitmap transform (41_bitmap_transform.md R100 to R106): the bits of a pattern, the columns of a half,
and the two rotations. -/

namespace Sys2Proof.Machine

/-! ## The patterns and the bit reversal -/

/-- Bit `k` of the reversal is bit `7-k` (R12). -/
theorem getLsbD_bitrev8 (b : Byte) {k : Nat} (h : k < 8) : (bitrev8 b).getLsbD k = b.getLsbD (7 - k) :=
  getLsbD_byteOfBits _ h

/-- The reversal is an involution (R109). -/
@[simp] theorem bitrev8_bitrev8 (b : Byte) : bitrev8 (bitrev8 b) = b := by
  apply BitVec.eq_of_getLsbD_eq
  intro k hk
  rw [getLsbD_bitrev8 _ hk, getLsbD_bitrev8 _ (by omega), show 7 - (7 - k) = k by omega]

/-- The sum of R100 is a run of ones. -/
theorem sum_shifts (v : Nat) : ((List.range v).map fun i => 1 <<< i).sum = 2 ^ v - 1 := by
  induction v with
  | zero => rfl
  | succ v ih =>
    have := Nat.one_le_two_pow (n := v)
    rw [List.range_succ, List.map_append, List.sum_append, ih, List.map_singleton, List.sum_singleton,
      Nat.one_shiftLeft]
    omega

/-- `fill(v)` has the bits below `v` (R100). -/
theorem getLsbD_fill (v : Nat) {k : Nat} (h : k < 8) : (fill v).getLsbD k = decide (k < v) := by
  rw [fill, sum_shifts, BitVec.getLsbD_ofNat, Nat.testBit_two_pow_sub_one]
  simp only [h, decide_true, Bool.true_and]

/-- How many bits of a byte are set. -/
def bitCount (b : Byte) : Nat := ((List.range 8).filter fun i => b.getLsbD i).length

/-- The reversal keeps the bit count (R109): its bits are the byte's, taken from the other end. -/
theorem bitCount_bitrev8 (b : Byte) : bitCount (bitrev8 b) = bitCount b := by
  have hbits : (List.range 8).filter (fun i => (bitrev8 b).getLsbD i) =
      (List.range 8).filter ((fun i => b.getLsbD i) ∘ (7 - ·)) :=
    List.filter_congr fun k hk => getLsbD_bitrev8 b (List.mem_range.1 hk)
  calc bitCount (bitrev8 b)
      = (((List.range 8).map (7 - ·)).filter fun i => b.getLsbD i).length := by
        rw [List.filter_map, List.length_map, bitCount, hbits]
    _ = ((List.range 8).reverse.filter fun i => b.getLsbD i).length := rfl
    _ = bitCount b := by rw [List.filter_reverse, List.length_reverse, bitCount]

/-- `fill(v)` has `v` set bits (R109). -/
theorem bitCount_fill {v : Nat} (h : v ≤ 8) : bitCount (fill v) = v := by
  have hbits : (List.range 8).filter (fun i => (fill v).getLsbD i) = (List.range 8).filter fun i => decide (i < v) :=
    List.filter_congr fun k hk => getLsbD_fill v (List.mem_range.1 hk)
  rw [bitCount, hbits]
  interval_cases v <;> rfl

/-- Settles O8, through what the sum of R100 comes to and the reversal's bits. -/
theorem patternBitCount : Obligations.PatternBitCount :=
  ⟨fun v h => ⟨bitCount_fill h, (bitCount_bitrev8 (fill v)).trans (bitCount_fill h)⟩, bitrev8_bitrev8,
    fun b _ h => getLsbD_bitrev8 b h⟩

/-! ## The halves and their columns -/

/-- A half has eight levels, mirrored or not (R102). -/
theorem length_leftLevels {frame : List BarLevel} (h : frame.length = 16) (mirror : Bool) :
    (leftLevels frame mirror).length = 8 := by
  cases mirror <;> simp [leftLevels, h]

theorem length_rightLevels {frame : List BarLevel} (h : frame.length = 16) (mirror : Bool) :
    (rightLevels frame mirror).length = 8 := by
  cases mirror <;> simp [rightLevels, h]

theorem mem_of_mem_leftLevels {frame : List BarLevel} {mirror : Bool} {v : BarLevel}
    (h : v ∈ leftLevels frame mirror) : v ∈ frame := by
  cases mirror with
  | false => exact List.mem_of_mem_take h
  | true => exact List.mem_of_mem_drop h

theorem mem_of_mem_rightLevels {frame : List BarLevel} {mirror : Bool} {v : BarLevel}
    (h : v ∈ rightLevels frame mirror) : v ∈ frame := by
  cases mirror with
  | false => exact List.mem_of_mem_drop h
  | true => exact List.mem_of_mem_take h

/-- The ROM's entry of a valid level is its pattern (R33, R103). -/
theorem columnOf_valid {v : BarLevel} (h : v.toNat ≤ 8) : columnOf v = pat v.toNat := by
  have hv : v.toNat < 9 := by omega
  simp [columnOf, patTable, hv]

/-- Without orientation a half's columns are the patterns of its levels (R103). -/
theorem columnsOf_false {half : List BarLevel} (h : ∀ v ∈ half, v.toNat ≤ 8) :
    columnsOf half false = half.map fun v => pat v.toNat :=
  List.map_congr_left fun v hv => columnOf_valid (h v hv)

/-- The orientation reverses a half's columns (R103). -/
theorem columnsOf_true (half : List BarLevel) : columnsOf half true = (columnsOf half false).reverse := rfl

@[simp] theorem length_columnsOf (half : List BarLevel) (reversed : Bool) :
    (columnsOf half reversed).length = half.length := by
  cases reversed <;> simp [columnsOf]

/-- Settles O10: the mirror chooses the halves, and each half's columns depend on its own levels alone. -/
theorem mirrorAndOrientation : Obligations.MirrorAndOrientation := by
  intro frame _ hvalid
  refine ⟨⟨rfl, rfl⟩, ⟨rfl, rfl⟩, fun mirror => ⟨?_, ?_, columnsOf_true _, columnsOf_true _⟩⟩
  · exact columnsOf_false fun v hv => hvalid v (mem_of_mem_leftLevels hv)
  · exact columnsOf_false fun v hv => hvalid v (mem_of_mem_rightLevels hv)

/-! ## The rotations and the concatenation -/

/-- The left rotation: bit `7-j` of row `i` is bit `i` of column `j` (R104). -/
theorem getLsbD_rowLeft {lb : List Byte} {col : Byte} {j : Nat} (i : Nat) (hj : j < 8) (hcol : lb[j]? = some col) :
    (rowLeft lb i).getLsbD (7 - j) = col.getLsbD i := by
  rw [rowLeft, getLsbD_byteOfBits _ (by omega), show 7 - (7 - j) = j by omega, List.getD_eq_getElem?_getD, hcol,
    Option.getD_some]

/-- The right rotation: bit `j` of row `i` is bit `7-i` of column `j` (R105). -/
theorem getLsbD_rowRight {rb : List Byte} {col : Byte} {j : Nat} (i : Nat) (hj : j < 8) (hcol : rb[j]? = some col) :
    (rowRight rb i).getLsbD j = col.getLsbD (7 - i) := by
  rw [rowRight, getLsbD_byteOfBits _ hj, List.getD_eq_getElem?_getD, hcol, Option.getD_some]

/-- Rows 0 to 7 are the left half's (R106). -/
theorem transformRows_left (frame : List BarLevel) (mirror reversed : Bool) {i : Nat} (h : i < 8) :
    (transformRows frame mirror reversed)[i]? =
      some (rowLeft (columnsOf (leftLevels frame mirror) reversed) i) := by
  rw [transformRows, List.getElem?_append_left (by simpa using h)]
  simp [h]

/-- Rows 8 to 15 are the right half's (R106). -/
theorem transformRows_right (frame : List BarLevel) (mirror reversed : Bool) {i : Nat} (h : i < 8) :
    (transformRows frame mirror reversed)[8 + i]? =
      some (rowRight (columnsOf (rightLevels frame mirror) reversed) i) := by
  rw [transformRows, List.getElem?_append_right (by simp)]
  simp [h]

/-- A half of eight levels has a column `j` below 8. -/
theorem exists_column {half : List BarLevel} (reversed : Bool) {j : Nat} (h : half.length = 8) (hj : j < 8) :
    ∃ col, (columnsOf half reversed)[j]? = some col :=
  ⟨_, List.getElem?_eq_getElem (by simpa [h] using hj)⟩

/-- Settles O9: each row is found in its half, and its bit by that half's rotation. -/
theorem rotationRows : Obligations.RotationRows := by
  intro frame mirror reversed hlen
  refine ⟨length_transformRows frame mirror reversed, fun i j hi hj => ⟨?_, ?_⟩⟩
  · obtain ⟨col, hcol⟩ := exists_column reversed (length_leftLevels hlen mirror) hj
    exact ⟨_, col, transformRows_left frame mirror reversed hi, hcol, getLsbD_rowLeft i hj hcol⟩
  · obtain ⟨col, hcol⟩ := exists_column reversed (length_rightLevels hlen mirror) hj
    exact ⟨_, col, transformRows_right frame mirror reversed hi, hcol, getLsbD_rowRight i hj hcol⟩

end Sys2Proof.Machine

/-! PROOFS. The wire procedures SHIFT_BYTE and STOP (42_wire_framing.md R134, R135): where the events of a bit stand
among a byte's, and the state each procedure leaves. -/

namespace Sys2Proof.Machine

/-! ## The events of a byte, bit by bit -/

theorem length_bitEvents (b : Byte) (k : Nat) : (bitEvents b k).length = 3 := rfl

/-- A bit ends with CLK high, whatever CLK was (R134). -/
@[simp] theorem foldl_clkAfter_bitEvents (b : Byte) (k : Nat) (c : Level) : (bitEvents b k).foldl clkAfter c = true :=
  rfl

/-- A bit ends with DIO at the bit's value, whatever DIO was (R134). -/
@[simp] theorem foldl_dioAfter_bitEvents (b : Byte) (k : Nat) (d : Level) :
    (bitEvents b k).foldl dioAfter d = b.getLsbD k := rfl

/-- Each bit is three events (R134). -/
theorem length_flatMap_bitEvents (b : Byte) (ks : List Nat) : (ks.flatMap (bitEvents b)).length = 3 * ks.length := by
  induction ks with
  | nil => rfl
  | cons k ks ih =>
    rw [List.flatMap_cons, List.length_append, length_bitEvents, ih, List.length_cons]
    omega

/-- The first `3k` events are those of the bits below `k`, and bit `k`'s three follow (R134). -/
theorem shiftEvents_split (b : Byte) {k : Nat} (h : k < 8) :
    ∃ before after, shiftEvents b = before ++ bitEvents b k ++ after ∧ before.length = 3 * k := by
  have hrange : List.range 8 = List.range k ++ [k] ++ (List.range (7 - k)).map (k + 1 + ·) := by
    rw [← List.range_succ, ← List.range_add, show k + 1 + (7 - k) = 8 by omega]
  refine ⟨(List.range k).flatMap (bitEvents b), ((List.range (7 - k)).map (k + 1 + ·)).flatMap (bitEvents b), ?_, ?_⟩
  · rw [shiftEvents, hrange, List.flatMap_append, List.flatMap_append, List.flatMap_singleton]
  · rw [length_flatMap_bitEvents, List.length_range]

/-- Bit `k`'s events are events `3k` to `3k+2` of the byte's (R134). -/
theorem shiftEvents_eq_take_drop (b : Byte) {k : Nat} (h : k < 8) :
    shiftEvents b = (shiftEvents b).take (3 * k) ++ bitEvents b k ++ (shiftEvents b).drop (3 * k + 3) := by
  obtain ⟨before, after, heq, hlen⟩ := shiftEvents_split b h
  have htake : (shiftEvents b).take (3 * k) = before := by
    rw [heq, List.append_assoc, List.take_left' hlen]
  have hdrop : (shiftEvents b).drop (3 * k + 3) = after := by
    rw [heq, List.drop_left' (by rw [List.length_append, hlen, length_bitEvents])]
  rw [htake, hdrop, heq]

/-- Bit 7 is the last of a byte (R134). -/
theorem shiftEvents_last (b : Byte) : shiftEvents b = (List.range 7).flatMap (bitEvents b) ++ bitEvents b 7 := by
  rw [shiftEvents, List.range_succ, List.flatMap_append, List.flatMap_singleton]

/-- A byte ends with CLK high (R52). -/
@[simp] theorem foldl_clkAfter_shiftEvents (b : Byte) (c : Level) : (shiftEvents b).foldl clkAfter c = true := by
  rw [shiftEvents_last, List.foldl_append, foldl_clkAfter_bitEvents]

/-- A byte ends with DIO at its most significant bit (R134). -/
@[simp] theorem foldl_dioAfter_shiftEvents (b : Byte) (d : Level) :
    (shiftEvents b).foldl dioAfter d = b.getLsbD 7 := by
  rw [shiftEvents_last, List.foldl_append, foldl_dioAfter_bitEvents]

/-! ## SHIFT_BYTE and STOP -/

/-- SHIFT_BYTE whose every event succeeds drives the byte's events, and ends with bitidx 8 (R52, R134). -/
theorem runOps_shiftByte (b : Byte) {s : State} (h : eventsSucceed s (shiftEvents b).length) :
    runOps (shiftByteOps b) s = ({ driven (shiftEvents b) s with shreg := b, bitidx := 8 }, none) := by
  rw [runOps_done _ _ (by rw [opsEvents_shiftByte]; exact h), opsEvents_shiftByte, opsRegs_shiftByte]
  rfl

/-- Settles O14: the run is `runOps_done`'s, the positions are `shiftEvents_eq_take_drop`, and the last bit sets the
final levels. -/
theorem shiftByteEvents : Obligations.ShiftByteEvents := fun s b h =>
  ⟨runOps_shiftByte b h, length_shiftEvents b, fun _ hk => shiftEvents_eq_take_drop b hk,
    foldl_clkAfter_shiftEvents b s.clk, foldl_dioAfter_shiftEvents b s.dio⟩

theorem opsEvents_stop (b : Byte) : opsEvents b stopOps = stopEvents := rfl

theorem opsRegs_stop (p n) (b : Byte) : opsRegs p n b stopOps = (.idle, 0, b) := rfl

/-- STOP whose every event succeeds drives its four events, and the protocol is idle (R135). -/
theorem runOps_stop {s : State} (h : eventsSucceed s stopEvents.length) :
    runOps stopOps s = ({ driven stopEvents s with phase := .idle, bitidx := 0 }, none) := by
  rw [runOps_done _ _ (by rw [opsEvents_stop]; exact h), opsEvents_stop, opsRegs_stop]
  rfl

/-- STOP leaves CLK high, whatever it was (R135). -/
@[simp] theorem foldl_clkAfter_stopEvents (c : Level) : stopEvents.foldl clkAfter c = true := rfl

/-- STOP leaves DIO high, whatever it was (R135). -/
@[simp] theorem foldl_dioAfter_stopEvents (d : Level) : stopEvents.foldl dioAfter d = true := rfl

/-- Settles O15: the run is `runOps_stop`, whose events leave both lines high. -/
theorem stopEndsHigh : Obligations.StopEndsHigh := by
  intro s h
  rw [runOps_stop h, driven, foldl_clkAfter_stopEvents, foldl_dioAfter_stopEvents, stopEvents]

end Sys2Proof.Machine

/-! PROOFS. WRITE in READY (43_driver_operations.md R167): how many events its transmissions are, what a WRITE of a
slice the shadow has comes to, and its three paths. -/

namespace Sys2Proof.Machine

/-! ## How many events a WRITE sends (R139) -/

theorem length_flatMap_shiftEvents (bytes : List Byte) : (bytes.flatMap shiftEvents).length = 24 * bytes.length := by
  induction bytes with
  | nil => rfl
  | cons b bytes ih =>
    rw [List.flatMap_cons, List.length_append, length_shiftEvents, ih, List.length_cons]
    omega

/-- START is three events, STOP four, and each byte 24 (R139). -/
theorem length_txEvents (bytes : List Byte) : (txEvents bytes).length = 7 + 24 * bytes.length := by
  rw [txEvents, List.length_append, List.length_append, length_flatMap_shiftEvents]
  simp only [startEvents, stopEvents, List.length_cons, List.length_nil]
  omega

/-- A WRITE of `n` bytes is two commands of 31 events and a burst of `31 + 24n` (R139). -/
theorem length_sendEvents_writeSends (pos : Nat) (bytes : List Byte) (bright : Brightness) :
    (sendEvents (writeSends pos bytes bright)).length = 93 + 24 * bytes.length := by
  simp only [sendEvents, writeSends, List.flatMap_cons, List.flatMap_nil, List.length_append, length_txEvents,
    List.length_cons, List.length_nil]
  omega

/-- The failed event is the last of those that happened (R205). -/
theorem length_failingAt {events : List Event} {k : Nat} (x : Level) (h : k < events.length) :
    (failingAt events k x).length = k + 1 := by
  simp only [failingAt, List.length_append, List.length_take, List.length_map, List.length_drop]
  omega

/-! ## WRITE of a slice the shadow has -/

section WriteOfSlice

variable {s : State} {pos : Nat} {bytes : List Byte}

/-- In READY, a slice of rows 0 to 15 passes WRITE's validation (R166). -/
theorem whenReady_writeRequest (hready : s.life = .ready) (hpos : pos ≤ 15) (hfits : pos + bytes.length ≤ 16) :
    whenReady (writeRequest pos bytes) s = writeBody pos bytes s := by
  have hlegal : positionLegal pos = true := by
    simp only [positionLegal, Bool.and_eq_true, decide_eq_true_eq]
    omega
  have hslice : sliceFits pos bytes.length = true := by
    simp only [sliceFits, decide_eq_true_eq]
    omega
  rw [whenReady_ready hready, writeRequest, if_pos hlegal, if_pos hslice, Int.toNat_natCast]

/-- WRITE of a slice equal to the shadow only responds (R167). -/
theorem exec_write_same (hfree : s.lock = .free) (hready : s.life = .ready) (hpos : pos ≤ 15)
    (hfits : pos + bytes.length ≤ 16) (hsame : readSlice s.shadow pos bytes.length = bytes) :
    exec (.write pos bytes) s = .next (replied (.ok []) 0 s) :=
  engineRequest_replied hfree <|
    (whenReady_writeRequest (s := takeLock s) hready hpos hfits).trans (writeBody_same hpos hfits hsame)

/-- WRITE of a slice that differs sends its three transmissions from the updated shadow, and responds with what that
came to (R167). -/
theorem exec_write_differs (hfree : s.lock = .free) (hready : s.life = .ready) (hpos : pos ≤ 15)
    (hfits : pos + bytes.length ≤ 16) (hdiffers : readSlice s.shadow pos bytes.length ≠ bytes) :
    ∃ u r, exec (.write pos bytes) s = .next (replied r (u.trace.length - s.trace.length) u) ∧
      SendResult s.trace.length (writeSends pos bytes s.bright)
        { s with shadow := writeSlice s.shadow pos bytes } u r := by
  obtain ⟨u, r, hbody, hsent⟩ := writeBody_differs (s := takeLock s) hpos hfits hdiffers
  have hrun := engineRequest_run hfree ((whenReady_writeRequest (s := takeLock s) hready hpos hfits).trans hbody)
  exact ⟨freeLock u, r, hrun, SendResult.freed (s := { s with shadow := writeSlice s.shadow pos bytes }) hfree hsent⟩

/-- Where all its events succeed, the three transmissions are sent (R167). -/
theorem exec_write_succeeds (hfree : s.lock = .free) (hready : s.life = .ready) (hpos : pos ≤ 15)
    (hfits : pos + bytes.length ≤ 16) (hdiffers : readSlice s.shadow pos bytes.length ≠ bytes)
    (hevents : eventsSucceed s (93 + 24 * bytes.length)) :
    exec (.write pos bytes) s = .next (replied (.ok []) (93 + 24 * bytes.length)
      (afterSending (writeSends pos bytes s.bright) { s with shadow := writeSlice s.shadow pos bytes })) := by
  obtain ⟨u, r, hexec, hsent⟩ := exec_write_differs hfree hready hpos hfits hdiffers
  rw [← length_sendEvents_writeSends pos bytes s.bright] at hevents ⊢
  obtain ⟨rfl, rfl⟩ := hsent.of_succeed hevents
  rw [hexec, afterSending_trace, List.length_append, Nat.add_sub_cancel_left]

/-- Where event `k` fails, the transmissions are cut off there, over the updated shadow (R167, R205). -/
theorem exec_write_fails {k : Nat} {x : Level} (hfree : s.lock = .free) (hready : s.life = .ready) (hpos : pos ≤ 15)
    (hfits : pos + bytes.length ≤ 16) (hdiffers : readSlice s.shadow pos bytes.length ≠ bytes)
    (hk : k < 93 + 24 * bytes.length) (hfails : eventFails s k x) :
    ∃ b, exec (.write pos bytes) s = .next (replied
      (.lineIOError (lineOf (sendEvents (writeSends pos bytes s.bright)) k) k) (k + 1)
      (afterCut (writeSends pos bytes s.bright) k x b { s with shadow := writeSlice s.shadow pos bytes })) := by
  obtain ⟨u, r, hexec, hsent⟩ := exec_write_differs hfree hready hpos hfits hdiffers
  rw [← length_sendEvents_writeSends pos bytes s.bright] at hk
  obtain ⟨b, rfl, rfl⟩ := hsent.of_fails hk hfails
  refine ⟨b, ?_⟩
  rw [hexec, afterCut_trace, List.length_append, length_failingAt x hk, Nat.add_sub_cancel_left,
    Nat.add_sub_cancel_left]

end WriteOfSlice

/-- Settles O31: WRITE's three paths, and what a slice written to the shadow reads as. -/
theorem writeCompletes : Obligations.WriteCompletes := by
  refine ⟨fun s pos bytes hfree hready hpos hfits hdiffers hevents => ⟨?_, ?_, ?_⟩,
    fun s pos bytes hfree hready hpos hfits hsame => ?_,
    fun s pos bytes k x hfree hready hpos hfits hdiffers hk hfails => ?_⟩
  · exact exec_write_succeeds hfree hready hpos hfits hdiffers hevents
  · exact fun a houtside => readByte_writeSlice_outside houtside
  · exact readSlice_writeSlice hfits
  · exact exec_write_same hfree hready hpos hfits hsame
  · obtain ⟨b, hexec⟩ := exec_write_fails hfree hready hpos hfits hdiffers hk hfails
    exact ⟨_, _, hexec, rfl, rfl⟩

end Sys2Proof.Machine

/-! PROOFS. Validation errors (60_exceptions.md R201 to R203, R208): WRITE's refusals in READY, and that a request which
ends in a validation error changes nothing but what RENDER takes from the slot. -/

namespace Sys2Proof.Machine

/-! ## WRITE refused (R202, R203) -/

/-- WRITE's request at a position outside 0 to 15 is refused whatever its length (R202). -/
theorem writeRequest_illegal {pos : Int} (bytes : List Byte) (s : State) (hpos : pos < 0 ∨ 15 < pos) :
    writeRequest pos bytes s = .ok (s, .invalidPosition pos) := by
  have hillegal : ¬ positionLegal pos = true := by
    simp only [positionLegal, Bool.and_eq_true, decide_eq_true_eq]
    omega
  rw [writeRequest, if_neg hillegal, raiseError]

/-- WRITE's request from a legal position past row 15 is refused (R203). -/
theorem writeRequest_overflow {pos : Int} {bytes : List Byte} (s : State) (hlow : 0 ≤ pos) (hhigh : pos ≤ 15)
    (hpast : 16 < pos + bytes.length) : writeRequest pos bytes s = .ok (s, .bufferOverflow pos bytes.length) := by
  have hlegal : positionLegal pos = true := by
    simp only [positionLegal, Bool.and_eq_true, decide_eq_true_eq]
    exact ⟨hlow, hhigh⟩
  have hslice : ¬ sliceFits pos bytes.length = true := by
    simp only [sliceFits, decide_eq_true_eq]
    omega
  rw [writeRequest, if_pos hlegal, if_neg hslice, raiseError]

/-- In READY, a WRITE whose request ends with the state it began with only responds. -/
theorem exec_write_replied {pos : Int} {bytes : List Byte} {s : State} {r : Response} (hfree : s.lock = .free)
    (hready : s.life = .ready) (hrequest : writeRequest pos bytes (takeLock s) = .ok (takeLock s, r)) :
    exec (.write pos bytes) s = .next (replied r 0 s) :=
  engineRequest_replied hfree ((whenReady_ready (s := takeLock s) hready).trans hrequest)

/-- Settles O32: WRITE's validation refuses the position first, then the length. -/
theorem writeRefused : Obligations.WriteRefused :=
  ⟨fun s _ bytes hfree hready hpos => exec_write_replied hfree hready (writeRequest_illegal bytes (takeLock s) hpos),
    fun s _ _ hfree hready hlow hhigh hpast =>
      exec_write_replied hfree hready (writeRequest_overflow (takeLock s) hlow hhigh hpast)⟩

/-! ## A validation error changes nothing (R201) -/

/-- Transmissions end in OK or LineIOError, so the request's response is no validation error (R205). -/
theorem SendResult.validationError_answers {start : Nat} {ts : List (List Byte)} {s t : State} {r : Response}
    (h : SendResult start ts s t r) (q : Request) : validationError (answers q r) = false := by
  have hr : validationError r = false := by
    rcases h with ⟨_, _, rfl⟩ | ⟨k, x, b, _, _, _, rfl⟩ <;> rfl
  cases q with
  | teardown => rfl
  | _ => exact hr

/-- A request that ends without an event and in a validation error leaves the state alone, except that RENDER's
InvalidLevel finds the slot emptied (R182, R201). -/
theorem Silent.state_of_validationError {q : Request} {s u : State} {r : Response} (h : Silent q s r u)
    (herror : validationError r = true) :
    u = s ∨ (q = .render ∧ (∃ k v, r = .invalidLevel k v) ∧ u = { s with slot := none }) := by
  cases h with
  | renderLevel => exact .inr ⟨rfl, ⟨_, _, rfl⟩, rfl⟩
  -- the other three that write the state end in OK
  | teardownZero => cases herror
  | renderSame => cases herror
  | publish => cases herror
  | _ => exact .inl rfl

/-- A request whose last recorded response is a validation error ended without an event, in that response. -/
theorem silent_of_validationError {q : Request} {s t : State} {r : Response} {n : Nat}
    (hexec : exec q.toInstr s = .next t) (hresponses : t.responses = s.responses ++ [⟨r, n⟩])
    (herror : validationError r = true) : ∃ u, Silent q s r u ∧ t = replied r 0 u := by
  rcases request_cases hexec with ⟨_, rfl⟩ | ⟨_, ⟨r', u, hsilent, rfl⟩ | ⟨ts, v, u, r', hsends, hsent, rfl⟩⟩
  · simp at hresponses
  · obtain ⟨_, hkept, _⟩ := hsilent.frame
    rw [replied_responses, hkept] at hresponses
    cases List.append_cancel_left hresponses
    exact ⟨u, hsilent, rfl⟩
  · obtain ⟨_, hafter, _⟩ := afterwards_frame q r' u
    obtain ⟨hsending, _⟩ := hsent.frame
    obtain ⟨_, hbefore, _⟩ := hsends.frame
    rw [replied_responses, hafter, hsending, hbefore] at hresponses
    cases List.append_cancel_left hresponses
    rw [hsent.validationError_answers] at herror
    cases herror

/-- A malformed binary request at the head of the port, when the receiver has nothing to take, is answered
InvalidRequest and leaves the port; nothing else changes (R84, R208). -/
theorem step_malformed {s : State} {h : BitVec 32} {payload : List Byte} {rest : List PortRequest} {bad : BadRequest}
    (hcurrent : s.rx.current = []) (hqueue : s.rx.queue = []) (hrequests : s.requests = .binary h payload :: rest)
    (hbad : decodeRequest h payload = .error bad) :
    step s = .next (replied (.invalidRequest bad.op bad.fields) 0 { s with requests := rest }) := by
  have hfetch : fetch s = .badRequest bad { s with requests := rest } := by
    simp only [fetch, hcurrent, hqueue, hrequests, fetchRequest, hbad]
  rw [step, hfetch]
  exact congrArg Host.Outcome.next (respond_silent rfl)

/-- Settles O53: a validation error comes only from a request without an event, which keeps the state or is RENDER's
InvalidLevel; a malformed request is refused before any state is read. -/
theorem validationErrorsChangeNothing : Obligations.ValidationErrorsChangeNothing := by
  refine ⟨fun q s t r n _ _ hexec hresponses herror => ?_, fun s h payload rest bad hcurrent hqueue hrequests hbad =>
    ⟨_, rfl, step_malformed hcurrent hqueue hrequests hbad⟩⟩
  obtain ⟨u, hsilent, rfl⟩ := silent_of_validationError hexec hresponses herror
  rcases hsilent.state_of_validationError herror with rfl | ⟨hrender, hlevel, rfl⟩
  · exact .inl rfl
  · exact .inr ⟨hrender, hlevel, rfl⟩

end Sys2Proof.Machine

/-! PROOFS. The decoder on the wire (42_wire_framing.md R144 to R148): it sees edges only, the receiver's event-by-event
form returns what R147's does, and a transmission sent to its STOP is delivered as its bytes, whatever was on the lines
before it. -/

namespace Sys2Proof.Machine

/-! ## The reference decoder -/

/-- Settles O18, by induction on the trace: an event that is no edge satisfies none of R147's conditions. -/
theorem decoderSeesOnlyEdges : Obligations.DecoderSeesOnlyEdges := by
  suffices h : ∀ (es : List Event) (c d opened : Bool) (bits : List Bool),
      decodeFrom c d opened bits (edgesOf c d es) = decodeFrom c d opened bits es from
    fun trace c d => h trace c d false []
  intro es
  induction es with
  | nil => intros; rfl
  | cons e es ih =>
    intro c d opened bits
    obtain ⟨line, v⟩ := e
    cases line with
    | clk =>
      by_cases hv : v = c
      · subst hv
        simp [edgesOf, decodeFrom, ih]
      · simp only [edgesOf, if_neg hv, decodeFrom, ih]
    | dio =>
      by_cases hv : v = d
      · subst hv
        cases v <;> simp [edgesOf, decodeFrom, ih]
      · simp only [edgesOf, if_neg hv, decodeFrom, ih]

/-- Outside a transmission the samples kept are not read: the next start condition clears them (R147, log 19). -/
theorem decodeFrom_closed (es : List Event) : ∀ (c d : Bool) (bits bits' : List Bool),
    decodeFrom c d false bits es = decodeFrom c d false bits' es := by
  induction es with
  | nil => intros; rfl
  | cons e es ih =>
    intro c d bits bits'
    obtain ⟨line, v⟩ := e
    cases line with
    | clk => simpa [decodeFrom] using ih v d bits bits'
    | dio =>
      simp only [decodeFrom, Bool.and_false, Bool.false_eq_true, if_false]
      rw [ih c v bits bits']

/-- With no transmission cut off, the receiver delivers what R147's decoder returns from its state. -/
theorem rxEvents_queue (es : List Event) : ∀ (c d : Bool) (r : Receiver), r.cut = false →
    (rxEvents c d es r).queue = r.queue ++ decodeFrom c d r.isOpen r.bits es := by
  induction es with
  | nil => intro c d r _; simp [rxEvents, decodeFrom]
  | cons e es ih =>
    intro c d r hcut
    have hcut' : (rxEvent c d e r).cut = false := rxEvents_cut [e] c d r hcut
    rw [rxEvents, ih _ _ _ hcut']
    obtain ⟨line, v⟩ := e
    cases line with
    | clk =>
      by_cases hsample : (!c && v && r.isOpen) = true
      · simp [rxEvent, clkAfter, dioAfter, decodeFrom, hsample]
      · simp [rxEvent, clkAfter, dioAfter, decodeFrom, hsample]
    | dio =>
      by_cases hstart : (c && d && !v) = true
      · cases hopen : r.isOpen with
        | true =>
          simp [rxEvent, clkAfter, dioAfter, decodeFrom, beginTransmission, endTransmission, hstart, hopen, hcut]
        | false => simp [rxEvent, clkAfter, dioAfter, decodeFrom, beginTransmission, hstart, hopen]
      · by_cases hstop : (c && !d && v && r.isOpen) = true
        · simp [rxEvent, clkAfter, dioAfter, decodeFrom, endTransmission, hstart, hstop, hcut,
            decodeFrom_closed es c v [] r.bits]
        · simp [rxEvent, clkAfter, dioAfter, decodeFrom, hstart, hstop]

/-- Settles O20: `rxEvents_queue` for a closed receiver. -/
theorem onlineDecoderIsReference : Obligations.OnlineDecoderIsReference := by
  intro r events c d hclosed hcut
  rw [rxEvents_queue events c d r hcut, hclosed, decodeTrace, decodeFrom_closed events c d r.bits []]

/-! ## What START, the bytes and STOP do to the receiver -/

/-- START opens a transmission without samples, whatever the lines and the decoder were at (R133, R148). -/
theorem rxEvents_start (c d : Level) (r : Receiver) : rxEvents c d startEvents r =
    { rxEvents c d startEvents r with isOpen := true, bits := [], cut := false } := by
  cases c <;> cases d <;> rfl

/-- On a closed receiver START does nothing else. -/
theorem rxEvents_start_closed (c d : Level) {r : Receiver} (h : r.isOpen = false) :
    rxEvents c d startEvents r = { r with isOpen := true, bits := [], cut := false } := by
  cases c <;> cases d <;>
    simp [startEvents, rxEvents, rxEvent, clkAfter, dioAfter, beginTransmission, h]

/-- The samples of a byte (R146). -/
def samplesOf (b : Byte) : List Bool := (List.range 8).map b.getLsbD

/-- The bits of a byte are sampled one by one, from any levels (R134, R147). -/
theorem rxEvents_bitEvents (b : Byte) (ks : List Nat) : ∀ (c d : Level) (r : Receiver), r.isOpen = true →
    rxEvents c d (ks.flatMap (bitEvents b)) r = { r with bits := r.bits ++ ks.map b.getLsbD } := by
  induction ks with
  | nil => intro c d r _; simp [rxEvents]
  | cons k ks ih =>
    intro c d r hopen
    have hbit : rxEvents c d (bitEvents b k) r = { r with bits := r.bits ++ [b.getLsbD k] } := by
      simp [bitEvents, rxEvents, rxEvent, clkAfter, dioAfter, hopen]
    rw [List.flatMap_cons, rxEvents_append, hbit, ih]
    · simp
    · exact hopen

/-- The bytes of a transmission are sampled bit by bit (R134, R147). -/
theorem rxEvents_bytes (bytes : List Byte) : ∀ (c d : Level) (r : Receiver), r.isOpen = true →
    rxEvents c d (bytes.flatMap shiftEvents) r = { r with bits := r.bits ++ bytes.flatMap samplesOf } := by
  induction bytes with
  | nil => intro c d r _; simp [rxEvents]
  | cons b bytes ih =>
    intro c d r hopen
    rw [List.flatMap_cons, rxEvents_append, shiftEvents, rxEvents_bitEvents b _ c d r hopen, ih]
    · simp [samplesOf]
    · exact hopen

/-- STOP closes the transmission and delivers its bytes; its own rise of CLK adds one sample (R135, R147). -/
theorem rxEvents_stop (c d : Level) {r : Receiver} (hopen : r.isOpen = true) (hcut : r.cut = false) :
    rxEvents c d stopEvents r =
      { r with
        isOpen := false
        bits := []
        cut := false
        queue := r.queue ++ [bytesOfSamples (r.bits ++ [false])] } := by
  simp [stopEvents, rxEvents, rxEvent, clkAfter, dioAfter, endTransmission, hopen, hcut]

/-- A byte is made of its samples (R146). -/
theorem bytesOfSamples_samplesOf_append (b : Byte) (rest : List Bool) :
    bytesOfSamples (samplesOf b ++ rest) = b :: bytesOfSamples rest := by
  have hbyte : BitVec.ofBoolListLE [b.getLsbD 0, b.getLsbD 1, b.getLsbD 2, b.getLsbD 3, b.getLsbD 4, b.getLsbD 5,
      b.getLsbD 6, b.getLsbD 7] = b :=
    BitVec.eq_of_getLsbD_eq fun k hk => getLsbD_byteOfBits b.getLsbD hk
  exact congrArg (· :: bytesOfSamples rest) hbyte

/-- The samples of whole bytes, and one sample more, are those bytes (R146, R147). -/
theorem bytesOfSamples_bytes (bytes : List Byte) (b : Bool) :
    bytesOfSamples (bytes.flatMap samplesOf ++ [b]) = bytes := by
  induction bytes with
  | nil => rfl
  | cons x bytes ih => rw [List.flatMap_cons, List.append_assoc, bytesOfSamples_samplesOf_append, ih]

/-! ## Transmissions -/

/-- After START, a transmission's bytes and its STOP deliver it. -/
theorem rxEvents_tx_eq (c d : Level) (t : List Byte) (r : Receiver) : rxEvents c d (txEvents t) r =
    { rxEvents c d startEvents r with
      isOpen := false
      bits := []
      cut := false
      queue := (rxEvents c d startEvents r).queue ++ [t] } := by
  rw [txEvents, rxEvents_append, rxEvents_append, rxEvents_start, rxEvents_bytes _ _ _ _ rfl,
    rxEvents_stop _ _ rfl rfl, List.nil_append, bytesOfSamples_bytes]

/-- A closed receiver is delivered the transmission, and stays closed. -/
theorem rxEvents_tx (c d : Level) (t : List Byte) {r : Receiver} (h : r.isOpen = false) :
    rxEvents c d (txEvents t) r = { r with bits := [], cut := false, queue := r.queue ++ [t] } := by
  rw [rxEvents_tx_eq, rxEvents_start_closed c d h, ← h]

/-- A transmission leaves the decoder closed, with nothing cut off, whatever it was at (R148). -/
theorem rxEvents_tx_closed (c d : Level) (t : List Byte) (r : Receiver) :
    (rxEvents c d (txEvents t) r).isOpen = false ∧ (rxEvents c d (txEvents t) r).cut = false := by
  rw [rxEvents_tx_eq]
  exact ⟨rfl, rfl⟩

theorem sendEvents_cons (t : List Byte) (ts : List (List Byte)) :
    sendEvents (t :: ts) = txEvents t ++ sendEvents ts := rfl

/-- A closed receiver is delivered transmissions sent one after another, and does nothing else. -/
theorem rxEvents_send {ts : List (List Byte)} (hne : ts ≠ []) : ∀ (c d : Level) {r : Receiver}, r.isOpen = false →
    rxEvents c d (sendEvents ts) r = { r with bits := [], cut := false, queue := r.queue ++ ts } := by
  induction ts with
  | nil => exact absurd rfl hne
  | cons t ts ih =>
    intro c d r hclosed
    rw [sendEvents_cons, rxEvents_append, rxEvents_tx c d t hclosed]
    cases ts with
    | nil => rfl
    | cons t' ts =>
      rw [ih (by simp), List.append_assoc, List.singleton_append]
      exact hclosed

/-- Transmissions leave the decoder closed, with nothing cut off, whatever it was at (R148). -/
theorem rxEvents_send_closed {ts : List (List Byte)} (hne : ts ≠ []) : ∀ (c d : Level) (r : Receiver),
    (rxEvents c d (sendEvents ts) r).isOpen = false ∧ (rxEvents c d (sendEvents ts) r).cut = false := by
  induction ts with
  | nil => exact absurd rfl hne
  | cons t ts ih =>
    intro c d r
    rw [sendEvents_cons, rxEvents_append]
    cases ts with
    | nil => exact rxEvents_tx_closed c d t r
    | cons t' ts => exact ih (by simp) _ _ _

/-- Settles O17: what R147's decoder returns is what a closed receiver is delivered (`rxEvents_queue`), and that is
the transmissions (`rxEvents_send`). -/
theorem decoderLaw : Obligations.DecoderLaw := by
  intro ts c d
  have hdelivered := onlineDecoderIsReference State.reset.rx (sendEvents ts) c d rfl rfl
  cases ts with
  | nil => rfl
  | cons t ts =>
    rw [rxEvents_send (by simp) c d rfl] at hdelivered
    exact hdelivered.symm

/-! ## How many events transmissions are, and when DIO moves -/

/-- Settles O16: the lengths of START, of a byte and of STOP add up. -/
theorem transmissionEventCount : Obligations.TransmissionEventCount :=
  ⟨length_txEvents, length_sendEvents_writeSends⟩

/-- Every event on DIO comes with CLK low, whatever CLK was at before. -/
def DioWhileLow (es : List Event) : Prop :=
  ∀ (c : Level) (j : Nat) (v : Level), es[j]? = some (.dio, v) → (es.take j).foldl clkAfter c = false

theorem DioWhileLow.append {es fs : List Event} (h : DioWhileLow es) (h' : DioWhileLow fs) :
    DioWhileLow (es ++ fs) := by
  intro c j v hj
  rcases Nat.lt_or_ge j es.length with hlt | hge
  · rw [List.getElem?_append_left hlt] at hj
    rw [List.take_append_of_le_length hlt.le]
    exact h c j v hj
  · rw [List.getElem?_append_right hge] at hj
    rw [List.take_append, List.take_of_length_le hge, List.foldl_append]
    exact h' _ _ v hj

theorem DioWhileLow.flatMap {α : Type} {f : α → List Event} (h : ∀ x, DioWhileLow (f x)) (xs : List α) :
    DioWhileLow (xs.flatMap f) := by
  induction xs with
  | nil => intro c j v hj; simp at hj
  | cons x xs ih => exact (h x).append ih

/-- A bit's DIO event stands between CLK low and CLK high (R134). -/
theorem dioWhileLow_bitEvents (b : Byte) (k : Nat) : DioWhileLow (bitEvents b k) := by
  intro c j v hj
  match j with
  | 0 => simp [bitEvents] at hj
  | 1 => rfl
  | 2 => simp [bitEvents] at hj
  | j + 3 => simp [bitEvents] at hj

/-- Shifting bytes moves DIO with CLK low only (R134, R137). -/
theorem dioWhileLow_bytes (bytes : List Byte) : DioWhileLow (bytes.flatMap shiftEvents) :=
  DioWhileLow.flatMap (fun b => DioWhileLow.flatMap (dioWhileLow_bitEvents b) _) bytes

/-- Settles O19: between START's three events and STOP's four DIO moves with CLK low (`dioWhileLow_bytes`), and those
seven are looked at one by one. -/
theorem dataStableWhileClockHigh : Obligations.DataStableWhileClockHigh := by
  intro bytes c d j v hj hhigh hchange
  have hlen : (bytes.flatMap shiftEvents).length = 24 * bytes.length := length_flatMap_shiftEvents bytes
  rw [txEvents, List.append_assoc] at hj hhigh hchange
  match j with
  | 0 =>
    obtain rfl : true = v := by simpa [startEvents] using hj
    refine .inl ⟨rfl, by simpa using hhigh, by simpa using hchange, rfl⟩
  | 1 => simp [startEvents] at hj
  | 2 =>
    obtain rfl : false = v := by simpa [startEvents] using hj
    exact .inr (.inl ⟨rfl, rfl⟩)
  | j + 3 =>
    have htake : ∀ es : List Event, (startEvents ++ es).take (j + 3) = startEvents ++ es.take j := fun es => by
      simp [startEvents]
    have hget : ∀ es : List Event, (startEvents ++ es)[j + 3]? = es[j]? := fun es => by simp [startEvents]
    rw [hget] at hj
    rw [htake, List.foldl_append] at hhigh hchange
    rcases Nat.lt_or_ge j (bytes.flatMap shiftEvents).length with hlt | hge
    · rw [List.getElem?_append_left hlt] at hj
      rw [List.take_append_of_le_length hlt.le, dioWhileLow_bytes bytes _ j v hj] at hhigh
      cases hhigh
    · rw [List.getElem?_append_right hge] at hj
      rw [List.take_append, List.take_of_length_le hge, List.foldl_append] at hhigh
      obtain ⟨i, rfl⟩ := Nat.exists_eq_add_of_le hge
      rw [Nat.add_sub_cancel_left] at hj hhigh
      match i with
      | 0 => simp [stopEvents] at hj
      | 1 => simp [stopEvents, clkAfter] at hhigh
      | 2 => simp [stopEvents] at hj
      | 3 =>
        obtain rfl : true = v := by simpa [stopEvents] using hj
        exact .inr (.inr ⟨by omega, rfl⟩)
      | i + 4 => simp [stopEvents] at hj

/-! ## A failed event -/

/-- The events up to a failed one, and that one at the drawn level (R205). -/
theorem failingAt_eq {events : List Event} {k : Nat} {e : Event} (x : Level) (h : events[k]? = some e) :
    failingAt events k x = events.take k ++ [(e.1, x)] := by
  obtain ⟨hk, rfl⟩ := List.getElem?_eq_some_iff.1 h
  rw [failingAt, List.drop_eq_getElem_cons hk]
  rfl

theorem lineOf_eq {events : List Event} {k : Nat} {e : Event} (h : events[k]? = some e) : lineOf events k = e.1 := by
  rw [lineOf, h]
  rfl

/-- Settles O21: the run is `run_send_cut`'s, and its last event is the failed one. -/
theorem failedEventCutsTransmission : Obligations.FailedEventCutsTransmission := by
  intro ts s k x hk hfails
  obtain ⟨b, hrun⟩ := run_send_cut ts s hk hfails
  obtain ⟨⟨line, v⟩, hevent⟩ : ∃ e, (sendEvents ts)[k]? = some e := ⟨_, List.getElem?_eq_getElem hk⟩
  have hlast : failingAt (sendEvents ts) k x = (sendEvents ts).take k ++ [(line, x)] := failingAt_eq x hevent
  rw [lineOf_eq hevent] at hrun
  refine ⟨afterCut ts k x b s, line, v, hevent, hrun, ?_, rfl, rfl, rfl, rfl, rfl, rfl, ?_, ?_⟩
  · rw [afterCut_trace, hlast, List.append_assoc]
  · rintro rfl
    rw [afterCut_clk, hlast, List.foldl_append]
    rfl
  · rintro rfl
    rw [afterCut_dio, hlast, List.foldl_append]
    rfl

end Sys2Proof.Machine

/-! PROOFS. Encoding (30_encoding.md): a header is its fields, the encoder and the decoder are each other's inverse, and
a binary request is refused on R84's conditions alone. -/

namespace Sys2Proof

/-! ## What makes a binary request well formed (R84) -/

/-- R84's conditions, none of which the request meets. -/
structure Accepted (h : BitVec 32) (payload : List Byte) : Prop where
  assigned : (headerOp h).toNat < 8
  res1 : headerRes1 h = 0
  res0 : headerRes0 h = 0
  unusedA : opUsesA (headerOp h) = false → headerA h = 0
  unusedN : opUsesN (headerOp h) = false → headerN h = 0
  unusedM : opUsesFlags (headerOp h) = false → headerM h = false
  unusedV : opUsesFlags (headerOp h) = false → headerV h = false
  enough : payloadLength h ≤ payload.length

theorem offends_eq_nil {field : OffendingField} {check : Bool} : offends field check = [] ↔ check = false := by
  cases check <;> simp [offends]

/-- No field offends exactly when R84 has nothing against the request. -/
theorem offendingFields_eq_nil {h : BitVec 32} {payload : List Byte} :
    offendingFields h payload = [] ↔ Accepted h payload := by
  simp only [offendingFields, List.append_eq_nil_iff, offends_eq_nil]
  constructor
  · rintro ⟨⟨⟨⟨⟨⟨⟨hop, h1⟩, h0⟩, ha⟩, hn⟩, hm⟩, hv⟩, hp⟩
    rw [hop] at ha hn hm hv hp
    exact ⟨by simpa [opReserved] using hop, by simpa using h1, by simpa using h0, by simpa using ha, by simpa using hn,
      by simpa using hm, by simpa using hv, by simpa using hp⟩
  · rintro ⟨hop, h1, h0, ha, hn, hm, hv, hp⟩
    have hknown : opReserved (headerOp h) = false := by simpa [opReserved] using hop
    rw [hknown]
    exact ⟨⟨⟨⟨⟨⟨⟨rfl, by simpa using h1⟩, by simpa using h0⟩, by simpa using ha⟩, by simpa using hn⟩,
      by simpa using hm⟩, by simpa using hv⟩, by simpa using hp⟩

/-- The OPs below 8 are these. -/
theorem op_cases {op : BitVec 4} (h : op.toNat < 8) :
    op = 0 ∨ op = 1 ∨ op = 2 ∨ op = 3 ∨ op = 4 ∨ op = 5 ∨ op = 6 ∨ op = 7 := by
  revert op
  decide

/-- A header of an assigned OP asks for an instruction (R82). -/
theorem requestOf_isSome {h : BitVec 32} (hop : (headerOp h).toNat < 8) (payload : List Byte) :
    ∃ i, requestOf h payload = some i := by
  rcases op_cases hop with ho | ho | ho | ho | ho | ho | ho | ho <;> exact ⟨_, by rw [requestOf, ho]; rfl⟩

theorem decodeRequest_eq_ok {h : BitVec 32} {payload : List Byte} {i : Instr} :
    decodeRequest h payload = .ok i ↔ Accepted h payload ∧ requestOf h payload = some i := by
  rw [decodeRequest_ok_iff, offendingFields_eq_nil]

/-- A binary request is refused exactly when R84 has something against it. -/
theorem decodeRequest_eq_error {h : BitVec 32} {payload : List Byte} :
    (∃ bad, decodeRequest h payload = .error bad) ↔ ¬ Accepted h payload := by
  constructor
  · rintro ⟨bad, hbad⟩ haccepted
    obtain ⟨i, hi⟩ := requestOf_isSome haccepted.assigned payload
    rw [decodeRequest_eq_ok.2 ⟨haccepted, hi⟩] at hbad
    cases hbad
  · intro hnot
    cases hd : decodeRequest h payload with
    | ok i => exact absurd (decodeRequest_eq_ok.1 hd).1 hnot
    | error bad => exact ⟨bad, rfl⟩

/-! ## R84's list, by the OP's number -/

theorem opUsesA_eq_false {op : BitVec 4} : opUsesA op = false ↔ 3 ≤ op.toNat := by
  revert op
  decide

theorem opUsesN_eq_false {op : BitVec 4} : opUsesN op = false ↔ op.toNat ≠ 2 := by
  revert op
  decide

theorem opUsesFlags_eq_false {op : BitVec 4} : opUsesFlags op = false ↔ op.toNat ≠ 0 ∧ op.toNat ≠ 5 := by
  revert op
  decide

/-- Bits [1:0] are M and V (R81). -/
theorem flags_eq_zero {h : BitVec 32} : h.extractLsb' 0 2 = 0 ↔ headerM h = false ∧ headerV h = false := by
  constructor
  · intro hz
    have hbit : ∀ i, (h.extractLsb' 0 2).getLsbD i = false := fun i => by rw [hz]; simp
    exact ⟨by simpa [headerM] using hbit 1, by simpa [headerV] using hbit 0⟩
  · rintro ⟨hm, hv⟩
    apply BitVec.eq_of_getLsbD_eq
    intro i hi
    match i with
    | 0 => simpa [headerV] using hv
    | 1 => simpa [headerM] using hm

/-- The payload is long enough: N bytes for WRITE, 8 for TRANSFORM and PUBLISH (R81). -/
theorem payloadLength_le {h : BitVec 32} {n : Nat} : payloadLength h ≤ n ↔
    ((headerOp h).toNat = 2 → (headerN h).toNat ≤ n) ∧ ((headerOp h).toNat = 5 ∨ (headerOp h).toNat = 7 → 8 ≤ n) := by
  have h2 : headerOp h = 2 ↔ (headerOp h).toNat = 2 := BitVec.toNat_inj.symm
  have h5 : headerOp h = 5 ↔ (headerOp h).toNat = 5 := BitVec.toNat_inj.symm
  have h7 : headerOp h = 7 ↔ (headerOp h).toNat = 7 := BitVec.toNat_inj.symm
  simp only [payloadLength, h2, h5, h7]
  split
  · omega
  · split <;> omega

/-- OP is the header shifted down (R81). -/
theorem headerOp_toNat (h : BitVec 32) : (headerOp h).toNat = (h >>> 28).toNat := by
  have := h.isLt
  simp only [headerOp, BitVec.extractLsb'_toNat, BitVec.toNat_ushiftRight]
  omega

/-- The request is well formed exactly when nothing of R84's list holds of its bits. -/
theorem accepted_iff {h : BitVec 32} {payload : List Byte} : Accepted h payload ↔
    ((h >>> 28).toNat < 8 ∧ h.extractLsb' 24 4 = 0 ∧ h.extractLsb' 2 6 = 0 ∧
      (3 ≤ (h >>> 28).toNat → h.extractLsb' 16 8 = 0) ∧ ((h >>> 28).toNat ≠ 2 → h.extractLsb' 8 8 = 0) ∧
      ((h >>> 28).toNat ≠ 0 → (h >>> 28).toNat ≠ 5 → h.extractLsb' 0 2 = 0) ∧
      ((h >>> 28).toNat = 2 → (h.extractLsb' 8 8).toNat ≤ payload.length) ∧
      ((h >>> 28).toNat = 5 ∨ (h >>> 28).toNat = 7 → 8 ≤ payload.length)) := by
  simp only [← headerOp_toNat, flags_eq_zero]
  constructor
  · rintro ⟨hop, h1, h0, ha, hn, hm, hv, hp⟩
    rw [opUsesA_eq_false] at ha
    rw [opUsesN_eq_false] at hn
    rw [opUsesFlags_eq_false] at hm hv
    exact ⟨hop, h1, h0, ha, hn, fun hne hne' => ⟨hm ⟨hne, hne'⟩, hv ⟨hne, hne'⟩⟩, payloadLength_le.1 hp⟩
  · rintro ⟨hop, h1, h0, ha, hn, hflags, hp⟩
    rw [← opUsesA_eq_false] at ha
    rw [← opUsesN_eq_false] at hn
    exact ⟨hop, h1, h0, ha, hn, fun hu => (hflags (opUsesFlags_eq_false.1 hu).1 (opUsesFlags_eq_false.1 hu).2).1,
      fun hu => (hflags (opUsesFlags_eq_false.1 hu).1 (opUsesFlags_eq_false.1 hu).2).2, payloadLength_le.2 hp⟩

/-- Settles O4: the refused requests are those not `Accepted`, and R84's list is the negation of that, field by
field. -/
theorem malformedExactly : Obligations.MalformedExactly := by
  intro h payload
  rw [decodeRequest_eq_error, accepted_iff]
  simp only [not_and_or, Classical.not_imp, not_lt, not_le, ne_eq]

/-! ## Frames (R83) -/

/-- A frame byte is its two halves. -/
theorem highLevel_append_lowLevel (b : Byte) : b.extractLsb' 4 4 ++ b.extractLsb' 0 4 = b := by
  apply BitVec.eq_of_getLsbD_eq
  intro i hi
  simp only [BitVec.getLsbD_append, BitVec.getLsbD_extractLsb']
  by_cases hlow : i < 4
  · simp [hlow]
  · simp [hlow, show i - 4 < 4 by omega, show 4 + (i - 4) = i by omega]

/-- Packing what was unpacked gives the bytes back. -/
theorem packFrame_unpackFrame (bytes : List Byte) : packFrame (unpackFrame bytes) = bytes := by
  induction bytes with
  | nil => rfl
  | cons b bytes ih => rw [unpackFrame, packFrame, highLevel_append_lowLevel, ih]

/-- Unpacking the payload of an even number of levels gives them back. -/
theorem unpackFrame_packFrame : ∀ {f : List BarLevel}, f.length % 2 = 0 → unpackFrame (packFrame f) = f
  | [], _ => rfl
  | [_], h => by simp at h
  | lo :: hi :: rest, h => by
    rw [packFrame, unpackFrame, lowLevel_append, highLevel_append,
      unpackFrame_packFrame (by simp only [List.length_cons] at h; omega)]

/-- Byte `k` of a payload holds levels `2k` and `2k+1`, the first in the low half. -/
theorem packFrame_getElem? : ∀ {f : List BarLevel} {k : Nat}, 2 * k + 1 < f.length →
    ∃ b, (packFrame f)[k]? = some b ∧ f[2 * k]? = some (b.extractLsb' 0 4) ∧ f[2 * k + 1]? = some (b.extractLsb' 4 4)
  | [], _, h => by simp at h
  | [_], _, h => by simp at h
  | lo :: hi :: rest, 0, _ => ⟨hi ++ lo, rfl, congrArg some (lowLevel_append lo hi).symm,
      congrArg some (highLevel_append lo hi).symm⟩
  | lo :: hi :: rest, k + 1, h => packFrame_getElem? (f := rest) (k := k) (by simp only [List.length_cons] at h; omega)

/-- Settles O6: packing takes the levels two at a time, and so does unpacking. -/
theorem framePayloadPacking : Obligations.FramePayloadPacking := by
  intro f hlen
  refine ⟨?_, unpackFrame_packFrame (by rw [hlen]), fun k hk => packFrame_getElem? (by omega)⟩
  rw [Laws.FixedBits.length_packFrame, hlen]

/-! ## Decoding what was encoded -/

theorem decodeCode_request {h : BitVec 32} {payload : List Byte} {i : Instr} (haccepted : Accepted h payload)
    (hi : requestOf h payload = some i) : decodeCode (.request h payload) = .ok i := by
  rw [decodeCode, decodeRequest_eq_ok.2 ⟨haccepted, hi⟩]

/-- An assembled header is well formed when its OP uses the fields that are not 0 and its payload is long enough. -/
theorem accepted_headerWord {op : BitVec 4} {a n : BitVec 8} {m v : Bool} {payload : List Byte} (hop : op.toNat < 8)
    (ha : opUsesA op = false → a = 0) (hn : opUsesN op = false → n = 0) (hm : opUsesFlags op = false → m = false)
    (hv : opUsesFlags op = false → v = false) (hp : payloadLength (headerWord op a n m v) ≤ payload.length) :
    Accepted (headerWord op a n m v) payload := by
  refine ⟨?_, headerRes1_headerWord op a n m v, headerRes0_headerWord op a n m v, ?_, ?_, ?_, ?_, hp⟩
  · rwa [headerOp_headerWord]
  · rwa [headerOp_headerWord, headerA_headerWord]
  · rwa [headerOp_headerWord, headerN_headerWord]
  · rwa [headerOp_headerWord, headerM_headerWord]
  · rwa [headerOp_headerWord, headerV_headerWord]

/-- A header without a payload of its own. -/
theorem accepted_headerWord_nil {op : BitVec 4} {a : BitVec 8} {m v : Bool} (hop : op.toNat < 8)
    (hlength : payloadLength (headerWord op a 0 m v) = 0)
    (ha : opUsesA op = false → a = 0) (hm : opUsesFlags op = false → m = false)
    (hv : opUsesFlags op = false → v = false) : Accepted (headerWord op a 0 m v) [] :=
  accepted_headerWord hop ha (fun _ => rfl) hm hv (by rw [hlength]; exact Nat.zero_le _)

/-- The payload of a frame is the eight bytes that TRANSFORM and PUBLISH call for (R81, R83). -/
theorem length_packFrame_frame {f : List BarLevel} (h : f.length = 16) : (packFrame f).length = 8 := by
  rw [Laws.FixedBits.length_packFrame, h]

theorem unpackFrame_take_packFrame {f : List BarLevel} (h : f.length = 16) :
    unpackFrame ((packFrame f).take 8) = f := by
  rw [List.take_of_length_le (length_packFrame_frame h).le, unpackFrame_packFrame (by rw [h])]

/-- Every row's address command is read as that row's (R74). -/
theorem decodeCode_cmdAddr (p : BitVec 4) : decodeCode (encode (.cmdAddr p)) = .ok (.cmdAddr p) := by
  revert p
  decide

/-- Every brightness's control command is read as that brightness's (R75). -/
theorem decodeCode_cmdDispCtrl (b : Brightness) : decodeCode (encode (.cmdDispCtrl b)) = .ok (.cmdDispCtrl b) := by
  revert b
  decide

/-- Settles O1, one case for each constructor: the header's fields and the payload give the operands back. -/
theorem decodeEncodeAgree : Obligations.DecodeEncodeAgree := by
  intro i hwf
  cases i with
  | cmdData => rfl
  | cmdFixedAddr => rfl
  | cmdAddr p => exact decodeCode_cmdAddr p
  | cmdDispCtrl b => exact decodeCode_cmdDispCtrl b
  | data d => rfl
  | init b m v =>
    refine decodeCode_request (accepted_headerWord_nil ?_ ?_ ?_ ?_ ?_) ?_
    all_goals simp [payloadLength, requestOf, toNat_ofInt_of_fits hwf, opUsesA, opUsesFlags, -BitVec.toNat_ofInt]
  | setBrightness l =>
    refine decodeCode_request (accepted_headerWord_nil ?_ ?_ ?_ ?_ ?_) ?_
    all_goals simp [payloadLength, requestOf, toNat_ofInt_of_fits hwf, opUsesA, -BitVec.toNat_ofInt]
  | write pos bytes =>
    simp only [Instr.wellFormed, Bool.and_eq_true, decide_eq_true_eq] at hwf
    obtain ⟨hpos, hlen⟩ := hwf
    have hn : (BitVec.ofNat 8 bytes.length).toNat = bytes.length := by
      rw [BitVec.toNat_ofNat]
      omega
    refine decodeCode_request (accepted_headerWord ?_ ?_ ?_ ?_ ?_ ?_) ?_
    all_goals simp [payloadLength, requestOf, toNat_ofInt_of_fits hpos, hn, opUsesA, opUsesN,
      -BitVec.toNat_ofNat, -BitVec.toNat_ofInt]
  | clear => rfl
  | teardown => rfl
  | transform f m v =>
    simp only [Instr.wellFormed, decide_eq_true_eq] at hwf
    refine decodeCode_request (accepted_headerWord ?_ ?_ ?_ ?_ ?_ ?_) ?_
    all_goals simp [payloadLength, requestOf, unpackFrame_take_packFrame hwf, length_packFrame_frame hwf, opUsesFlags]
  | render => rfl
  | publish f =>
    simp only [Instr.wellFormed, decide_eq_true_eq] at hwf
    refine decodeCode_request (accepted_headerWord ?_ ?_ ?_ ?_ ?_ ?_) ?_
    all_goals simp [payloadLength, requestOf, unpackFrame_take_packFrame hwf, length_packFrame_frame hwf]

/-! ## Encoding what was decoded -/

/-- A header whose reserved bits are 0 is the word of its fields. -/
theorem headerWord_fields {h : BitVec 32} (h1 : headerRes1 h = 0) (h0 : headerRes0 h = 0) :
    h = headerWord (headerOp h) (headerA h) (headerN h) (headerM h) (headerV h) := by
  have res1 : ∀ i, i < 4 → h.getLsbD (24 + i) = false := fun i hi => by
    simpa [headerRes1, hi] using congrArg (·.getLsbD i) h1
  have res0 : ∀ i, i < 6 → h.getLsbD (2 + i) = false := fun i hi => by
    simpa [headerRes0, hi] using congrArg (·.getLsbD i) h0
  apply BitVec.eq_of_getLsbD_eq
  intro i hi
  have r1 := res1 (i - 24)
  have r0 := res0 (i - 2)
  simp only [headerWord, headerOp, headerA, headerN, headerM, headerV, BitVec.getLsbD_append,
    BitVec.getLsbD_extractLsb', BitVec.getLsbD_ofBool]
  interval_cases i <;> simp_all

/-- A well-formed header is the word of its fields. -/
theorem Accepted.exists_headerWord {h : BitVec 32} {payload : List Byte} (haccepted : Accepted h payload) :
    ∃ op a n m v, h = headerWord op a n m v :=
  ⟨_, _, _, _, _, headerWord_fields haccepted.res1 haccepted.res0⟩

/-- The operand field A carries what was read from it. -/
theorem ofInt_toNat_field (a : BitVec 8) : BitVec.ofInt 8 (a.toNat : Int) = a := by
  rw [BitVec.ofInt_natCast, BitVec.ofNat_toNat, BitVec.setWidth_eq]

/-- A request of exact length is the encoding of what it decodes to. -/
theorem encode_of_decodeRequest {h : BitVec 32} {payload : List Byte} {i : Instr}
    (hlength : payload.length = payloadLength h) (hi : decodeRequest h payload = .ok i) :
    encode i = .request h payload := by
  obtain ⟨haccepted, hrequest⟩ := decodeRequest_eq_ok.1 hi
  obtain ⟨op, a, n, m, v, rfl⟩ := haccepted.exists_headerWord
  obtain ⟨hop, _, _, ha, hn, hm, hv, _⟩ := haccepted
  simp only [headerOp_headerWord, headerA_headerWord, headerN_headerWord, headerM_headerWord,
    headerV_headerWord] at hop ha hn hm hv
  simp only [payloadLength, headerOp_headerWord, headerN_headerWord] at hlength
  simp only [requestOf, headerOp_headerWord, headerA_headerWord, headerN_headerWord, headerM_headerWord,
    headerV_headerWord] at hrequest
  have hplain : opUsesA op = false → opUsesN op = false → opUsesFlags op = false →
      headerWord op a n m v = headerWord op 0 0 false false := fun hA hN hF => by rw [ha hA, hn hN, hm hF, hv hF]
  rcases op_cases hop with rfl | rfl | rfl | rfl | rfl | rfl | rfl | rfl
  · -- INIT
    cases hrequest
    rw [hn rfl, List.length_eq_zero_iff.1 hlength, encode, ofInt_toNat_field]
  · -- SET_BRIGHTNESS
    cases hrequest
    rw [hn rfl, hm rfl, hv rfl, List.length_eq_zero_iff.1 hlength, encode, ofInt_toNat_field]
  · -- WRITE
    cases hrequest
    replace hlength : payload.length = n.toNat := hlength
    rw [hm rfl, hv rfl, encode, ofInt_toNat_field, List.take_of_length_le hlength.le, hlength,
      BitVec.ofNat_toNat, BitVec.setWidth_eq]
  · -- CLEAR
    cases hrequest
    rw [hplain rfl rfl rfl, List.length_eq_zero_iff.1 hlength]
    rfl
  · -- TEARDOWN
    cases hrequest
    rw [hplain rfl rfl rfl, List.length_eq_zero_iff.1 hlength]
    rfl
  · -- TRANSFORM
    cases hrequest
    replace hlength : payload.length = 8 := hlength
    rw [ha rfl, hn rfl, encode, List.take_of_length_le hlength.le, packFrame_unpackFrame]
  · -- RENDER
    cases hrequest
    rw [hplain rfl rfl rfl, List.length_eq_zero_iff.1 hlength]
    rfl
  · -- PUBLISH
    cases hrequest
    replace hlength : payload.length = 8 := hlength
    rw [hplain rfl rfl rfl, encode, List.take_of_length_le hlength.le, packFrame_unpackFrame]

/-- A byte under the address command's mask is the command at its row (R74). -/
theorem append_of_isAddress {b : Byte} (h : b &&& 0xF0 = 0xC0) : (0xC : BitVec 4) ++ b.extractLsb' 0 4 = b := by
  revert b
  decide

/-- A byte under the display-control command's mask is the command at its brightness (R75). -/
theorem append_of_isControl {b : Byte} (h : b &&& 0xF8 = 0x88) : (0x11 : BitVec 5) ++ b.extractLsb' 0 3 = b := by
  revert b
  decide

/-- Settles O2: a request by `encode_of_decodeRequest`, a command byte by the command it is. -/
theorem encodeDecodeAgree : Obligations.EncodeDecodeAgree := by
  refine ⟨fun h payload i hlength hi => encode_of_decodeRequest hlength hi, fun b i hi => ?_⟩
  rcases Machine.decodeCommand_cases hi with ⟨rfl, rfl⟩ | ⟨rfl, rfl⟩ | ⟨hb, rfl⟩ | ⟨hb, rfl⟩
  · rfl
  · rfl
  · rw [encode, append_of_isAddress hb]
  · rw [encode, append_of_isControl hb]

/-! ## Words and bytes written out -/

/-- Settles O3: each word is decoded. -/
theorem writtenWordsDecode : Obligations.WrittenWordsDecode :=
  ⟨rfl, rfl, rfl, rfl, rfl, rfl, rfl⟩

/-- `0xC0 | pos` is 0b1100 before pos (R74). -/
theorem addressByte_eq_append {pos : Nat} (h : pos ≤ 15) :
    Machine.addressByte pos = (0b1100 : BitVec 4) ++ BitVec.ofNat 4 pos := by
  interval_cases pos <;> rfl

/-- `0x80 | 0x08 | bright` is 0b10001 before bright (R75). -/
theorem controlByte_eq_append (b : Brightness) : Machine.controlByte b = (0b10001 : BitVec 5) ++ b := by
  revert b
  decide

/-- The fixed high bits of an address byte give its range. -/
theorem toNat_addressByte_range (p : BitVec 4) :
    0xC0 ≤ ((0b1100 : BitVec 4) ++ p).toNat ∧ ((0b1100 : BitVec 4) ++ p).toNat ≤ 0xCF := by
  revert p
  decide

/-- The fixed high bits of a control byte give its range, and have the display on. -/
theorem toNat_controlByte_range (b : Brightness) : 0x88 ≤ ((0b10001 : BitVec 5) ++ b).toNat ∧
    ((0b10001 : BitVec 5) ++ b).toNat ≤ 0x8F ∧ ((0b10001 : BitVec 5) ++ b).getLsbD 3 = true := by
  revert b
  decide

/-- Settles O7: both are concatenations, whose ranges are those of the fixed high bits. -/
theorem commandByteAssembly : Obligations.CommandByteAssembly := by
  refine ⟨fun pos hpos => ⟨rfl, addressByte_eq_append hpos, ?_⟩, fun b => ⟨rfl, controlByte_eq_append b, ?_⟩⟩
  · rw [addressByte_eq_append hpos]
    exact toNat_addressByte_range _
  · rw [controlByte_eq_append]
    exact toNat_controlByte_range b

end Sys2Proof

/-! PROOFS. The transform's closed form and TRANSFORM's responses (41_bitmap_transform.md R107, R111). -/

namespace Sys2Proof.Machine

/-! ## The closed form (R111) -/

/-- A half's levels after the orientation reversal (R111). -/
def orientedLevels (half : List BarLevel) (reversed : Bool) : List BarLevel :=
  if reversed then half.reverse else half

/-- The columns are those of the oriented levels: the lookup and the reversal commute (R103). -/
theorem columnsOf_eq_map (half : List BarLevel) (reversed : Bool) :
    columnsOf half reversed = (orientedLevels half reversed).map columnOf := by
  cases reversed with
  | false => rfl
  | true => exact List.map_reverse.symm

/-- Bit `k` of a valid level's column is set when the level reaches `8-k` (R100, R103). -/
theorem getLsbD_columnOf {v : BarLevel} (hv : v.toNat ≤ 8) {k : Nat} (hk : k < 8) :
    (columnOf v).getLsbD k = true ↔ 8 - k ≤ v.toNat := by
  rw [columnOf_valid hv, pat, getLsbD_bitrev8 _ hk, getLsbD_fill _ (by omega), decide_eq_true_eq]
  omega

/-- A half of eight valid levels has a valid level `j`, whose column is column `j`. -/
theorem exists_level {half : List BarLevel} (reversed : Bool) {j : Nat} (hlen : half.length = 8) (hj : j < 8)
    (hvalid : ∀ v ∈ half, v.toNat ≤ 8) :
    ∃ v, (orientedLevels half reversed)[j]? = some v ∧ (columnsOf half reversed)[j]? = some (columnOf v) ∧
      v.toNat ≤ 8 := by
  have hj' : j < (orientedLevels half reversed).length := by
    cases reversed <;> simp [orientedLevels, hlen, hj]
  have hmem : (orientedLevels half reversed)[j] ∈ half := by
    cases reversed <;> simp [orientedLevels]
  refine ⟨_, List.getElem?_eq_getElem hj', ?_, hvalid _ hmem⟩
  rw [columnsOf_eq_map, List.getElem?_map, List.getElem?_eq_getElem hj']
  rfl

/-- Settles O11: each row is found in its half, its bit is a bit of the column `j`, and that column is the pattern of
the oriented level `j`. -/
theorem transformClosedForm : Obligations.TransformClosedForm := by
  intro frame mirror reversed hlen hvalid i j hi hj
  obtain ⟨l, hl, hlcol, hl8⟩ := exists_level reversed (length_leftLevels hlen mirror) hj
    fun v hv => hvalid v (mem_of_mem_leftLevels hv)
  obtain ⟨r, hr, hrcol, hr8⟩ := exists_level reversed (length_rightLevels hlen mirror) hj
    fun v hv => hvalid v (mem_of_mem_rightLevels hv)
  refine ⟨_, _, l, r, transformRows_left frame mirror reversed hi, transformRows_right frame mirror reversed hi, hl, hr,
    ?_, ?_⟩
  · rw [getLsbD_rowLeft i hj hlcol, getLsbD_columnOf hl8 hi]
  · rw [getLsbD_rowRight i hj hrcol, getLsbD_columnOf hr8 (by omega), show 8 - (7 - i) = i + 1 by omega]

/-! ## TRANSFORM (R107) -/

/-- TRANSFORM only responds, whatever the state. -/
theorem exec_transform (frame : List BarLevel) (mirror reversed : Bool) (s : State) :
    exec (.transform frame mirror reversed) s = .next (replied (transformResponse frame mirror reversed) 0 s) :=
  congrArg Host.Outcome.next (respond_silent rfl)

/-- A list of another length is no frame (R107, R208). -/
theorem transformResponse_of_ne {frame : List BarLevel} (mirror reversed : Bool) (h : frame.length ≠ 16) :
    transformResponse frame mirror reversed = .invalidRequest 5 [.frame frame.length] := by
  simp [transformResponse, transformFrame, Config.nLevels, h]

/-- Sixteen valid levels are transformed (R107). -/
theorem transformResponse_valid {frame : List BarLevel} (mirror reversed : Bool) (h : frame.length = 16)
    (hvalid : ∀ v ∈ frame, v.toNat ≤ 8) :
    transformResponse frame mirror reversed = .ok (transformRows frame mirror reversed) := by
  simp [transformResponse, transformFrame, Config.nLevels, h, firstInvalid_none.2 hvalid]

/-- Of sixteen levels the lowest invalid one is reported (R101, R107). -/
theorem transformResponse_invalid {frame : List BarLevel} (mirror reversed : Bool) {k : Nat} {v : BarLevel}
    (h : frame.length = 16) (hfirst : firstInvalid 0 frame = some (k, v)) :
    transformResponse frame mirror reversed = .invalidLevel k v := by
  simp [transformResponse, transformFrame, Config.nLevels, h, hfirst]

/-- The lowest invalid level, counted from index 0. -/
theorem firstInvalid_zero {levels : List BarLevel} {k : Nat} {v : BarLevel} (hk : levels[k]? = some v)
    (hv : 8 < v.toNat) (hlowest : ∀ j w, j < k → levels[j]? = some w → w.toNat ≤ 8) :
    firstInvalid 0 levels = some (k, v) := by
  rw [firstInvalid_some hk hv hlowest, Nat.zero_add]

/-- Settles O12. -/
theorem transformCompletes : Obligations.TransformCompletes := by
  intro s frame mirror reversed hlen hvalid
  rw [exec_transform, transformResponse_valid mirror reversed hlen hvalid]

/-- Settles O13: the length is looked at first, then the levels from the lowest index on. -/
theorem transformRefuses : Obligations.TransformRefuses := by
  refine ⟨fun s frame mirror reversed hlen => ?_, fun s frame mirror reversed k v hlen hk hv hlowest => ?_⟩
  · rw [exec_transform, transformResponse_of_ne mirror reversed hlen]
  · rw [exec_transform, transformResponse_invalid mirror reversed hlen (firstInvalid_zero hk hv hlowest)]

end Sys2Proof.Machine

/-! PROOFS. Requests run: every instruction answers a next state, and a request does what `Silent` or `Sends` says of
it, so that each of its paths is one line of Laws/Cases.lean. -/

namespace Sys2Proof.Machine

/-! ## Every instruction answers a next state (60_exceptions.md R201) -/

/-- A request of the engine answers a next state if its body does under the lock. -/
theorem engineRequest_answers {body : State → Body} {s : State} (h : ∃ p, body (takeLock s) = .ok p) :
    ∃ t, engineRequest body s = .next t := by
  obtain ⟨p, hp⟩ := h
  unfold engineRequest
  split
  · exact ⟨_, rfl⟩
  · rw [hp]
    exact ⟨_, rfl⟩

theorem whenReady_answers {body : State → Body} {s : State} (h : ∃ p, body s = .ok p) :
    ∃ p, whenReady body s = .ok p := by
  unfold whenReady
  split
  · exact h
  · exact ⟨_, rfl⟩

theorem finishSend_answers (start : Nat) (r : State × Option LineFault) : ∃ p, finishSend start r = .ok p := ⟨_, rfl⟩

theorem writeBody_answers {pos : Nat} {bytes : List Byte} (s : State) (hpos : pos ≤ 15)
    (hfits : pos + bytes.length ≤ 16) : ∃ p, writeBody pos bytes s = .ok p := by
  rcases writeBody_cases pos bytes s hpos hfits with ⟨_, h⟩ | ⟨_, t, r, h, _⟩ <;> exact ⟨_, h⟩

theorem initBody_answers (b : Int) (m v : Bool) (s : State) : ∃ p, initBody b m v s = .ok p := by
  unfold initBody
  split
  · split
    · exact finishSend_answers _ _
    · exact ⟨_, rfl⟩
  · exact ⟨_, rfl⟩

theorem setBrightnessBody_answers (l : Int) (s : State) : ∃ p, setBrightnessBody l s = .ok p := by
  unfold setBrightnessBody
  split
  · split
    · exact ⟨_, rfl⟩
    · exact finishSend_answers _ _
  · exact ⟨_, rfl⟩

theorem writeRequest_answers (pos : Int) (bytes : List Byte) (s : State) : ∃ p, writeRequest pos bytes s = .ok p := by
  unfold writeRequest
  split
  · split
    · rename_i hlegal hfits
      exact writeBody_answers s (slice_of_legal hlegal hfits).1 (slice_of_legal hlegal hfits).2
    · exact ⟨_, rfl⟩
  · exact ⟨_, rfl⟩

theorem clearBody_answers (s : State) : ∃ p, clearBody s = .ok p := by
  unfold clearBody
  split
  · exact ⟨_, rfl⟩
  · exact writeBody_answers s (by decide) (by decide)

theorem teardownBody_answers (s : State) : ∃ p, teardownBody s = .ok p := by
  obtain ⟨p, hp⟩ := clearBody_answers s
  unfold teardownBody
  split
  · rw [hp]
    exact ⟨_, rfl⟩
  · exact ⟨_, rfl⟩

theorem renderBody_answers (s : State) : ∃ p, renderBody s = .ok p := by
  unfold renderBody
  split
  · exact ⟨_, rfl⟩
  · split
    · exact ⟨_, rfl⟩
    · exact writeRequest_answers _ _ _

/-- No instruction faults or is refused. -/
theorem exec_answers (i : Instr) (s : State) : ∃ t, exec i s = .next t := by
  cases i with
  | cmdData => exact ⟨_, rfl⟩
  | cmdFixedAddr => exact ⟨_, rfl⟩
  | cmdAddr p => exact ⟨_, rfl⟩
  | cmdDispCtrl b => exact ⟨_, rfl⟩
  | data d => exact ⟨_, rfl⟩
  | init b m v => exact engineRequest_answers (initBody_answers b m v _)
  | setBrightness l => exact engineRequest_answers (whenReady_answers (setBrightnessBody_answers l _))
  | write pos bytes => exact engineRequest_answers (whenReady_answers (writeRequest_answers pos bytes _))
  | clear => exact engineRequest_answers (whenReady_answers (clearBody_answers _))
  | teardown => exact engineRequest_answers (teardownBody_answers _)
  | transform f m v => exact ⟨_, rfl⟩
  | render =>
    simp only [exec, execRender]
    split
    · exact ⟨_, rfl⟩
    · exact engineRequest_answers (whenReady_answers (renderBody_answers _))
  | publish levels =>
    simp only [exec, execPublish]
    split
    · exact ⟨_, rfl⟩
    · split <;> exact ⟨_, rfl⟩

/-- Settles O51: a step runs an instruction (`exec_answers`) or answers a next state of its own. -/
theorem nothingStops : Obligations.NothingStops := by
  refine ⟨exec_answers, fun s => ?_⟩
  unfold step
  split
  · exact ⟨_, rfl⟩
  · exact exec_answers _ _
  · exact ⟨_, rfl⟩
  · exact ⟨_, rfl⟩

/-! ## A request's path is determined -/

/-- What a request sends is determined. -/
theorem Sends.unique {q : Request} {s v v' : State} {ts ts' : List (List Byte)} (h : Sends q s ts v)
    (h' : Sends q s ts' v') : ts = ts' ∧ v = v' := by
  cases h with
  | init => cases h'; exact ⟨rfl, rfl⟩
  | setBrightness => cases h'; exact ⟨rfl, rfl⟩
  | write => cases h'; exact ⟨rfl, rfl⟩
  | clear => cases h'; exact ⟨rfl, rfl⟩
  | teardown => cases h'; exact ⟨rfl, rfl⟩
  | render _ hslot =>
    cases h' with
    | render _ hslot' =>
      obtain rfl := Option.some.inj (hslot.symm.trans hslot')
      exact ⟨rfl, rfl⟩

/-- A request that sends does not end without an event. -/
theorem Sends.not_silent {q : Request} {s v u : State} {ts : List (List Byte)} {r : Response} (h : Sends q s ts v) :
    ¬ Silent q s r u := by
  intro h'
  cases h with
  | init hlife hlegal =>
    cases h' with
    | initLate hlife' => exact hlife' hlife
    | initRange _ hlegal' => simp [hlegal] at hlegal'
  | setBrightness hlife hlegal hdiffers =>
    cases h' with
    | setLate hlife' => exact hlife' hlife
    | setRange _ hlegal' => simp [hlegal] at hlegal'
    | setSame _ _ hsame => exact hdiffers hsame
  | write hlife hlegal hfits hdiffers =>
    cases h' with
    | writeLate hlife' => exact hlife' hlife
    | writePosition _ hlegal' => simp [hlegal] at hlegal'
    | writeLength _ _ hfits' => simp [hfits] at hfits'
    | writeSame _ _ _ hsame => exact hdiffers hsame
  | clear hlife hdiffers =>
    cases h' with
    | clearLate hlife' => exact hlife' hlife
    | clearZero _ hsame => exact hdiffers hsame
  | teardown hlife hdiffers =>
    cases h' with
    | teardownLate hlife' => exact hlife' hlife
    | teardownZero _ hsame => exact hdiffers hsame
  | render hlife hslot hvalid hdiffers =>
    cases h' with
    | renderLate hlife' => exact hlife' hlife
    | renderEmpty _ hslot' => simp [hslot] at hslot'
    | renderLevel _ hslot' hinvalid =>
      obtain rfl := Option.some.inj (hslot.symm.trans hslot')
      simp [hvalid] at hinvalid
    | renderSame _ hslot' _ hsame =>
      obtain rfl := Option.some.inj (hslot.symm.trans hslot')
      exact hdiffers hsame

/-! ## Running a request -/

section Running

variable {q : Request} {s v : State} {ts : List (List Byte)}

/-- A request that sends, and need not wait, comes to what its transmissions come to. -/
theorem exec_of_sends (hrun : waits q.toInstr s = false) (h : Sends q s ts v) :
    ∃ u r, SendResult s.trace.length ts v u r ∧
      exec q.toInstr s = .next (replied (answers q r) (u.trace.length - s.trace.length) (afterwards q r u)) := by
  obtain ⟨t, hexec⟩ := exec_answers q.toInstr s
  rcases request_cases hexec with ⟨hwaits, _⟩ | ⟨_, ⟨r, u, hsilent, _⟩ | ⟨ts', v', u, r, h', hsent, rfl⟩⟩
  · rw [hrun] at hwaits
    cases hwaits
  · exact (h.not_silent hsilent).elim
  · obtain ⟨rfl, rfl⟩ := h.unique h'
    exact ⟨u, r, hsent, hexec⟩

/-- The environment's draws are the same for a request's transmissions as for the request. -/
theorem Sends.eventsSucceed_iff (h : Sends q s ts v) (n : Nat) : eventsSucceed v n ↔ eventsSucceed s n := by
  obtain ⟨htrace, _, _, hdraws, _⟩ := h.frame
  exact eventsSucceed_congr hdraws htrace

theorem Sends.eventFails_iff (h : Sends q s ts v) (k : Nat) (x : Level) : eventFails v k x ↔ eventFails s k x := by
  obtain ⟨htrace, _, _, hdraws, _⟩ := h.frame
  exact eventFails_congr hdraws htrace

/-- A request whose events all succeed sends its transmissions (R138). -/
theorem exec_sends_succeed {n : Nat} (hrun : waits q.toInstr s = false) (h : Sends q s ts v)
    (hn : (sendEvents ts).length = n) (hevents : eventsSucceed s n) :
    exec q.toInstr s = .next (replied (answers q (.ok [])) n (afterwards q (.ok []) (afterSending ts v))) := by
  subst hn
  obtain ⟨u, r, hsent, hexec⟩ := exec_of_sends hrun h
  obtain ⟨rfl, rfl⟩ := hsent.of_succeed ((h.eventsSucceed_iff _).2 hevents)
  obtain ⟨htrace, _⟩ := h.frame
  rw [hexec, afterSending_trace, htrace, List.length_append, Nat.add_sub_cancel_left]

/-- A request whose event `k` fails is cut off there (R205). -/
theorem exec_sends_fails {n k : Nat} {x : Level} (hrun : waits q.toInstr s = false) (h : Sends q s ts v)
    (hn : (sendEvents ts).length = n) (hk : k < n) (hfails : eventFails s k x) :
    ∃ b, exec q.toInstr s = .next (replied (answers q (.lineIOError (lineOf (sendEvents ts) k) k)) (k + 1)
      (afterwards q (.lineIOError (lineOf (sendEvents ts) k) k) (afterCut ts k x b v))) := by
  subst hn
  obtain ⟨u, r, hsent, hexec⟩ := exec_of_sends hrun h
  obtain ⟨b, rfl, rfl⟩ := hsent.of_fails hk ((h.eventFails_iff k x).2 hfails)
  obtain ⟨htrace, _⟩ := h.frame
  refine ⟨b, ?_⟩
  rw [hexec, afterCut_trace, htrace, List.length_append, length_failingAt x hk, Nat.add_sub_cancel_left,
    Nat.add_sub_cancel_left]

end Running

/-! ## Ending without an event -/

/-- An engine request with a body of READY that ends with the state it began with only responds. -/
theorem exec_ready_replied {body : State → Body} {s : State} {r : Response} (hfree : s.lock = .free)
    (hready : s.life = .ready) (hbody : body (takeLock s) = .ok (takeLock s, r)) :
    engineRequest (whenReady body) s = .next (replied r 0 s) :=
  engineRequest_replied hfree ((whenReady_ready (s := takeLock s) hready).trans hbody)

/-- Outside READY such a request is refused before its body (R209). -/
theorem exec_refused {body : State → Body} {s : State} (hfree : s.lock = .free) (hlife : s.life ≠ .ready) :
    engineRequest (whenReady body) s = .next (replied (.wrongLifecycle s.life) 0 s) :=
  engineRequest_replied hfree (whenReady_refused (s := takeLock s) hlife)

theorem renderWaits_eq_false {s : State} (hfree : s.lock = .free) (hslot : s.life = .ready → s.slotLock = .free) :
    renderWaits s = false := by
  rw [renderWaits, engineWaits_eq_false.2 hfree, Bool.false_or]
  by_cases hready : s.life = .ready
  · simp [hslot hready]
  · simp [hready]

/-- RENDER that need not wait is an engine request of READY. -/
theorem exec_render {s : State} (hrun : renderWaits s = false) :
    exec .render s = engineRequest (whenReady renderBody) s := by
  rw [exec, execRender, hrun]
  rfl

/-- RENDER in READY that need not wait finds both locks free (R34). -/
theorem locks_free_of_render {s : State} (hrun : renderWaits s = false) (hready : s.life = .ready) :
    s.lock = .free ∧ s.slotLock = .free := by
  rw [renderWaits, Bool.or_eq_false_iff] at hrun
  refine ⟨engineWaits_eq_false.1 hrun.1, ?_⟩
  have hslot := hrun.2
  cases hc : s.slotLock <;> simp [hready, hc] at hslot ⊢

/-- Taking the free engine lock and releasing it changes nothing. -/
theorem freeLock_takeLock {s : State} (hfree : s.lock = .free) : freeLock (takeLock s) = s := by
  simp [freeLock, takeLock, ← hfree]

/-- Storing a frame, the slot's lock being free, fills the slot and does nothing else. -/
theorem storeFrame_eq {s : State} (hfree : s.slotLock = .free) (frame : Frame) :
    storeFrame frame s = { s with slot := some frame } := by
  simp [storeFrame, freeSlotLock, takeSlotLock, ← hfree]

/-- Sixteen rows at row 0 pass WRITE's validation (R166). -/
theorem writeRequest_rows {rows : List Byte} (hlen : rows.length = 16) (s : State) :
    writeRequest 0 rows s = writeBody 0 rows s := by
  simp [writeRequest, positionLegal, sliceFits, hlen]

/-- PUBLISH of a frame that need not wait fills the slot (R180). -/
theorem exec_publish {s : State} {levels : List BarLevel} {frame : Frame} (hframe : frameOf levels = some frame)
    (hfree : s.slotLock = .free) :
    exec (.publish levels) s = .next (replied (.ok []) 0 { s with slot := some frame }) := by
  have hrun : publishWaits levels s = false := by simp [publishWaits, hfree]
  simp only [exec, execPublish, hframe, hrun, storeFrame_eq hfree, Bool.false_eq_true, if_false]
  exact congrArg Host.Outcome.next (respond_silent rfl)

/-- PUBLISH of another number of levels is refused (R180, R208). -/
theorem exec_publish_refused {s : State} {levels : List BarLevel} (hframe : frameOf levels = none) :
    exec (.publish levels) s = .next (replied (.invalidRequest 7 [.frame levels.length]) 0 s) := by
  simp only [exec, execPublish, hframe]
  exact congrArg Host.Outcome.next (respond_silent rfl)

/-- Taking the frame under the engine lock, the slot's lock being free, empties the slot and does nothing else. -/
theorem takeFrame_takeLock {s : State} (hfree : s.slotLock = .free) :
    takeFrame (takeLock s) = takeLock { s with slot := none } := by
  simp [takeFrame, freeSlotLock, takeSlotLock, takeLock, ← hfree]

/-- An engine request of READY whose body ends without an event in another state only responds from that one. -/
theorem exec_ready_run {body : State → Body} {s u : State} {r : Response} (hfree : s.lock = .free)
    (hready : s.life = .ready) (hbody : body (takeLock s) = .ok (takeLock u, r)) (hu : u.lock = .free)
    (htrace : u.trace = s.trace) : engineRequest (whenReady body) s = .next (replied r 0 u) := by
  rw [engineRequest_run hfree ((whenReady_ready (s := takeLock s) hready).trans hbody), freeLock_takeLock hu,
    respond_silent htrace]

/-- A request that ends without an event, and need not wait, does what `Silent` says. -/
theorem exec_of_silent {q : Request} {s u : State} {r : Response} (hrun : waits q.toInstr s = false)
    (h : Silent q s r u) : exec q.toInstr s = .next (replied r 0 u) := by
  cases h with
  | initLate hlife => exact engineRequest_replied (waits_engine hrun) (by simp [initBody, hlife, raiseError])
  | initRange hlife hrange =>
    exact engineRequest_replied (waits_engine hrun) (by simp [initBody, hlife, hrange, raiseError])
  | setLate hlife => exact exec_refused (waits_engine hrun) hlife
  | setRange hlife hrange =>
    exact exec_ready_replied (waits_engine hrun) hlife (by simp [setBrightnessBody, hrange, raiseError])
  | setSame hlife hrange hsame =>
    exact exec_ready_replied (waits_engine hrun) hlife (by simp [setBrightnessBody, hrange, hsame, succeed])
  | writeLate hlife => exact exec_refused (waits_engine hrun) hlife
  | writePosition hlife hpos =>
    exact exec_ready_replied (waits_engine hrun) hlife (by simp [writeRequest, hpos, raiseError])
  | writeLength hlife hpos hlength =>
    exact exec_ready_replied (waits_engine hrun) hlife (by simp [writeRequest, hpos, hlength, raiseError])
  | writeSame hlife hpos hlength hsame =>
    obtain ⟨hlow, hfits⟩ := slice_of_legal hpos hlength
    refine exec_ready_replied (waits_engine hrun) hlife ?_
    rw [writeRequest, if_pos hpos, if_pos hlength, writeBody_same (s := takeLock s) hlow hfits hsame]
  | clearLate hlife => exact exec_refused (waits_engine hrun) hlife
  | clearZero hlife hzero =>
    exact exec_ready_replied (waits_engine hrun) hlife (by rw [clearBody, takeLock_shadow, if_pos hzero]; rfl)
  | teardownLate hlife => exact engineRequest_replied (waits_engine hrun) (by simp [teardownBody, hlife, succeed])
  | teardownZero hlife hzero =>
    have hfree := waits_engine hrun
    have hbody : teardownBody (takeLock s) = .ok (shutDown (takeLock s), .ok []) := by
      rw [teardownBody, takeLock_life, if_pos hlife, clearBody, takeLock_shadow, if_pos hzero]
      rfl
    refine (engineRequest_run hfree hbody).trans ?_
    simp [respond, replied, shutDown, releaseLines, freeLock, takeLock, ← hfree]
  | transform => exact congrArg Host.Outcome.next (respond_silent rfl)
  | renderLate hlife =>
    have hfree : s.lock = .free := waits_engine (Bool.or_eq_false_iff.1 hrun).1
    exact (exec_render hrun).trans (exec_refused hfree hlife)
  | renderEmpty hlife hslot =>
    have hfree : s.lock = .free := waits_engine (Bool.or_eq_false_iff.1 hrun).1
    exact (exec_render hrun).trans (exec_ready_replied hfree hlife (by simp [renderBody, hslot, succeed]))
  | renderLevel hlife hslot hinvalid =>
    obtain ⟨hfree, hslotFree⟩ := locks_free_of_render hrun hlife
    refine (exec_render hrun).trans (exec_ready_run hfree hlife ?_ hfree rfl)
    simp only [renderBody, takeLock_slot, hslot, transformFrame_frame, hinvalid, takeFrame_takeLock hslotFree,
      raiseError]
  | renderSame hlife hslot hvalid hsame =>
    obtain ⟨hfree, hslotFree⟩ := locks_free_of_render hrun hlife
    have hrows := length_transformRows
    refine (exec_render hrun).trans (exec_ready_run hfree hlife ?_ hfree rfl)
    simp only [renderBody, takeLock_slot, hslot, transformFrame_frame, hvalid, takeFrame_takeLock hslotFree,
      takeLock_cfgMirror, takeLock_cfgReversed]
    rw [writeRequest_rows (hrows _ _ _)]
    exact writeBody_same (by decide) (by rw [hrows]) (by rw [hrows]; exact hsame)
  | publishLength hframe => exact exec_publish_refused hframe
  | publish hframe =>
    have hslotFree : s.slotLock = .free := by
      have hwaits : publishWaits _ s = false := hrun
      cases hc : s.slotLock <;> simp [publishWaits, hframe, hc] at hwaits ⊢
    exact exec_publish hframe hslotFree

end Sys2Proof.Machine

/-! PROOFS. INIT, SET_BRIGHTNESS and the lifecycle (43_driver_operations.md R160, R162; 60_exceptions.md R206, R209):
each path is a `Silent` or a `Sends` of the request. -/

namespace Sys2Proof.Machine

/-- The operand check admits 0 to 7 (R160, R162). -/
theorem brightnessLegal_iff {v : Int} : brightnessLegal v = true ↔ 0 ≤ v ∧ v ≤ 7 := by
  simp [brightnessLegal]

theorem brightnessLegal_eq_false {v : Int} : brightnessLegal v = false ↔ v < 0 ∨ 7 < v := by
  rw [← Bool.not_eq_true, brightnessLegal_iff]
  omega

/-- An engine request does not wait while the engine lock is free. -/
theorem engine_runs {s : State} (hfree : s.lock = .free) : engineWaits s = false := engineWaits_eq_false.2 hfree

/-! ## How many events the requests send (R139) -/

theorem length_sendEvents_one (c : Byte) : (sendEvents [[c]]).length = 31 := by
  simp [sendEvents, length_txEvents]

theorem length_sendEvents_two (c c' : Byte) : (sendEvents [[c], [c']]).length = 62 := by
  simp [sendEvents, length_txEvents]

theorem length_sendEvents_sixteen {bytes : List Byte} (h : bytes.length = 16) (bright : Brightness) :
    (sendEvents (writeSends 0 bytes bright)).length = 477 := by
  rw [length_sendEvents_writeSends, h]

/-! ## INIT -/

/-- Rows 0 to 15 of zeros leave a well-formed shadow with nothing listed. -/
theorem writeSlice_zeros {m : Memory} (hwf : m.wf = true) : writeSlice m 0 (List.replicate 16 0x00) = [] := by
  have hwf' : Memory.wf (writeSlice m 0 (List.replicate 16 0x00)) = true := wf_writeSlice (by decide) hwf
  refine wfFrom_ext hwf' rfl fun a => ?_
  rcases Nat.lt_or_ge a 16 with hlow | hhigh
  · have hread := readByte_writeSlice (bytes := List.replicate 16 0x00) (m := m) (pos := 0) (k := a) (by decide) hwf
      (by simpa using hlow)
    rw [Nat.zero_add, List.getElem_replicate] at hread
    exact hread
  · exact readByte_of_ge hhigh hwf'

/-- Settles O22: INIT's transmissions are sent, and its end is READY. -/
theorem initCompletes : Obligations.InitCompletes := by
  intro s b m v hfree hlife hlow hhigh hevents
  refine ⟨?_, writeSlice_zeros, fun _ => rfl⟩
  exact exec_sends_succeed (q := .init b m v) (engine_runs hfree) (.init hlife (brightnessLegal_iff.2 ⟨hlow, hhigh⟩))
    (length_sendEvents_two _ _) hevents

/-- INIT after a line failure releases the lines and is RELEASED (R160, D36). -/
theorem afterwards_init_fails (b : Int) (m v : Bool) (line : Line) (k : Nat) (u : State) :
    afterwards (.init b m v) (.lineIOError line k) u = { releaseLines u with life := .released } := rfl

/-- Settles O23: INIT's transmissions are cut off at the failed event, and its end releases the lines. -/
theorem initLineFailure : Obligations.InitLineFailure := by
  intro s b m v k x hfree hlife hlow hhigh hk hfails
  obtain ⟨shreg, hexec⟩ := exec_sends_fails (q := .init b m v) (engine_runs hfree)
    (.init hlife (brightnessLegal_iff.2 ⟨hlow, hhigh⟩)) (length_sendEvents_two _ _) hk hfails
  have hlen : k < (sendEvents [[0x40], [controlByte (BitVec.ofInt 3 b)]]).length := by
    rwa [length_sendEvents_two]
  obtain ⟨⟨line, level⟩, hevent⟩ : ∃ e, (sendEvents [[0x40], [controlByte (BitVec.ofInt 3 b)]])[k]? = some e :=
    ⟨_, List.getElem?_eq_getElem hlen⟩
  have hline : lineOf (sendEvents [[0x40], [controlByte (brightnessOf b)]]) k = line := lineOf_eq hevent
  rw [hline, afterwards_init_fails] at hexec
  refine ⟨_, line, hexec, rfl, ⟨level, hevent⟩, rfl, rfl, rfl, rfl, rfl, ?_, hfree, rfl, rfl, ?_⟩
  · simp only [replied_shadow, releaseLines_shadow, afterCut_shadow, configure_shadow]
  have htrace := List.length_append (as := s.trace)
    (bs := failingAt (sendEvents [[0x40], [controlByte (BitVec.ofInt 3 b)]]) k x)
  rwa [length_failingAt x hlen, ← Nat.add_assoc] at htrace

/-- Settles O24. -/
theorem initRefused : Obligations.InitRefused :=
  ⟨fun _ b m v hfree hlife => exec_of_silent (q := .init b m v) (engine_runs hfree) (.initLate hlife),
    fun _ b m v hfree hlife hrange => exec_of_silent (q := .init b m v) (engine_runs hfree)
      (.initRange hlife (brightnessLegal_eq_false.2 hrange))⟩

/-! ## Outside READY -/

/-- Settles O25, request by request. -/
theorem refusedOutsideReady : Obligations.RefusedOutsideReady := by
  intro s i hfree hlife hi
  rcases hi with ⟨level, rfl⟩ | ⟨pos, bytes, rfl⟩ | rfl | rfl
  · exact exec_of_silent (q := .setBrightness level) (engine_runs hfree) (.setLate hlife)
  · exact exec_of_silent (q := .write pos bytes) (engine_runs hfree) (.writeLate hlife)
  · exact exec_of_silent (q := .clear) (engine_runs hfree) (.clearLate hlife)
  · exact exec_of_silent (q := .render) (renderWaits_eq_false hfree fun h => absurd h hlife) (.renderLate hlife)

/-! ## SET_BRIGHTNESS -/

/-- SET_BRIGHTNESS to the level it has only responds (R162). -/
theorem exec_setBrightness_same {s : State} {level : Int} (hfree : s.lock = .free) (hready : s.life = .ready)
    (hlegal : 0 ≤ level ∧ level ≤ 7) (hsame : BitVec.ofInt 3 level = s.bright) :
    exec (.setBrightness level) s = .next (replied (.ok []) 0 s) :=
  exec_of_silent (q := .setBrightness level) (engine_runs hfree) (.setSame hready (brightnessLegal_iff.2 hlegal) hsame)

/-- Settles O28: the one control transmission is sent from the state with the new level. -/
theorem setBrightnessCompletes : Obligations.SetBrightnessCompletes := by
  intro s level hfree hready hlow hhigh hdiffers hevents
  exact exec_sends_succeed (q := .setBrightness level) (engine_runs hfree)
    (.setBrightness hready (brightnessLegal_iff.2 ⟨hlow, hhigh⟩) hdiffers) (length_sendEvents_one _) hevents

/-- Settles O29. -/
theorem setBrightnessWithoutTraffic : Obligations.SetBrightnessWithoutTraffic := by
  refine ⟨fun s level hfree hready hlevel => ?_, fun s level hfree hready hrange => ?_⟩
  · have hbound := s.bright.isLt
    refine exec_setBrightness_same hfree hready (by omega) ?_
    rw [hlevel, BitVec.ofInt_natCast, BitVec.ofNat_toNat, BitVec.setWidth_eq]
  · exact exec_of_silent (q := .setBrightness level) (engine_runs hfree)
      (.setRange hready (brightnessLegal_eq_false.2 hrange))

/-- Settles O30: what is cut off is the control transmission, from the state with the new level, which the same request
then finds. -/
theorem setBrightnessLineFailure : Obligations.SetBrightnessLineFailure := by
  intro s level k x hfree hready hlow hhigh hdiffers hk hfails
  obtain ⟨b, hexec⟩ := exec_sends_fails (q := .setBrightness level) (engine_runs hfree)
    (.setBrightness hready (brightnessLegal_iff.2 ⟨hlow, hhigh⟩) hdiffers) (length_sendEvents_one _) hk hfails
  exact ⟨b, hexec, exec_setBrightness_same hfree hready ⟨hlow, hhigh⟩ rfl⟩

end Sys2Proof.Machine

/-! PROOFS. WRITE again, CLEAR, TEARDOWN, PUBLISH and RENDER (43_driver_operations.md R165 to R182). -/

namespace Sys2Proof.Machine

/-! ## WRITE again (R168) -/

/-- Settles O33: the cut-off WRITE is `exec_write_fails`, and its slice stands in the shadow. -/
theorem writeLineFailureKeepsShadow : Obligations.WriteLineFailureKeepsShadow := by
  intro s pos bytes k x hwf hfree hready hpos hfits hdiffers hk hfails
  obtain ⟨b, hexec⟩ := exec_write_fails hfree hready hpos hfits hdiffers hk hfails
  exact ⟨b, hexec, exec_write_same hfree hready hpos hfits (readSlice_writeSlice hfits hwf)⟩

/-- A WRITE that ended in OK ran in READY on a slice of rows 0 to 15, and left the slice in the shadow. -/
theorem write_ok_leaves {s t : State} {pos : Int} {bytes : List Byte} {n : Nat} (hwf : s.shadow.wf = true)
    (hfree : s.lock = .free) (hexec : exec (.write pos bytes) s = .next t)
    (hok : t.responses = s.responses ++ [⟨.ok [], n⟩]) :
    t.lock = .free ∧ t.life = .ready ∧ positionLegal pos = true ∧ sliceFits pos bytes.length = true ∧
      readSlice t.shadow pos.toNat bytes.length = bytes := by
  rcases write_cases hfree hexec with ⟨r, u, hsilent, rfl⟩ | ⟨ts, v, u, r, hsends, hsent, rfl⟩
  · cases hsilent with
    | writeSame hlife hpos hfits hsame => exact ⟨hfree, hlife, hpos, hfits, hsame⟩
    | _ => simp at hok
  · obtain ⟨_, _, _, hlock, _, hshadow, _, _, _, hlife, _⟩ := hsent.frame
    cases hsends with
    | write hready hpos hfits _ =>
      refine ⟨hlock.trans hfree, hlife.trans hready, hpos, hfits, ?_⟩
      rw [replied_shadow, hshadow]
      exact readSlice_writeSlice (slice_of_legal hpos hfits).2 hwf

/-- Settles O34: what the first WRITE left (`write_ok_leaves`) is what the second skips on. -/
theorem writeIdempotent : Obligations.WriteIdempotent := by
  intro s t pos bytes n hwf hfree hexec hok
  obtain ⟨hlock, hlife, hpos, hfits, hsame⟩ := write_ok_leaves hwf hfree hexec hok
  exact exec_of_silent (q := .write pos bytes) (engine_runs hlock) (.writeSame hlife hpos hfits hsame)

/-! ## CLEAR (R170) -/

/-- The shadow's sixteen rows read zero as a slice exactly when each does. -/
theorem readSlice_eq_zeros {m : Memory} :
    readSlice m 0 16 = List.replicate 16 0x00 ↔ ∀ a, a < 16 → readByte m a = 0x00 := by
  rw [List.eq_replicate_iff]
  simp [readSlice]

/-- A row that is not zero shows in the slice. -/
theorem readSlice_ne_zeros {m : Memory} {a : Nat} (ha : a < 16) (hne : readByte m a ≠ 0x00) :
    readSlice m 0 16 ≠ List.replicate 16 0x00 := fun h => hne (readSlice_eq_zeros.1 h a ha)

/-- A zeroed well-formed shadow reads zero. -/
theorem readSlice_writeSlice_zeros {m : Memory} (hwf : m.wf = true) :
    readSlice (writeSlice m 0 (List.replicate 16 0x00)) 0 16 = List.replicate 16 0x00 :=
  readSlice_writeSlice (bytes := List.replicate 16 0x00) (by decide) hwf

/-- Settles O36. -/
theorem clearOnZeroSkips : Obligations.ClearOnZeroSkips := fun _ hfree hready hzero =>
  exec_of_silent (q := .clear) (engine_runs hfree) (.clearZero hready (readSlice_eq_zeros.2 hzero))

/-- CLEAR in READY ends in READY with the lock free and the shadow all zero, whatever the lines do. -/
theorem clear_leaves_zeros {s t : State} (hwf : s.shadow.wf = true) (hfree : s.lock = .free) (hready : s.life = .ready)
    (hexec : exec .clear s = .next t) :
    t.lock = .free ∧ t.life = .ready ∧ ∀ a, a < 16 → readByte t.shadow a = 0x00 := by
  rcases clear_cases hfree hexec with ⟨r, u, hsilent, rfl⟩ | ⟨ts, v, u, r, hsends, hsent, rfl⟩
  · cases hsilent with
    | clearLate hlife => exact absurd hready hlife
    | clearZero _ hzero => exact ⟨hfree, hready, readSlice_eq_zeros.1 hzero⟩
  · obtain ⟨_, _, _, hlock, _, hshadow, _, _, _, hlife, _⟩ := hsent.frame
    cases hsends with
    | clear _ _ =>
      refine ⟨hlock.trans hfree, hlife.trans hready, ?_⟩
      simp only [replied_shadow, hshadow]
      exact readSlice_eq_zeros.1 (readSlice_writeSlice_zeros hwf)

/-- Settles O35: sent, cut off, and what either leaves. -/
theorem clearCompletes : Obligations.ClearCompletes := by
  refine ⟨fun s a hfree hready ha hne hevents => ?_, fun s a k x hfree hready ha hne hk hfails => ?_,
    fun s t hwf hfree hready hexec => ?_⟩
  · exact exec_sends_succeed (q := .clear) (engine_runs hfree) (.clear hready (readSlice_ne_zeros ha hne))
      (length_sendEvents_sixteen List.length_replicate _) hevents
  · exact exec_sends_fails (q := .clear) (engine_runs hfree) (.clear hready (readSlice_ne_zeros ha hne))
      (length_sendEvents_sixteen List.length_replicate _) hk hfails
  · obtain ⟨hlock, hlife, hzero⟩ := clear_leaves_zeros hwf hfree hready hexec
    exact ⟨hzero, clearOnZeroSkips t hlock hlife hzero⟩

/-! ## TEARDOWN (R171) -/

/-- Settles O39. -/
theorem teardownOutsideReady : Obligations.TeardownOutsideReady := fun _ hfree hlife =>
  exec_of_silent (q := .teardown) (engine_runs hfree) (.teardownLate hlife)

/-- Settles O38: the clear's transmissions are sent, and the lines released after them. -/
theorem teardownClears : Obligations.TeardownClears := fun _ _ hfree hready ha hne hevents =>
  exec_sends_succeed (q := .teardown) (engine_runs hfree) (.teardown hready (readSlice_ne_zeros ha hne))
    (length_sendEvents_sixteen List.length_replicate _) hevents

/-- Settles O37: on a zero shadow nothing is sent; else whatever the transmissions come to, the end is the same. -/
theorem teardownCompletes : Obligations.TeardownCompletes := by
  intro s hfree hready
  by_cases hzero : readSlice s.shadow 0 16 = List.replicate 16 0x00
  · refine ⟨_, 0, exec_of_silent (q := .teardown) (engine_runs hfree) (.teardownZero hready hzero), rfl, Nat.zero_le _,
      rfl, rfl, rfl, rfl, rfl, rfl, rfl, hfree, rfl, rfl, rfl, rfl, ?_, ?_⟩
    · exact fun _ => readSlice_eq_zeros.1 hzero
    · exact fun _ => ⟨rfl, rfl, rfl⟩
  · obtain ⟨u, r, hsent, hexec⟩ := exec_of_sends (q := .teardown) (engine_runs hfree) (.teardown hready hzero)
    obtain ⟨hresponses, hrequests, _, hlock, hslotLock, hshadow, hbright, hmirror, hreversed, _, hslot, _⟩ :=
      hsent.frame
    obtain ⟨hram, hctrl, _⟩ := hsent.rx_frame
    obtain ⟨es, hes, htrace⟩ := hsent.trace
    have hn : u.trace.length - s.trace.length = es.length := by
      rw [htrace, List.length_append, Nat.add_sub_cancel_left]
    refine ⟨_, es.length, hexec, ?_, ?_, ?_, rfl, rfl, hbright, hmirror, hreversed, hslot, hlock.trans hfree, hslotLock,
      hrequests, hram, hctrl, ?_, ?_⟩
    · rw [replied_responses, hn]
      exact congrArg (· ++ _) hresponses
    · exact hes.trans (length_sendEvents_sixteen List.length_replicate _).le
    · exact (congrArg List.length htrace).trans List.length_append
    · intro hwf
      simp only [replied_shadow, afterwards, shutDown_shadow, hshadow]
      exact readSlice_eq_zeros.1 (readSlice_writeSlice_zeros hwf)
    · exact fun hall => absurd (readSlice_eq_zeros.2 hall) hzero

/-! ## PUBLISH (R180) -/

/-- Settles O40. -/
theorem publishCompletes : Obligations.PublishCompletes := fun _ frame hfree =>
  exec_publish (frameOf_toList frame) hfree

/-- Settles O41. -/
theorem publishRefused : Obligations.PublishRefused := fun _ _ hlen => exec_publish_refused (frameOf_of_ne hlen)

/-! ## RENDER (R182) -/

/-- RENDER does not wait while both locks are free. -/
theorem render_runs {s : State} (hfree : s.lock = .free) (hslotFree : s.slotLock = .free) : renderWaits s = false :=
  renderWaits_eq_false hfree fun _ => hslotFree

/-- RENDER of a valid frame whose rows the shadow has takes the frame and only responds (R182). -/
theorem exec_render_same {s : State} {frame : Frame} (hfree : s.lock = .free) (hslotFree : s.slotLock = .free)
    (hready : s.life = .ready) (hslot : s.slot = some frame) (hvalid : ∀ v ∈ frame.toList, v.toNat ≤ 8)
    (hsame : readSlice s.shadow 0 16 = transformRows frame.toList s.cfgMirror s.cfgReversed) :
    exec .render s = .next (replied (.ok []) 0 { s with slot := none }) :=
  exec_of_silent (q := .render) (render_runs hfree hslotFree)
    (.renderSame hready hslot (firstInvalid_none.2 hvalid) hsame)

/-- Settles O43. -/
theorem renderWithoutTraffic : Obligations.RenderWithoutTraffic := by
  refine ⟨fun s hfree hslotFree hready hslot => ?_, fun s frame hfree hslotFree hready hslot hvalid hsame => ?_,
    fun s frame k v hfree hslotFree hready hslot hk hv hlowest => ?_⟩
  · exact exec_of_silent (q := .render) (render_runs hfree hslotFree) (.renderEmpty hready hslot)
  · exact exec_render_same hfree hslotFree hready hslot hvalid hsame
  · exact exec_of_silent (q := .render) (render_runs hfree hslotFree)
      (.renderLevel hready hslot (firstInvalid_zero hk hv hlowest))

/-- A transform's rows written to a well-formed shadow are read back. -/
theorem readSlice_writeSlice_rows {m : Memory} (hwf : m.wf = true) (frame : List BarLevel) (mirror reversed : Bool) :
    readSlice (writeSlice m 0 (transformRows frame mirror reversed)) 0 16 = transformRows frame mirror reversed := by
  have h := readSlice_writeSlice (bytes := transformRows frame mirror reversed) (m := m) (pos := 0)
    (by rw [length_transformRows]) hwf
  rwa [length_transformRows] at h

/-- Settles O42: sent, cut off, and the re-render of what the shadow then has. -/
theorem renderCompletes : Obligations.RenderCompletes := by
  refine ⟨fun s frame hfree hslotFree hready hslot hvalid hdiffers hevents => ?_,
    fun s frame k x hfree hslotFree hready hslot hvalid hdiffers hk hfails => ?_⟩
  · exact exec_sends_succeed (q := .render) (render_runs hfree hslotFree)
      (.render hready hslot (firstInvalid_none.2 hvalid) hdiffers)
      (length_sendEvents_sixteen (length_transformRows _ _ _) _) hevents
  · obtain ⟨b, hexec⟩ := exec_sends_fails (q := .render) (render_runs hfree hslotFree)
      (.render hready hslot (firstInvalid_none.2 hvalid) hdiffers)
      (length_sendEvents_sixteen (length_transformRows _ _ _) _) hk hfails
    refine ⟨b, hexec, fun hwf => ?_⟩
    have hread := readSlice_writeSlice_rows hwf frame.toList s.cfgMirror s.cfgReversed
    refine ⟨by simpa only [replied_shadow, afterCut_shadow] using hread, ?_⟩
    refine exec_render_same (frame := frame) hfree hslotFree hready rfl hvalid ?_
    simpa only [replied_shadow, replied_cfgMirror, replied_cfgReversed, afterCut_shadow, afterCut_cfgMirror,
      afterCut_cfgReversed] using hread

end Sys2Proof.Machine

/-! PROOFS. The receiver byte by byte and transmission by transmission (42_wire_framing.md R149; 70_reset_and_hazards.md
R242), and what a step fetches. -/

namespace Sys2Proof.Machine

/-! ## One wire byte -/

/-- A first byte with nothing behind it is a transmission of its own. -/
theorem alone_of_nil {r : Receiver} (hplace : r.place = .first) (hcurrent : r.current = []) :
    aloneInTransmission r = true := by simp [aloneInTransmission, hplace, hcurrent]

theorem not_alone {r : Receiver} (hcurrent : r.current ≠ []) : aloneInTransmission r = false := by
  simp [aloneInTransmission, hcurrent]

theorem rxTakeMode_alone {r : Receiver} (h : aloneInTransmission r = true) : rxTakeMode r = r := by
  rw [rxTakeMode, if_pos h]

theorem rxTakeMode_followed {r : Receiver} (h : aloneInTransmission r = false) : rxTakeMode r = rxLost r := by
  rw [rxTakeMode, h]
  rfl

theorem rxTakeControl_alone {r : Receiver} (b : Brightness) (h : aloneInTransmission r = true) :
    rxTakeControl b r = { r with chipCtrl := controlByte b } := by rw [rxTakeControl, if_pos h]

theorem rxTakeControl_followed {r : Receiver} (b : Brightness) (h : aloneInTransmission r = false) :
    rxTakeControl b r = rxLost r := by
  rw [rxTakeControl, h]
  rfl

theorem rxTakeAddress_followed {r : Receiver} (p : BitVec 4) (hplace : r.place = .first) (hcurrent : r.current ≠ []) :
    rxTakeAddress p r = { r with place := .row p.toNat } := by simp [rxTakeAddress, hplace, hcurrent]

theorem rxTakeAddress_alone {r : Receiver} (p : BitVec 4) (hcurrent : r.current = []) :
    rxTakeAddress p r = rxLost r := by simp [rxTakeAddress, hcurrent]

theorem rxTakeData_row {r : Receiver} {p : Nat} (d : Byte) (hplace : r.place = .row p) : rxTakeData d r =
    { r with
      chipRam := r.chipRam.setIfInBounds p d
      place := if r.current = [] then .first else .row (nextRow r.addressing p) } := by
  simp [rxTakeData, hplace, List.isEmpty_iff]

theorem rxTakeData_first {r : Receiver} (d : Byte) (hplace : r.place = .first) : rxTakeData d r = rxLost r := by
  simp [rxTakeData, hplace]

theorem nextRow_eq (addressing : RxAddressing) (p : Nat) :
    nextRow addressing p = if addressing = .increment then p + 1 else p := by cases addressing <;> rfl

/-- The meaning of each wire byte is the receiver's. -/
theorem exec_cmdData (s : State) : exec .cmdData s = .next { s with rx := rxTakeMode s.rx } := rfl
theorem exec_cmdFixedAddr (s : State) : exec .cmdFixedAddr s = .next { s with rx := rxTakeMode s.rx } := rfl
theorem exec_cmdAddr (p : BitVec 4) (s : State) :
    exec (.cmdAddr p) s = .next { s with rx := rxTakeAddress p s.rx } := rfl
theorem exec_cmdDispCtrl (b : Brightness) (s : State) :
    exec (.cmdDispCtrl b) s = .next { s with rx := rxTakeControl b s.rx } := rfl
theorem exec_data (d : Byte) (s : State) : exec (.data d) s = .next { s with rx := rxTakeData d s.rx } := rfl

/-- Settles O44. -/
theorem loneCommandsComplete : Obligations.LoneCommandsComplete := by
  intro s hplace hcurrent
  have halone := alone_of_nil hplace hcurrent
  refine ⟨?_, ?_, fun b => ?_⟩
  · rw [exec_cmdData, rxTakeMode_alone halone]
  · rw [exec_cmdFixedAddr, rxTakeMode_alone halone]
  · rw [exec_cmdDispCtrl, rxTakeControl_alone b halone]
    rfl

/-- Row `i` after a byte stored at row `p`. -/
theorem getElem?_setIfInBounds_row (ram : Vector Byte 16) (p i : Nat) (d : Byte) (hi : i < 16) :
    (ram.setIfInBounds p d)[i]? = if i = p then some d else ram[i]? := by
  by_cases h : i = p
  · subst h
    simp [hi]
  · rw [Vector.getElem?_setIfInBounds_ne (Ne.symm h), if_neg h]

/-- A byte for a row past 15 is stored nowhere (R149). -/
theorem setIfInBounds_past (ram : Vector Byte 16) {p : Nat} (d : Byte) (hp : 15 < p) : ram.setIfInBounds p d = ram := by
  ext i hi
  rw [Vector.getElem_setIfInBounds_ne hi (by omega)]

/-- Settles O45: one lemma for each byte, `rxTakeAddress_followed` and `rxTakeData_row`. -/
theorem burstBytesComplete : Obligations.BurstBytesComplete := by
  refine ⟨fun s p hplace hcurrent => ?_, fun s d p hplace hp => ?_, fun s d p hplace hp => ?_⟩
  · rw [exec_cmdAddr, rxTakeAddress_followed p hplace hcurrent]
  · refine ⟨_, exec_data d s, ?_, ?_, fun i hi => ?_⟩
    · rw [rxTakeData_row d hplace, nextRow_eq]
    · rw [rxTakeData_row d hplace, getElem?_setIfInBounds_row _ _ _ _ (by omega), if_pos rfl]
    · rw [rxTakeData_row d hplace, Vector.getElem?_setIfInBounds_ne (Ne.symm hi)]
  · rw [exec_data, rxTakeData_row d hplace, nextRow_eq, setIfInBounds_past _ d hp]

/-! ## What a step fetches -/

/-- A command byte of the transmission being taken. -/
theorem fetchByte_command {s : State} {b : Byte} {rest : List Byte} {i : Instr} (hplace : s.rx.place = .first)
    (hi : decodeCommand b = some i) : fetchByte b rest s = .run i { s with rx := { s.rx with current := rest } } := by
  simp [fetchByte, hplace, hi]

theorem fetchByte_unknown {s : State} {b : Byte} {rest : List Byte} (hplace : s.rx.place = .first)
    (hb : decodeCommand b = none) :
    fetchByte b rest s = .badTransmission { s with rx := { s.rx with current := rest } } := by
  simp [fetchByte, hplace, hb]

theorem fetchByte_data {s : State} {b : Byte} {rest : List Byte} {p : Nat} (hplace : s.rx.place = .row p) :
    fetchByte b rest s = .run (.data b) { s with rx := { s.rx with current := rest } } := by
  simp [fetchByte, hplace]

/-- The bytes left of a transmission come first. -/
theorem fetch_current {s : State} {b : Byte} {rest : List Byte} (h : s.rx.current = b :: rest) :
    fetch s = fetchByte b rest s := by simp [fetch, h]

/-- Then the oldest transmission delivered, from its first byte. -/
theorem fetch_queue {s : State} {b : Byte} {rest : List Byte} {others : List (List Byte)} (h : s.rx.current = [])
    (hq : s.rx.queue = (b :: rest) :: others) :
    fetch s = fetchByte b rest { s with rx := { s.rx with queue := others, place := .first } } := by
  simp [fetch, h, hq]

theorem fetch_empty {s : State} {others : List (List Byte)} (h : s.rx.current = []) (hq : s.rx.queue = [] :: others) :
    fetch s = .badTransmission { s with rx := { s.rx with queue := others } } := by
  simp [fetch, h, hq]

/-- Then the head of the port. -/
theorem fetch_requests {s : State} {p : PortRequest} {rest : List PortRequest} (h : s.rx.current = [])
    (hq : s.rx.queue = []) (hr : s.requests = p :: rest) : fetch s = fetchRequest p rest s := by
  simp [fetch, h, hq, hr]

theorem step_run {s t : State} {i : Instr} (h : fetch s = .run i t) : step s = exec i t := by rw [step, h]

theorem step_bad {s t : State} (h : fetch s = .badTransmission t) : step s = .next (loseReceiver t) := by rw [step, h]

theorem decodeCode_command {b : Byte} {i : Instr} (h : decodeCode (.wire false b) = .ok i) :
    decodeCommand b = some i := by
  rw [decodeCode] at h
  cases hd : decodeCommand b with
  | none => simp [hd] at h
  | some j =>
    simp only [hd, Except.ok.injEq] at h
    rw [h]

theorem decodeCode_ok_request {w : BitVec 32} {payload : List Byte} {i : Instr}
    (h : decodeCode (.request w payload) = .ok i) : decodeRequest w payload = .ok i := by
  rw [decodeCode] at h
  cases hd : decodeRequest w payload with
  | error bad => simp [hd] at h
  | ok j =>
    simp only [hd, Except.ok.injEq] at h
    rw [h]

/-- Settles O50: a byte left, a transmission's first byte, a binary and an abstract request. -/
theorem stepRunsTheDecoded : Obligations.StepRunsTheDecoded := by
  refine ⟨fun s b rest i hcurrent hi => ?_, fun s b rest others i hcurrent hqueue hi => ?_,
    fun s w payload rest i hcurrent hqueue hrequests hi => ?_, fun s q rest hcurrent hqueue hrequests => ?_⟩
  · cases hplace : s.rx.place with
    | first =>
      simp only [hplace, ne_eq, not_true_eq_false, decide_false] at hi
      exact step_run ((fetch_current hcurrent).trans (fetchByte_command hplace (decodeCode_command hi)))
    | row p =>
      simp only [hplace, ne_eq, reduceCtorEq, not_false_eq_true, decide_true] at hi
      cases hi
      exact step_run ((fetch_current hcurrent).trans (fetchByte_data hplace))
  · exact step_run ((fetch_queue hcurrent hqueue).trans (fetchByte_command rfl (decodeCode_command hi)))
  · refine step_run ((fetch_requests hcurrent hqueue hrequests).trans ?_)
    simp only [fetchRequest, decodeCode_ok_request hi]
  · exact step_run (fetch_requests hcurrent hqueue hrequests)

/-- A transmission that is empty or begins with no command makes the receiver's state unknown (R149, log 22). -/
theorem step_unknown {s : State} {t : List Byte} {others : List (List Byte)} (hcurrent : s.rx.current = [])
    (hqueue : s.rx.queue = t :: others) (ht : t = [] ∨ ∃ b rest, t = b :: rest ∧ decodeCommand b = none) :
    step s = .next { s with rx := rxLost { s.rx with queue := others } } := by
  rcases ht with rfl | ⟨b, rest, rfl, hb⟩
  · exact step_bad (fetch_empty hcurrent hqueue)
  · exact step_bad ((fetch_queue hcurrent hqueue).trans (fetchByte_unknown rfl hb))

/-- Settles O46. -/
theorem misplacedBytesLoseReceiver : Obligations.MisplacedBytesLoseReceiver := by
  refine ⟨fun s hplace => ⟨fun hcurrent => ⟨?_, ?_, fun b => ?_⟩, fun hcurrent p => ?_, fun d => ?_⟩,
    fun s t others hcurrent hqueue ht => step_unknown hcurrent hqueue ht⟩
  · rw [exec_cmdData, rxTakeMode_followed (not_alone hcurrent), rxLost_eq]
  · rw [exec_cmdFixedAddr, rxTakeMode_followed (not_alone hcurrent), rxLost_eq]
  · rw [exec_cmdDispCtrl, rxTakeControl_followed b (not_alone hcurrent), rxLost_eq]
  · rw [exec_cmdAddr, rxTakeAddress_alone p hcurrent, rxLost_eq]
  · rw [exec_data, rxTakeData_first d hplace, rxLost_eq]

/-- Settles O5: the step is `step_malformed`. -/
theorem malformedRefused : Obligations.MalformedRefused := fun _ _ _ _ _ hcurrent hqueue hrequests hbad =>
  ⟨step_malformed hcurrent hqueue hrequests hbad, rfl⟩

/-! ## Where a burst's bytes go (R149) -/

/-- What a burst leaves in the chip's rows depends on the rows before it and on the addressing alone. -/
theorem rxTakeBurst_chipRam_congr (bytes : List Byte) : ∀ (p : Nat) {r r' : Receiver}, r.chipRam = r'.chipRam →
    r.addressing = r'.addressing → (rxTakeBurst p bytes r).chipRam = (rxTakeBurst p bytes r').chipRam := by
  induction bytes with
  | nil => intro p r r' hram _; exact hram
  | cons d rest ih =>
    intro p r r' hram haddr
    simp only [rxTakeBurst, hram, haddr]
    exact ih _ rfl rfl

/-- Under INCREMENT row `p+k` takes byte `k`, and the other rows keep theirs. -/
theorem rxTakeBurst_increment (bytes : List Byte) : ∀ (p : Nat) (r : Receiver), r.addressing = .increment →
    ∀ i, i < 16 → (rxTakeBurst p bytes r).chipRam[i]? =
      if p ≤ i ∧ i < p + bytes.length then bytes[i - p]? else r.chipRam[i]? := by
  induction bytes with
  | nil =>
    intro p r _ i _
    rw [if_neg (by simp), rxTakeBurst]
  | cons d rest ih =>
    intro p r haddr i hi
    rw [rxTakeBurst, ih _ { r with chipRam := r.chipRam.setIfInBounds p d } haddr i hi, haddr, nextRow,
      getElem?_setIfInBounds_row _ _ _ _ hi, List.length_cons]
    rcases Nat.lt_trichotomy i p with hlt | rfl | hgt
    · rw [if_neg (by omega), if_neg (by omega), if_neg (by omega)]
    · rw [if_neg (by omega), if_pos rfl, if_pos (by omega), Nat.sub_self, List.getElem?_cons_zero]
    · rw [if_neg (show ¬ i = p by omega), show i - p = i - (p + 1) + 1 by omega, List.getElem?_cons_succ]
      by_cases hin : i < p + (rest.length + 1)
      · rw [if_pos (by omega), if_pos (by omega)]
      · rw [if_neg (by omega), if_neg (by omega)]

/-- Under FIXED the row of the address takes every byte, and keeps the last. -/
theorem rxTakeBurst_fixed (bytes : List Byte) : ∀ (p : Nat) (r : Receiver), bytes ≠ [] → r.addressing = .fixed →
    ∀ i, i < 16 → (rxTakeBurst p bytes r).chipRam[i]? = if i = p then bytes.getLast? else r.chipRam[i]? := by
  induction bytes with
  | nil => intro p r hne; exact absurd rfl hne
  | cons d rest ih =>
    intro p r _ haddr i hi
    cases rest with
    | nil => exact getElem?_setIfInBounds_row _ _ _ _ hi
    | cons d' rest =>
      rw [rxTakeBurst, ih _ { r with chipRam := r.chipRam.setIfInBounds p d } (by simp) haddr i hi, haddr, nextRow,
        getElem?_setIfInBounds_row _ _ _ _ hi, List.getLast?_cons_cons]
      split <;> rfl

/-- Settles O48. -/
theorem burstPlacement : Obligations.BurstPlacement := fun r p bytes hne _ =>
  ⟨rxTakeBurst_increment bytes p r, rxTakeBurst_fixed bytes p r hne⟩

/-! ## Taking a transmission byte by byte -/

/-- What R149's apply makes of a transmission that begins with a mode command. -/
theorem rxApply_mode {c : Byte} (hc : c = 0x40 ∨ c = 0x44) (rest : List Byte) (r : Receiver) :
    rxApply (c :: rest) r = if rest = [] then r else rxLost r := by
  cases rest with
  | nil => rcases hc with rfl | rfl <;> rfl
  | cons b rest => rcases hc with rfl | rfl <;> rfl

/-- An address command is no other command, and its low half is its row (R74). -/
theorem isAddress_only {b : Byte} (h : b &&& 0xF0 = 0xC0) :
    b ≠ 0x40 ∧ b ≠ 0x44 ∧ b &&& 0xF8 ≠ 0x88 ∧ (b &&& 0x0F).toNat = (b.extractLsb' 0 4).toNat := by
  revert b
  decide

/-- A control command is no other command, and its low bits are its brightness (R75). -/
theorem isControl_only {b : Byte} (h : b &&& 0xF8 = 0x88) :
    b ≠ 0x40 ∧ b ≠ 0x44 ∧ b &&& 0xF0 ≠ 0xC0 ∧ controlByte (b.extractLsb' 0 3) = b := by
  revert b
  decide

theorem rxApply_address {a : Byte} (ha : a &&& 0xF0 = 0xC0) (rest : List Byte) (r : Receiver) :
    rxApply (a :: rest) r = if rest = [] then rxLost r else rxTakeBurst (a.extractLsb' 0 4).toNat rest r := by
  obtain ⟨h40, h44, h88, hrow⟩ := isAddress_only ha
  cases rest with
  | nil => simp only [rxApply, Config.cmdData, Config.cmdFixedAddr, h40, h44, h88, or_self, if_false, if_true]
  | cons b rest => simp only [rxApply, ha, hrow, if_true, reduceCtorEq, if_false]

theorem rxApply_control {c : Byte} (hc : c &&& 0xF8 = 0x88) (rest : List Byte) (r : Receiver) :
    rxApply (c :: rest) r = if rest = [] then { r with chipCtrl := c } else rxLost r := by
  obtain ⟨h40, h44, hC0, _⟩ := isControl_only hc
  cases rest with
  | nil => simp only [rxApply, Config.cmdData, Config.cmdFixedAddr, h40, h44, hc, or_self, if_false, if_true]
  | cons b rest => simp only [rxApply, hC0, if_false, reduceCtorEq]

/-- A first byte that is no command is none of R149's. -/
theorem rxApply_unknown {b : Byte} (hb : decodeCommand b = none) (rest : List Byte) (r : Receiver) :
    rxApply (b :: rest) r = rxLost r := by
  have hnot : b ≠ 0x40 ∧ b ≠ 0x44 ∧ b &&& 0xF0 ≠ 0xC0 ∧ b &&& 0xF8 ≠ 0x88 := by
    rw [decodeCommand] at hb
    split_ifs at hb with h40 h44 hC0 h88
    exact ⟨h40, h44, hC0, h88⟩
  obtain ⟨h40, h44, hC0, h88⟩ := hnot
  cases rest with
  | nil => simp only [rxApply, Config.cmdData, Config.cmdFixedAddr, h40, h44, h88, or_self, if_false]
  | cons b rest => simp only [rxApply, hC0, if_false]

/-- A step, and then `n` more. -/
theorem run_succ {n : Nat} {s t u : State} (h : step s = .next t) (h' : Sys2Proof.core.run n t = .next u) :
    Sys2Proof.core.run (n + 1) s = .next u := by
  have hstep : Sys2Proof.core.step s = .next t := h
  simp only [Host.Core.run, hstep]
  exact h'

theorem run_one {s t : State} (h : step s = .next t) : Sys2Proof.core.run 1 s = .next t := run_succ h rfl

/-- The step that takes a data byte of a burst. -/
theorem step_data (s : State) {r : Receiver} {d : Byte} {rest : List Byte} {p : Nat} (hcurrent : r.current = d :: rest)
    (hplace : r.place = .row p) : step { s with rx := r } = .next { s with rx := { r with
      chipRam := r.chipRam.setIfInBounds p d
      current := rest
      place := if rest = [] then .first else .row (nextRow r.addressing p) } } := by
  rw [step_run ((fetch_current (s := { s with rx := r }) hcurrent).trans (fetchByte_data hplace)), exec_data]
  exact congrArg (fun r' => Host.Outcome.next { s with rx := r' })
    (rxTakeData_row (r := { r with current := rest }) d hplace)

/-- The data bytes of a burst are taken one a step, and the receiver is then between transmissions. -/
theorem run_burst (s : State) (bytes : List Byte) : ∀ (p : Nat) {r : Receiver}, bytes ≠ [] → r.current = bytes →
    r.place = .row p → Sys2Proof.core.run bytes.length { s with rx := r } = .next { s with
      rx := { r with chipRam := (rxTakeBurst p bytes r).chipRam, current := [], place := .first } } := by
  induction bytes with
  | nil => intro p r hne; exact absurd rfl hne
  | cons d rest ih =>
    intro p r _ hcurrent hplace
    refine run_succ (step_data s hcurrent hplace) ?_
    cases rest with
    | nil => rfl
    | cons d' rest =>
      have hram : (rxTakeBurst (nextRow r.addressing p) (d' :: rest) { r with
          chipRam := r.chipRam.setIfInBounds p d
          current := d' :: rest
          place := .row (nextRow r.addressing p) }).chipRam = (rxTakeBurst p (d :: d' :: rest) r).chipRam :=
        rxTakeBurst_chipRam_congr (d' :: rest) _ rfl rfl
      rw [← hram]
      exact ih (nextRow r.addressing p) (by simp) rfl rfl

section FirstByte

variable {r : Receiver} {b : Byte} {rest : List Byte}

theorem with_current_nil (hcurrent : r.current = []) : { r with current := [] } = r := by rw [← hcurrent]

/-- A mode command taken as the first byte does what the whole transmission does. -/
theorem rxTakeMode_first (hcurrent : r.current = []) (hplace : r.place = .first) (hb : b = 0x40 ∨ b = 0x44) :
    rxTakeMode { r with current := rest } = rxApply (b :: rest) r := by
  rw [rxApply_mode hb]
  cases rest with
  | nil => rw [with_current_nil hcurrent, rxTakeMode_alone (alone_of_nil hplace hcurrent), if_pos rfl]
  | cons d rest =>
    rw [rxTakeMode_followed (not_alone (by simp)), if_neg (by simp)]
    rfl

/-- So does a control command. -/
theorem rxTakeControl_first (hcurrent : r.current = []) (hplace : r.place = .first) (hb : b &&& 0xF8 = 0x88) :
    rxTakeControl (b.extractLsb' 0 3) { r with current := rest } = rxApply (b :: rest) r := by
  rw [rxApply_control hb]
  cases rest with
  | nil =>
    obtain ⟨_, _, _, hbyte⟩ := isControl_only hb
    rw [with_current_nil hcurrent, rxTakeControl_alone _ (alone_of_nil hplace hcurrent), if_pos rfl, hbyte]
  | cons d rest =>
    rw [rxTakeControl_followed _ (not_alone (by simp)), if_neg (by simp)]
    rfl

/-- So does an address command with no byte behind it. -/
theorem rxTakeAddress_first (hb : b &&& 0xF0 = 0xC0) :
    rxTakeAddress (b.extractLsb' 0 4) { r with current := [] } = rxApply [b] r := by
  rw [rxApply_address hb, rxTakeAddress_alone _ rfl, if_pos rfl]
  rfl

/-- An address command and its data bytes are taken in as many steps as there are bytes. -/
theorem run_address (s : State) (hcurrent : r.current = []) (hplace : r.place = .first) (hb : b &&& 0xF0 = 0xC0)
    (hne : rest ≠ []) : Sys2Proof.core.run rest.length
      { s with rx := rxTakeAddress (b.extractLsb' 0 4) { r with current := rest } } =
        .next { s with rx := rxApply (b :: rest) r } := by
  have hram : (rxTakeBurst (b.extractLsb' 0 4).toNat rest { r with
      current := rest
      place := .row (b.extractLsb' 0 4).toNat }).chipRam = (rxTakeBurst (b.extractLsb' 0 4).toNat rest r).chipRam :=
    rxTakeBurst_chipRam_congr rest _ rfl rfl
  rw [rxTakeAddress_followed (r := { r with current := rest }) _ hplace hne, rxApply_address hb, if_neg hne,
    rxTakeBurst_frame, ← hram, hcurrent, hplace]
  exact run_burst s rest (b.extractLsb' 0 4).toNat hne rfl rfl

end FirstByte

/-- The step that takes a transmission's first byte, a command. -/
theorem step_command {s : State} {r : Receiver} {b : Byte} {rest : List Byte} {others : List (List Byte)} {i : Instr}
    (hcurrent : s.rx.current = []) (hqueue : s.rx.queue = (b :: rest) :: others)
    (hr : r = { s.rx with queue := others, place := .first }) (hi : decodeCommand b = some i) :
    step s = exec i { s with rx := { r with current := rest } } := by
  rw [hr]
  exact step_run ((fetch_queue hcurrent hqueue).trans (fetchByte_command rfl hi))

/-- Settles O47: the first byte's step is the whole of it but for a burst, whose bytes `run_burst` takes. -/
theorem bytewiseReceiverIsApply : Obligations.BytewiseReceiverIsApply := by
  intro s t others hcurrent hqueue
  cases t with
  | nil => exact ⟨1, run_one (step_unknown hcurrent hqueue (.inl rfl))⟩
  | cons b rest =>
    cases hi : decodeCommand b with
    | none =>
      rw [rxApply_unknown hi]
      exact ⟨1, run_one (step_unknown hcurrent hqueue (.inr ⟨b, rest, rfl, hi⟩))⟩
    | some i =>
      obtain ⟨r, hr⟩ : ∃ r : Receiver, r = { s.rx with queue := others, place := .first } := ⟨_, rfl⟩
      have hstep := step_command hcurrent hqueue hr hi
      have hrest : r.current = [] := by rw [hr]; exact hcurrent
      have hplace : r.place = .first := by rw [hr]
      rw [← hr]
      rcases decodeCommand_cases hi with ⟨hb, rfl⟩ | ⟨hb, rfl⟩ | ⟨hb, rfl⟩ | ⟨hb, rfl⟩
      · exact ⟨1, run_one (by rw [hstep, exec_cmdData, rxTakeMode_first hrest hplace (.inl hb)])⟩
      · exact ⟨1, run_one (by rw [hstep, exec_cmdFixedAddr, rxTakeMode_first hrest hplace (.inr hb)])⟩
      · rw [exec_cmdAddr] at hstep
        by_cases hne : rest = []
        · subst hne
          rw [rxTakeAddress_first hb] at hstep
          exact ⟨1, run_one hstep⟩
        · exact ⟨rest.length + 1, run_succ hstep (run_address s hrest hplace hb hne)⟩
      · exact ⟨1, run_one (by rw [hstep, exec_cmdDispCtrl, rxTakeControl_first hrest hplace hb])⟩

/-! ## A cut-off transmission (R242) -/

/-- A listed draw decides what the chip does with a cut-off transmission (log 10). -/
theorem abortFollows_eq {r : Receiver} {follows : Bool} (h : r.abortDraws[r.aborts]? = some follows) :
    abortFollows r = follows := by rw [abortFollows, h, Option.getD_some]

/-- Settles O49: the stop condition ends the open transmission, and so does a new start condition. -/
theorem abortedTransmissionOutcomes : Obligations.AbortedTransmissionOutcomes := by
  intro r follows hopen hcut hdraw
  have hfollows := abortFollows_eq hdraw
  cases follows <;> simp [rxEvent, beginTransmission, endTransmission, hopen, hcut, hfollows]

end Sys2Proof.Machine

/-! PROOFS. What every request and every step keeps (10_state.md sections 3, 5, 7 and 8; 60_exceptions.md sections 1 and
5; 30_encoding.md R70, R78, R79): each from the cases of Laws/Cases.lean and Laws/Step.lean. -/

namespace Sys2Proof.Machine

/-! ## At reset -/

/-- Settles O57. -/
theorem resetState : Obligations.ResetState :=
  ⟨rfl, rfl, rfl, rfl, rfl, rfl, rfl, rfl, rfl, rfl, rfl, rfl⟩

/-- Settles O58. -/
theorem resetMeetsInvariant : Obligations.ResetMeetsInvariant where
  quiet := ⟨rfl, rfl, rfl, rfl⟩
  shadowWf := rfl
  held := by simp [State.reset]
  silent _ := rfl
  openIsCut := rfl
  closedEmpty _ := rfl
  atFirst _ := rfl

/-! ## What a request sends -/

/-- A slice that differs from the shadow has a byte. -/
theorem ne_nil_of_differs {m : Memory} {pos : Nat} {bytes : List Byte} (h : readSlice m pos bytes.length ≠ bytes) :
    bytes ≠ [] := by
  rintro rfl
  exact h rfl

/-- In READY a request sends one control byte, the shadow being kept, or a WRITE of bytes that the shadow then has. -/
theorem Sends.ready_cases {q : Request} {s v : State} {ts : List (List Byte)} (h : Sends q s ts v)
    (hready : s.life = .ready) :
    (∃ b, ts = [[controlByte b]] ∧ v.shadow = s.shadow) ∨
    ∃ pos bytes, ts = writeSends pos bytes s.bright ∧ v.shadow = writeSlice s.shadow pos bytes ∧ pos ≤ 15 ∧
      pos + bytes.length ≤ 16 ∧ bytes ≠ [] := by
  cases h with
  | init hlife => simp [hready] at hlife
  | setBrightness => exact .inl ⟨_, rfl, rfl⟩
  | write _ hpos hfits hdiffers =>
    obtain ⟨hlow, hhigh⟩ := slice_of_legal hpos hfits
    exact .inr ⟨_, _, rfl, rfl, hlow, hhigh, ne_nil_of_differs hdiffers⟩
  | clear => exact .inr ⟨0, _, rfl, rfl, by decide, by decide, by decide⟩
  | teardown => exact .inr ⟨0, _, rfl, rfl, by decide, by decide, by decide⟩
  | @render _ frame =>
    have hlen := length_transformRows frame.toList s.cfgMirror s.cfgReversed
    exact .inr ⟨0, _, rfl, rfl, by decide, by rw [hlen], fun hnil => by simp [hnil] at hlen⟩

/-- Outside READY only INIT, in OFF, sends. -/
theorem Sends.late_cases {q : Request} {s v : State} {ts : List (List Byte)} (h : Sends q s ts v)
    (hlife : s.life ≠ .ready) : s.life = .off ∧ ∃ b, ts = [[0x40], [controlByte b]] := by
  cases h with
  | init hoff => exact ⟨hoff, _, rfl⟩
  | setBrightness hready => exact absurd hready hlife
  | write hready => exact absurd hready hlife
  | clear hready => exact absurd hready hlife
  | teardown hready => exact absurd hready hlife
  | render hready => exact absurd hready hlife

/-- A request sends at most 477 events (R139, R183). -/
theorem Sends.length_le {q : Request} {s v : State} {ts : List (List Byte)} (h : Sends q s ts v) :
    (sendEvents ts).length ≤ 477 := by
  by_cases hready : s.life = .ready
  · rcases h.ready_cases hready with ⟨b, rfl, _⟩ | ⟨pos, bytes, rfl, _, _, hfits, _⟩
    · rw [length_sendEvents_one]
      omega
    · rw [length_sendEvents_writeSends]
      omega
  · obtain ⟨_, b, rfl⟩ := h.late_cases hready
    rw [length_sendEvents_two]
    omega

/-- Settles O52. -/
theorem requestsAreBounded : Obligations.RequestsAreBounded := by
  intro q s t hexec
  rcases request_cases hexec with hwaits | ⟨hrun, ⟨r, u, hsilent, rfl⟩ | ⟨ts, v, u, r, hsends, hsent, rfl⟩⟩
  · exact .inl hwaits
  · obtain ⟨htrace, hresponses, _⟩ := hsilent.frame
    refine .inr ⟨r, [], hrun, Nat.zero_le _, ?_, ?_⟩
    · rw [replied_trace, htrace, List.append_nil]
    · rw [replied_responses, hresponses, List.length_nil]
  · obtain ⟨htrace, hresponses, _⟩ := hsends.frame
    obtain ⟨hresponses', _⟩ := hsent.frame
    obtain ⟨hkeptTrace, hkeptResponses, _⟩ := afterwards_frame q r u
    obtain ⟨es, hes, htrace'⟩ := hsent.trace
    rw [htrace] at htrace'
    have hn : u.trace.length - s.trace.length = es.length := by
      rw [htrace', List.length_append, Nat.add_sub_cancel_left]
    refine .inr ⟨answers q r, es, hrun, hes.trans hsends.length_le, ?_, ?_⟩
    · rw [replied_trace, hkeptTrace, htrace']
    · rw [replied_responses, hkeptResponses, hresponses', hresponses, hn]

/-! ## Who writes what (10_state.md section 8) -/

/-- The instructions of the receiver (R71). -/
def IsWireByte (i : Instr) : Prop :=
  i = .cmdData ∨ i = .cmdFixedAddr ∨ (∃ p, i = .cmdAddr p) ∨ (∃ b, i = .cmdDispCtrl b) ∨ ∃ d, i = .data d

/-- A wire byte moves the receiver alone. -/
theorem exec_wire {i : Instr} {s t : State} (hi : IsWireByte i) (hexec : exec i s = .next t) :
    t = { s with rx := t.rx } := by
  rcases hi with rfl | rfl | ⟨p, rfl⟩ | ⟨b, rfl⟩ | ⟨d, rfl⟩
  · cases hexec; rfl
  · cases hexec; rfl
  · cases hexec; rfl
  · cases hexec; rfl
  · cases hexec; rfl

/-- Settles O54: a request reaches the receiver's decoder alone, a wire byte the receiver alone. -/
theorem agentsKeepApart : Obligations.AgentsKeepApart := by
  refine ⟨fun q s t hexec => ?_, fun i s t hi hexec => exec_wire hi hexec⟩
  rcases request_cases hexec with ⟨_, rfl⟩ | ⟨_, ⟨r, u, hsilent, rfl⟩ | ⟨ts, v, u, r, hsends, hsent, rfl⟩⟩
  · exact ⟨rfl, rfl, rfl, rfl, rfl, rfl, rfl⟩
  · obtain ⟨_, _, hrequests, hdraws, _, _, _, hrx, _⟩ := hsilent.frame
    simp only [replied_rx, replied_requests, replied_lineDraws, hrx, hrequests, hdraws, and_self]
  · obtain ⟨_, _, hrequests, hdraws, _, _, hrx, _⟩ := hsends.frame
    obtain ⟨_, hrequests', hdraws', _⟩ := hsent.frame
    obtain ⟨hram, hctrl, haddr, hcurrent, hplace⟩ := hsent.rx_frame
    obtain ⟨_, _, hrequests'', hdraws'', _, _, _, hrx'', _⟩ := afterwards_frame q r u
    simp only [replied_rx, replied_requests, replied_lineDraws, hrx'', hrequests'', hdraws'', hrequests', hdraws', hram,
      hctrl, haddr, hcurrent, hplace, hrx, hrequests, hdraws, and_self]

/-- An instruction is a wire byte or a request. -/
theorem instr_cases (i : Instr) :
    IsWireByte i ∨ ∃ q : Request, i = q.toInstr := by
  cases i with
  | cmdData => exact .inl (.inl rfl)
  | cmdFixedAddr => exact .inl (.inr (.inl rfl))
  | cmdAddr p => exact .inl (.inr (.inr (.inl ⟨p, rfl⟩)))
  | cmdDispCtrl b => exact .inl (.inr (.inr (.inr (.inl ⟨b, rfl⟩))))
  | data d => exact .inl (.inr (.inr (.inr (.inr ⟨d, rfl⟩))))
  | init b m v => exact .inr ⟨.init b m v, rfl⟩
  | setBrightness l => exact .inr ⟨.setBrightness l, rfl⟩
  | write pos bytes => exact .inr ⟨.write pos bytes, rfl⟩
  | clear => exact .inr ⟨.clear, rfl⟩
  | teardown => exact .inr ⟨.teardown, rfl⟩
  | transform f m v => exact .inr ⟨.transform f m v, rfl⟩
  | render => exact .inr ⟨.render, rfl⟩
  | publish f => exact .inr ⟨.publish f, rfl⟩

/-! ## The flags (10_state.md section 5) -/

theorem Silent.flags {q : Request} {s u : State} {r : Response} (h : Silent q s r u) :
    u.cfgMirror = s.cfgMirror ∧ u.cfgReversed = s.cfgReversed := by cases h <;> exact ⟨rfl, rfl⟩

/-- Before its first event only INIT, in OFF, writes the flags. -/
theorem Sends.flags {q : Request} {s v : State} {ts : List (List Byte)} (h : Sends q s ts v) :
    (v.cfgMirror = s.cfgMirror ∧ v.cfgReversed = s.cfgReversed) ∨
      (s.life = .off ∧ ∃ b mirror reversed, q = .init b mirror reversed ∧ v.cfgMirror = mirror ∧
        v.cfgReversed = reversed) := by
  cases h with
  | init hoff => exact .inr ⟨hoff, _, _, _, rfl, rfl, rfl⟩
  | setBrightness => exact .inl ⟨rfl, rfl⟩
  | write => exact .inl ⟨rfl, rfl⟩
  | clear => exact .inl ⟨rfl, rfl⟩
  | teardown => exact .inl ⟨rfl, rfl⟩
  | render => exact .inl ⟨rfl, rfl⟩

/-- INIT's end is READY, or RELEASED after a line failure (R160). -/
theorem initEnd_life (failed : Bool) (u : State) :
    (initEnd failed u).life = if failed then .released else .ready := by cases failed <;> rfl

theorem initEnd_linesHeld (failed : Bool) (u : State) :
    (initEnd failed u).linesHeld = if failed then false else u.linesHeld := by cases failed <;> rfl

theorem afterwards_flags (q : Request) (r : Response) (u : State) :
    (afterwards q r u).cfgMirror = u.cfgMirror ∧ (afterwards q r u).cfgReversed = u.cfgReversed := by
  cases q with
  | init b m v =>
    rw [afterwards, initEnd]
    split <;> exact ⟨rfl, rfl⟩
  | _ => exact ⟨rfl, rfl⟩

/-- Settles O27. -/
theorem flagsWrittenByInitOnly : Obligations.FlagsWrittenByInitOnly := by
  intro i s t hexec
  rcases instr_cases i with hi | ⟨q, rfl⟩
  · rw [exec_wire hi hexec]
    exact .inl ⟨rfl, rfl⟩
  · rcases request_cases hexec with ⟨_, rfl⟩ | ⟨_, ⟨r, u, hsilent, rfl⟩ | ⟨ts, v, u, r, hsends, hsent, rfl⟩⟩
    · exact .inl ⟨rfl, rfl⟩
    · exact .inl hsilent.flags
    · obtain ⟨_, _, _, _, _, _, _, hmirror, hreversed, _⟩ := hsent.frame
      obtain ⟨hmirror', hreversed'⟩ := afterwards_flags q r u
      simp only [replied_cfgMirror, replied_cfgReversed, replied_life, hmirror', hreversed', hmirror, hreversed]
      refine hsends.flags.imp_right ?_
      rintro ⟨hoff, b, m, rev, rfl, hm, hrev⟩
      refine ⟨hoff, ?_, b, m, rev, rfl, hm, hrev⟩
      rw [afterwards, initEnd_life]
      split <;> simp

/-! ## RELEASED is terminal (60_exceptions.md section 5) -/

/-- A request that ends without an event outside READY writes at most the slot. -/
theorem Silent.eq_of_not_ready {q : Request} {s u : State} {r : Response} (h : Silent q s r u)
    (hlife : s.life ≠ .ready) : u = { s with slot := u.slot } := by
  cases h with
  | teardownZero hready => exact absurd hready hlife
  | _ => rfl

/-- From RELEASED a request writes at most the slot and the responses. -/
theorem exec_released {q : Request} {s t : State} (hreleased : s.life = .released)
    (hexec : exec q.toInstr s = .next t) :
    t = { s with slot := t.slot, responses := t.responses } := by
  have hlife : s.life ≠ .ready := by simp [hreleased]
  rcases request_cases hexec with ⟨_, rfl⟩ | ⟨_, ⟨r, u, hsilent, rfl⟩ | ⟨ts, v, u, r, hsends, _⟩⟩
  · rfl
  · rw [hsilent.eq_of_not_ready hlife]
    rfl
  · obtain ⟨hoff, _⟩ := hsends.late_cases hlife
    simp [hreleased] at hoff

/-- Settles O26. -/
theorem releasedIsTerminal : Obligations.ReleasedIsTerminal := by
  intro s t hreleased hstep
  rcases step_cases hstep with rfl | ⟨r, rfl, _⟩ | ⟨q, u, hu, hexec⟩ | ⟨bad, rest, rfl⟩
  · exact ⟨hreleased, rfl, rfl, rfl, rfl, rfl, rfl⟩
  · exact ⟨hreleased, rfl, rfl, rfl, rfl, rfl, rfl⟩
  · rcases hu with rfl | ⟨rest, rfl⟩
    · rw [exec_released hreleased hexec]
      exact ⟨hreleased, rfl, rfl, rfl, rfl, rfl, rfl⟩
    · rw [exec_released (s := { s with requests := rest }) hreleased hexec]
      exact ⟨hreleased, rfl, rfl, rfl, rfl, rfl, rfl⟩
  · exact ⟨hreleased, rfl, rfl, rfl, rfl, rfl, rfl⟩

/-! ## What the wire carries (30_encoding.md R70, R78, R79) -/

theorem legalTransmission_control (b : Brightness) : legalTransmission [controlByte b] = true := by
  revert b
  decide

/-- An address byte with 1 to 16 data bytes. -/
theorem legalTransmission_burst {pos : Nat} {bytes : List Byte} (hpos : pos ≤ 15) (hne : bytes ≠ [])
    (hlen : bytes.length ≤ 16) : legalTransmission (addressByte pos :: bytes) = true := by
  have haddress : addressByte pos &&& 0xF0 = 0xC0 := by interval_cases pos <;> rfl
  cases bytes with
  | nil => exact absurd rfl hne
  | cons d rest =>
    simpa only [legalTransmission, haddress, beq_self_eq_true, Bool.true_and, decide_eq_true_eq] using hlen

theorem legalTransmission_writeSends {pos : Nat} {bytes : List Byte} (hpos : pos ≤ 15) (hfits : pos + bytes.length ≤ 16)
    (hne : bytes ≠ []) (b : Brightness) : ∀ u ∈ writeSends pos bytes b, legalTransmission u = true := by
  intro u hu
  simp only [writeSends, List.mem_cons, List.not_mem_nil, or_false] at hu
  rcases hu with rfl | rfl | rfl
  · rfl
  · exact legalTransmission_burst hpos hne (by omega)
  · exact legalTransmission_control b

/-- What a request sends is legal. -/
theorem Sends.legal {q : Request} {s v : State} {ts : List (List Byte)} (h : Sends q s ts v) :
    ∀ u ∈ ts, legalTransmission u = true := by
  by_cases hready : s.life = .ready
  · rcases h.ready_cases hready with ⟨b, rfl, _⟩ | ⟨pos, bytes, rfl, _, hpos, hfits, hne⟩
    · simpa using legalTransmission_control b
    · exact legalTransmission_writeSends hpos hfits hne s.bright
  · obtain ⟨_, b, rfl⟩ := h.late_cases hready
    intro u hu
    simp only [List.mem_cons, List.not_mem_nil, or_false] at hu
    rcases hu with rfl | rfl
    · rfl
    · exact legalTransmission_control b

/-- Transmissions end with STOP, and so with both lines high (R135). -/
theorem foldl_sendEvents {ts : List (List Byte)} (hne : ts ≠ []) (c d : Level) :
    (sendEvents ts).foldl clkAfter c = true ∧ (sendEvents ts).foldl dioAfter d = true := by
  obtain ⟨us, t, rfl⟩ := List.eq_nil_or_concat ts |>.resolve_left hne
  have hlast : sendEvents (us ++ [t]) = (sendEvents us ++ (startEvents ++ t.flatMap shiftEvents)) ++ stopEvents := by
    simp [sendEvents, txEvents]
  rw [List.concat_eq_append, hlast, List.foldl_append, List.foldl_append (f := dioAfter)]
  exact ⟨foldl_clkAfter_stopEvents _, foldl_dioAfter_stopEvents _⟩

/-- After transmissions that succeeded only TEARDOWN lets go of the lines. -/
theorem afterwards_ok_lines {q : Request} (hq : q ≠ .teardown) (u : State) :
    (afterwards q (.ok []) u).clk = u.clk ∧ (afterwards q (.ok []) u).dio = u.dio := by
  cases q with
  | teardown => exact absurd rfl hq
  | _ => exact ⟨rfl, rfl⟩

/-- All that a request can do when its events succeed. -/
theorem request_succeeds {q : Request} {s t : State} (hexec : exec q.toInstr s = .next t)
    (hevents : eventsSucceed s 477) :
    t = s ∨ (∃ r u, Silent q s r u ∧ t = replied r 0 u) ∨
    ∃ ts v n, Sends q s ts v ∧ t = replied (answers q (.ok [])) n (afterwards q (.ok []) (afterSending ts v)) := by
  rcases request_cases hexec with ⟨_, rfl⟩ | ⟨_, hsilent | ⟨ts, v, u, r, hsends, hsent, rfl⟩⟩
  · exact .inl rfl
  · exact .inr (.inl hsilent)
  · obtain ⟨rfl, rfl⟩ := hsent.of_succeed
      ((hsends.eventsSucceed_iff _).2 (eventsSucceed_mono hsends.length_le hevents))
    exact .inr (.inr ⟨ts, v, _, hsends, rfl⟩)

/-- Settles O55. -/
theorem onlyLegalTransmissions : Obligations.OnlyLegalTransmissions := by
  intro q s t hexec hevents hclosed hcut
  rcases request_succeeds hexec hevents with rfl | ⟨r, u, hsilent, rfl⟩ | ⟨ts, v, n, hsends, rfl⟩
  · exact ⟨[], by simp, by simp [sendEvents], hclosed, by simp, by simp⟩
  · obtain ⟨htrace, _, _, _, _, _, _, hrx, _⟩ := hsilent.frame
    exact ⟨[], by simp [hrx], by simp [htrace, sendEvents], by simpa [hrx] using hclosed, by simp, by simp⟩
  · obtain ⟨htrace, _, _, _, _, _, hrx, _⟩ := hsends.frame
    obtain ⟨htrace', _, _, _, _, _, _, hrx', _⟩ := afterwards_frame q (.ok []) (afterSending ts v)
    have hclosed' : v.rx.isOpen = false := by rw [hrx]; exact hclosed
    refine ⟨ts, ?_, ?_, ?_, hsends.legal, fun hne hq => ?_⟩
    · rw [replied_rx, hrx', afterSending_rx, rxEvents_send hsends.ne_nil _ _ hclosed', hrx]
    · rw [replied_trace, htrace', afterSending_trace, htrace]
    · rw [replied_rx, hrx', afterSending_rx, rxEvents_send hsends.ne_nil _ _ hclosed']
      exact hclosed'
    · obtain ⟨hclk, hdio⟩ := afterwards_ok_lines hq (afterSending ts v)
      rw [replied_clk, replied_dio, hclk, hdio]
      exact foldl_sendEvents hne v.clk v.dio

/-! ## The invariant (10_state.md sections 3 and 7) -/

/-- A response and the port have no part in the invariant. -/
theorem StateInv.replied {s : State} (h : StateInv s) (r : Response) (n : Nat) : StateInv (replied r n s) :=
  ⟨h.quiet, h.shadowWf, h.held, h.silent, h.openIsCut, h.closedEmpty, h.atFirst⟩

theorem StateInv.withRequests {s : State} (h : StateInv s) (rest : List PortRequest) :
    StateInv { s with requests := rest } :=
  ⟨h.quiet, h.shadowWf, h.held, h.silent, h.openIsCut, h.closedEmpty, h.atFirst⟩

/-- The receiver's moves leave its decoder alone. -/
theorem StateInv.receiverMoved {s : State} {r : Receiver} (h : StateInv s) (hmoved : ReceiverMoved s.rx r) :
    StateInv { s with rx := r } := by
  obtain ⟨hopen, hbits, hcut, _, _, _, hplace⟩ := hmoved
  refine ⟨h.quiet, h.shadowWf, h.held, h.silent, ?_, ?_, hplace⟩
  · exact hopen.trans (h.openIsCut.trans hcut.symm)
  · exact fun hclosed => hbits.trans (h.closedEmpty (hopen.symm.trans hclosed))

/-- A request that ends without an event keeps lifecycle and lines, or is a TEARDOWN and releases them. -/
theorem Silent.life {q : Request} {s u : State} {r : Response} (h : Silent q s r u) :
    (u.life = s.life ∧ u.linesHeld = s.linesHeld) ∨ (u.life = .released ∧ u.linesHeld = false) := by
  cases h with
  | teardownZero => exact .inr ⟨rfl, rfl⟩
  | _ => exact .inl ⟨rfl, rfl⟩

theorem StateInv.silent_request {q : Request} {s u : State} {r : Response} (h : StateInv s) (hsilent : Silent q s r u) :
    StateInv u := by
  obtain ⟨htrace, _, _, _, hlock, hslotLock, hshadow, hrx, hphase, hbitidx⟩ := hsilent.frame
  refine ⟨?_, ?_, ?_, ?_, ?_, ?_, ?_⟩
  · simpa only [Quiet, hphase, hbitidx, hlock, hslotLock] using h.quiet
  · simpa only [hshadow] using h.shadowWf
  · rcases hsilent.life with ⟨hlife, hlines⟩ | ⟨hlife, hlines⟩
    · rw [hlife, hlines]
      exact h.held
    · simp [hlife, hlines]
  · intro hoff
    rcases hsilent.life with ⟨hlife, _⟩ | ⟨hlife, _⟩
    · exact htrace.trans (h.silent (hlife.symm.trans hoff))
    · simp [hlife] at hoff
  · simpa only [hrx] using h.openIsCut
  · simpa only [hrx] using h.closedEmpty
  · simpa only [hrx] using h.atFirst

/-- A transmission sent whole leaves the decoder closed, and one cut off leaves it open as cut (R137, R138). -/
theorem SendResult.openIsCut {start : Nat} {ts : List (List Byte)} {v u : State} {r : Response} (hne : ts ≠ [])
    (h : SendResult start ts v u r) : u.rx.isOpen = u.rx.cut := by
  rcases h with ⟨_, rfl, _⟩ | ⟨k, x, b, _, _, rfl, _⟩
  · obtain ⟨hclosed, hcut⟩ := rxEvents_send_closed hne v.clk v.dio v.rx
    rw [afterSending_rx, hclosed, hcut]
  · rfl

/-- Sending, whole or cut off, keeps samples inside a transmission only. -/
theorem SendResult.closedEmpty {start : Nat} {ts : List (List Byte)} {v u : State} {r : Response}
    (h : SendResult start ts v u r) (hempty : v.rx.isOpen = false → v.rx.bits = []) :
    u.rx.isOpen = false → u.rx.bits = [] := by
  rcases h with ⟨_, rfl, _⟩ | ⟨k, x, b, _, _, rfl, _⟩
  · exact rxEvents_bits _ _ _ _ hempty
  · exact rxEvents_bits _ _ _ _ hempty

/-- After its transmissions a request is in READY with the lines held, or RELEASED without them. -/
theorem afterwards_life {q : Request} {s v u : State} {ts : List (List Byte)} {start : Nat} {r : Response}
    (hsends : Sends q s ts v) (hsent : SendResult start ts v u r) (hheld : s.life = .ready → s.linesHeld = true) :
    ((afterwards q r u).life = .ready ∧ (afterwards q r u).linesHeld = true) ∨
      ((afterwards q r u).life = .released ∧ (afterwards q r u).linesHeld = false) := by
  obtain ⟨_, _, _, _, _, _, _, _, _, hlife, _, hlines, _⟩ := hsent.frame
  cases hsends with
  | init =>
    rw [afterwards, initEnd_life, initEnd_linesHeld, hlines]
    cases (r != .ok []) with
    | true => exact .inr ⟨rfl, rfl⟩
    | false => exact .inl ⟨rfl, rfl⟩
  | teardown => exact .inr ⟨rfl, rfl⟩
  | setBrightness hready => exact .inl ⟨hlife.trans hready, hlines.trans (hheld hready)⟩
  | write hready => exact .inl ⟨hlife.trans hready, hlines.trans (hheld hready)⟩
  | clear hready => exact .inl ⟨hlife.trans hready, hlines.trans (hheld hready)⟩
  | render hready => exact .inl ⟨hlife.trans hready, hlines.trans (hheld hready)⟩

theorem StateInv.sending_request {q : Request} {s v u : State} {ts : List (List Byte)} {start : Nat} {r : Response}
    (h : StateInv s) (hsends : Sends q s ts v) (hsent : SendResult start ts v u r) : StateInv (afterwards q r u) := by
  obtain ⟨_, _, hlockFree, hslotLockFree⟩ := h.quiet
  obtain ⟨_, _, _, _, hlock, hslotLock, hrx, _⟩ := hsends.frame
  obtain ⟨_, _, _, hlock', hslotLock', hshadow', _, _, _, _, _, _, hphase', hbitidx'⟩ := hsent.frame
  obtain ⟨_, _, _, hcurrent', hplace'⟩ := hsent.rx_frame
  obtain ⟨_, _, _, _, hlock'', hslotLock'', hshadow'', hrx'', hphase'', hbitidx''⟩ := afterwards_frame q r u
  have hlife := afterwards_life hsends hsent h.held.2
  refine ⟨⟨hphase''.trans hphase', hbitidx''.trans hbitidx', ?_, ?_⟩, ?_, ?_, ?_, ?_, ?_, ?_⟩
  · rw [hlock'', hlock', hlock, hlockFree]
  · rw [hslotLock'', hslotLock', hslotLock, hslotLockFree]
  · rw [hshadow'', hshadow']
    exact hsends.wf h.shadowWf
  · rcases hlife with ⟨hl, hh⟩ | ⟨hl, hh⟩ <;> simp [hl, hh]
  · rcases hlife with ⟨hl, _⟩ | ⟨hl, _⟩ <;> simp [hl]
  · rw [hrx'']
    exact hsent.openIsCut hsends.ne_nil
  · rw [hrx'']
    exact hsent.closedEmpty (by rw [hrx]; exact h.closedEmpty)
  · rw [hrx'', hcurrent', hplace', hrx]
    exact h.atFirst

/-- Every request keeps the invariant. -/
theorem StateInv.request {q : Request} {s t : State} (h : StateInv s) (hexec : exec q.toInstr s = .next t) :
    StateInv t := by
  rcases request_cases hexec with ⟨_, rfl⟩ | ⟨_, ⟨r, u, hsilent, rfl⟩ | ⟨ts, v, u, r, hsends, hsent, rfl⟩⟩
  · exact h
  · exact (h.silent_request hsilent).replied r 0
  · exact (h.sending_request hsends hsent).replied _ _

/-- Settles O59, by all that a step can do: nothing, a move of the receiver, a request, or a refusal. -/
theorem stepKeepsInvariant : Obligations.StepKeepsInvariant := by
  intro s t h hstep
  rcases step_cases hstep with rfl | ⟨r, rfl, hmoved⟩ | ⟨q, u, hu, hexec⟩ | ⟨bad, rest, rfl⟩
  · exact h
  · exact h.receiverMoved hmoved
  · rcases hu with rfl | ⟨rest, rfl⟩
    · exact h.request hexec
    · exact (h.withRequests rest).request hexec
  · exact (h.withRequests rest).replied _ 0

end Sys2Proof.Machine

/-! PROOFS. The shadow invariant (20_memory.md R56): what the chip's rows are once the receiver has caught up with a
request's transmissions, and that they are the shadow's. -/

namespace Sys2Proof.Machine

/-! ## The receiver when it has caught up -/

/-- What decides a receiver's rows, whatever its decoder and its queue are at. -/
def SameChip (r r' : Receiver) : Prop :=
  r.chipRam = r'.chipRam ∧ r.addressing = r'.addressing ∧ r.unknowns = r'.unknowns

theorem SameChip.burst {r r' : Receiver} (h : SameChip r r') (p : Nat) (bytes : List Byte) :
    SameChip (rxTakeBurst p bytes r) (rxTakeBurst p bytes r') := by
  obtain ⟨hram, haddr, hunknowns⟩ := h
  refine ⟨rxTakeBurst_chipRam_congr bytes p hram haddr, ?_, ?_⟩
  · rw [rxTakeBurst_frame, rxTakeBurst_frame (r := r')]
    exact haddr
  · rw [rxTakeBurst_frame, rxTakeBurst_frame (r := r')]
    exact hunknowns

theorem SameChip.lost {r r' : Receiver} (h : SameChip r r') : SameChip (rxLost r) (rxLost r') := by
  obtain ⟨_, haddr, hunknowns⟩ := h
  refine ⟨?_, haddr, ?_⟩
  · exact congrArg Config.unknownRam hunknowns
  · exact congrArg (· + 1) hunknowns

/-- A transmission acts on the rows by what decides them. -/
theorem SameChip.apply {r r' : Receiver} (h : SameChip r r') (t : List Byte) :
    SameChip (rxApply t r) (rxApply t r') := by
  unfold rxApply
  split
  · exact h.lost
  · split
    · exact h
    · split
      · exact h
      · exact h.lost
  · split
    · exact h.burst _ _
    · exact h.lost

theorem SameChip.foldl {r r' : Receiver} (ts : List (List Byte)) (h : SameChip r r') :
    SameChip (ts.foldl (fun r t => rxApply t r) r) (ts.foldl (fun r t => rxApply t r) r') := by
  induction ts generalizing r r' with
  | nil => exact h
  | cons t ts ih => exact ih (h.apply t)

/-- A closed receiver catches up with what it had, and then with the transmissions sent to it. -/
theorem caughtUp_send {ts : List (List Byte)} (hne : ts ≠ []) (c d : Level) {r : Receiver}
    (hclosed : r.isOpen = false) :
    (caughtUp (rxEvents c d (sendEvents ts) r)).chipRam =
      (ts.foldl (fun r t => rxApply t r) (caughtUp r)).chipRam := by
  have hsame : SameChip { r with bits := [], cut := false, queue := r.queue ++ ts } r := ⟨rfl, rfl, rfl⟩
  rw [rxEvents_send hne c d hclosed, caughtUp, List.foldl_append]
  exact ((hsame.foldl r.queue).foldl ts).1

/-! ## What the transmissions of a request do to the rows -/

theorem controlByte_isControl (b : Brightness) : controlByte b &&& 0xF8 = 0x88 := by
  revert b
  decide

theorem rxApply_controlByte (b : Brightness) (r : Receiver) :
    rxApply [controlByte b] r = { r with chipCtrl := controlByte b } := by
  rw [rxApply_control (controlByte_isControl b), if_pos rfl]

theorem rxApply_burst {pos : Nat} {bytes : List Byte} (hpos : pos ≤ 15) (hne : bytes ≠ []) (r : Receiver) :
    rxApply (addressByte pos :: bytes) r = rxTakeBurst pos bytes r := by
  have hmask : addressByte pos &&& 0xF0 = 0xC0 := by interval_cases pos <;> rfl
  have hrow : ((addressByte pos).extractLsb' 0 4).toNat = pos := by interval_cases pos <;> rfl
  rw [rxApply_address hmask, if_neg hne, hrow]

/-- A WRITE's three transmissions do to the rows what its burst does. -/
theorem foldl_writeSends_chipRam {pos : Nat} {bytes : List Byte} (hpos : pos ≤ 15) (hne : bytes ≠ []) (b : Brightness)
    (r : Receiver) : ((writeSends pos bytes b).foldl (fun r t => rxApply t r) r).chipRam =
      (rxTakeBurst pos bytes r).chipRam := by
  rw [writeSends, List.foldl_cons, List.foldl_cons, List.foldl_cons, List.foldl_nil, rxApply_controlByte,
    rxApply_burst hpos hne, rxApply_mode (.inr rfl), if_pos rfl]

/-- Each row of a burst takes its own byte under INCREMENT, and under FIXED if there is only one. -/
theorem rxTakeBurst_row {pos : Nat} {bytes : List Byte} {r : Receiver} (hne : bytes ≠ [])
    (haddr : r.addressing = .increment ∨ bytes.length ≤ 1) {i : Nat} (hi : i < 16) :
    (rxTakeBurst pos bytes r).chipRam[i]? =
      if pos ≤ i ∧ i < pos + bytes.length then bytes[i - pos]? else r.chipRam[i]? := by
  cases hr : r.addressing with
  | increment => exact rxTakeBurst_increment bytes pos r hr i hi
  | fixed =>
    obtain ⟨x, rfl⟩ : ∃ x, bytes = [x] := by
      have hone : bytes.length ≤ 1 := haddr.resolve_left (by simp [hr])
      exact List.length_eq_one_iff.1 (Nat.le_antisymm hone (List.length_pos_iff.2 hne))
    rw [rxTakeBurst_fixed [x] pos r hne hr i hi]
    by_cases h : i = pos
    · subst h
      simp
    · rw [if_neg h, if_neg (by simp only [List.length_singleton]; omega)]

/-- Row `i` of the chip is the memory's, once the receiver has caught up: RowMatches of a receiver and a shadow. -/
def RowIs (r : Receiver) (m : Memory) (i : Nat) : Prop := (caughtUp r).chipRam[i]? = some (readByte m i)

theorem rowMatches_iff {s : State} {i : Nat} : RowMatches s i ↔ RowIs s.rx s.shadow i := Iff.rfl

/-- After a WRITE's transmissions a row it carries, and one that matched before, match the shadow it wrote. -/
theorem rowIs_after_write {r : Receiver} {m : Memory} {pos : Nat} {bytes : List Byte} (b : Brightness) (c d : Level)
    (hclosed : r.isOpen = false) (hwf : m.wf = true) (hpos : pos ≤ 15) (hfits : pos + bytes.length ≤ 16)
    (hne : bytes ≠ []) (haddr : r.addressing = .increment ∨ bytes.length ≤ 1) {i : Nat} (hi : i < 16)
    (h : (pos ≤ i ∧ i < pos + bytes.length) ∨ RowIs r m i) :
    RowIs (rxEvents c d (sendEvents (writeSends pos bytes b)) r) (writeSlice m pos bytes) i := by
  have haddr' : (caughtUp r).addressing = .increment ∨ bytes.length ≤ 1 := by rwa [caughtUp_addressing]
  rw [RowIs, caughtUp_send (writeSends_ne pos bytes b) c d hclosed, foldl_writeSends_chipRam hpos hne,
    rxTakeBurst_row hne haddr' hi]
  by_cases hin : pos ≤ i ∧ i < pos + bytes.length
  · obtain ⟨k, rfl⟩ := Nat.exists_eq_add_of_le hin.1
    have hk : k < bytes.length := by omega
    rw [if_pos hin, readByte_writeSlice hfits hwf hk, Nat.add_sub_cancel_left, List.getElem?_eq_getElem hk]
  · rw [if_neg hin, readByte_writeSlice_outside (by omega)]
    exact h.resolve_left hin

/-- A control byte leaves the rows alone. -/
theorem rowIs_after_control {r : Receiver} {m : Memory} (b : Brightness) (c d : Level) (hclosed : r.isOpen = false)
    {i : Nat} (h : RowIs r m i) : RowIs (rxEvents c d (sendEvents [[controlByte b]]) r) m i := by
  rw [RowIs, caughtUp_send (by simp) c d hclosed, List.foldl_cons, List.foldl_nil, rxApply_controlByte]
  exact h

/-- INIT's two commands do too. -/
theorem rowIs_after_init {r : Receiver} {m : Memory} (b : Brightness) (c d : Level) (hclosed : r.isOpen = false)
    {i : Nat} (h : RowIs r m i) : RowIs (rxEvents c d (sendEvents [[0x40], [controlByte b]]) r) m i := by
  rw [RowIs, caughtUp_send (by simp) c d hclosed, List.foldl_cons, List.foldl_cons, List.foldl_nil, rxApply_controlByte,
    rxApply_mode (.inl rfl), if_pos rfl]
  exact h

/-! ## The states before and after -/

theorem RowIs.of_eq {r r' : Receiver} {m m' : Memory} {i : Nat} (h : RowIs r m i) (hr : r' = r) (hm : m' = m) :
    RowIs r' m' i := by rwa [hr, hm]

/-- A request leaves the receiver between transmissions if its events succeed and it was there before. -/
theorem between_after_sending {q : Request} {s v : State} {ts : List (List Byte)} (hsends : Sends q s ts v)
    (hbetween : BetweenTransmissions s) (r : Response) (n : Nat) :
    BetweenTransmissions (replied (answers q r) n (afterwards q r (afterSending ts v))) := by
  obtain ⟨hclosed, hcurrent, hplace⟩ := hbetween
  obtain ⟨_, _, _, _, _, _, hrx, _⟩ := hsends.frame
  obtain ⟨_, _, _, _, _, _, _, hrx', _⟩ := afterwards_frame q r (afterSending ts v)
  rw [← hrx] at hclosed hcurrent hplace
  rw [BetweenTransmissions, replied_rx, hrx', afterSending_rx, rxEvents_send hsends.ne_nil _ _ hclosed]
  exact ⟨hclosed, hcurrent, hplace⟩

/-- What the receiver and the shadow are after a request whose transmissions were sent. -/
theorem rowMatches_after_sending {q : Request} {s v : State} {ts : List (List Byte)} (hsends : Sends q s ts v)
    (r : Response) (n : Nat) {i : Nat}
    (h : RowIs (rxEvents s.clk s.dio (sendEvents ts) s.rx) v.shadow i) :
    RowMatches (replied (answers q r) n (afterwards q r (afterSending ts v))) i := by
  obtain ⟨_, _, _, _, _, _, hrx, hclk, hdio, _⟩ := hsends.frame
  obtain ⟨_, _, _, _, _, _, hshadow', hrx', _⟩ := afterwards_frame q r (afterSending ts v)
  refine rowMatches_iff.2 (h.of_eq ?_ ?_)
  · rw [replied_rx, hrx', afterSending_rx, hrx, hclk, hdio]
  · rw [replied_shadow, hshadow', afterSending_shadow]

/-- A request that ends without an event keeps the match. -/
theorem Silent.shadowMatches {q : Request} {s u : State} {r : Response} (h : Silent q s r u) (hs : ShadowMatches s)
    (n : Nat) : ShadowMatches (replied r n u) := by
  obtain ⟨_, _, _, _, _, _, hshadow, hrx, _⟩ := h.frame
  simpa only [ShadowMatches, BetweenTransmissions, RowMatches, replied_rx, replied_shadow, hrx, hshadow] using hs

/-- A request that sends adds to the trace. -/
theorem trace_after_sending_ne {q : Request} {s v : State} {ts : List (List Byte)} (hsends : Sends q s ts v)
    (r : Response) (n : Nat) : (replied (answers q r) n (afterwards q r (afterSending ts v))).trace ≠ s.trace := by
  obtain ⟨htrace, _⟩ := hsends.frame
  obtain ⟨htrace', _⟩ := afterwards_frame q r (afterSending ts v)
  obtain ⟨t, us, rfl⟩ := List.exists_cons_of_ne_nil hsends.ne_nil
  rw [replied_trace, htrace', afterSending_trace, htrace]
  intro h
  simp [sendEvents, txEvents, startEvents] at h

/-- Under INCREMENT sixteen bytes written at row 0 make every row match, whatever the chip held. -/
theorem rowIs_after_sixteen {r : Receiver} {m : Memory} {bytes : List Byte} (hlen : bytes.length = 16) (b : Brightness)
    (c d : Level) (hclosed : r.isOpen = false) (hwf : m.wf = true) (haddr : r.addressing = .increment) {i : Nat}
    (hi : i < 16) : RowIs (rxEvents c d (sendEvents (writeSends 0 bytes b)) r) (writeSlice m 0 bytes) i :=
  rowIs_after_write b c d hclosed hwf (Nat.zero_le _) (by rw [hlen]) (fun hnil => by simp [hnil] at hlen) (.inl haddr)
    hi (.inl ⟨Nat.zero_le _, by rwa [hlen, Nat.zero_add]⟩)

/-- In READY the transmissions of a request keep a matching row, where they place each byte in its own row. -/
theorem rowIs_after_ready {q : Request} {s v : State} {ts : List (List Byte)} (hsends : Sends q s ts v)
    (hready : s.life = .ready) (hwf : s.shadow.wf = true) (hclosed : s.rx.isOpen = false)
    (haddr : s.rx.addressing = .increment ∨ (∃ level, q = .setBrightness level) ∨
      ∃ pos bytes, q = .write pos bytes ∧ bytes.length ≤ 1)
    (c d : Level) {i : Nat} (hi : i < 16) (h : RowIs s.rx s.shadow i) :
    RowIs (rxEvents c d (sendEvents ts) s.rx) v.shadow i := by
  cases hsends with
  | init hoff => simp [hready] at hoff
  | setBrightness => exact rowIs_after_control _ c d hclosed h
  | write _ hpos hfits hdiffers =>
    obtain ⟨hlow, hhigh⟩ := slice_of_legal hpos hfits
    exact rowIs_after_write _ c d hclosed hwf hlow hhigh (ne_nil_of_differs hdiffers) (by simpa using haddr) hi (.inr h)
  | clear =>
    exact rowIs_after_sixteen List.length_replicate _ c d hclosed hwf (by simpa using haddr) hi
  | teardown =>
    exact rowIs_after_sixteen List.length_replicate _ c d hclosed hwf (by simpa using haddr) hi
  | render =>
    dsimp only
    exact rowIs_after_sixteen (length_transformRows _ _ _) _ c d hclosed hwf (by simpa using haddr) hi

/-! ## The shadow invariant -/

/-- Every request of READY whose bytes each have a row of their own keeps the match, and so does one that emits
nothing. -/
theorem shadowMatches_kept {q : Request} {s t : State} (hwf : s.shadow.wf = true) (hready : s.life = .ready)
    (hmatches : ShadowMatches s)
    (haddr : s.rx.addressing = .increment ∨ (∃ level, q = .setBrightness level) ∨
      (∃ pos bytes, q = .write pos bytes ∧ bytes.length ≤ 1) ∨ t.trace = s.trace)
    (hevents : eventsSucceed s 477) (hexec : exec q.toInstr s = .next t) : ShadowMatches t := by
  obtain ⟨hbetween, hrows⟩ := hmatches
  rcases request_succeeds hexec hevents with rfl | ⟨r, u, hsilent, rfl⟩ | ⟨ts, v, n, hsends, rfl⟩
  · exact ⟨hbetween, hrows⟩
  · exact hsilent.shadowMatches ⟨hbetween, hrows⟩ 0
  · have hplaced : s.rx.addressing = .increment ∨ (∃ level, q = .setBrightness level) ∨
        ∃ pos bytes, q = .write pos bytes ∧ bytes.length ≤ 1 :=
      haddr.imp_right (·.imp_right (·.resolve_right (trace_after_sending_ne hsends _ _)))
    refine ⟨between_after_sending hsends hbetween _ n, fun i hi => rowMatches_after_sending hsends _ n ?_⟩
    exact rowIs_after_ready hsends hready hwf hbetween.1 hplaced _ _ hi (hrows i hi)

/-- INIT over all-zero rows makes the shadow, which it zeroes, match. -/
theorem shadowMatches_init {s t : State} {brightness : Int} {mirror reversed : Bool} (hwf : s.shadow.wf = true)
    (hoff : s.life = .off) (hfree : s.lock = .free) (hlow : 0 ≤ brightness) (hhigh : brightness ≤ 7)
    (hbetween : BetweenTransmissions s) (hzero : ∀ i, i < 16 → (caughtUp s.rx).chipRam[i]? = some 0x00)
    (hevents : eventsSucceed s 62) (hexec : exec (.init brightness mirror reversed) s = .next t) : ShadowMatches t := by
  have hsends : Sends (.init brightness mirror reversed) s [[0x40], [controlByte (brightnessOf brightness)]]
      (configure brightness mirror reversed s) := .init hoff (brightnessLegal_iff.2 ⟨hlow, hhigh⟩)
  have hsent := exec_sends_succeed (q := .init brightness mirror reversed) (engine_runs hfree) hsends
    (length_sendEvents_two _ _) hevents
  obtain rfl := Host.Outcome.next.inj (hexec.symm.trans hsent)
  refine ⟨between_after_sending hsends hbetween _ _, fun i hi => rowMatches_after_sending hsends _ _ ?_⟩
  rw [configure_shadow, writeSlice_zeros hwf]
  exact rowIs_after_init _ _ _ hbetween.1 (hzero i hi)

/-- A WRITE that emits makes its rows match and keeps those that match. -/
theorem rowMatches_write {s t : State} {pos : Nat} {bytes : List Byte} (hwf : s.shadow.wf = true)
    (hready : s.life = .ready) (hfree : s.lock = .free) (hbetween : BetweenTransmissions s) (hpos : pos ≤ 15)
    (hfits : pos + bytes.length ≤ 16) (hdiffers : readSlice s.shadow pos bytes.length ≠ bytes)
    (haddr : s.rx.addressing = .increment ∨ bytes.length ≤ 1) (hevents : eventsSucceed s (93 + 24 * bytes.length))
    (hexec : exec (.write pos bytes) s = .next t) : BetweenTransmissions t ∧
      ∀ i, i < 16 → ((pos ≤ i ∧ i < pos + bytes.length) ∨ RowMatches s i) → RowMatches t i := by
  have hsends : Sends (.write pos bytes) s (writeSends pos bytes s.bright)
      { s with shadow := writeSlice s.shadow pos bytes } := by
    have hlegal : positionLegal pos = true ∧ sliceFits pos bytes.length = true := by
      simp only [positionLegal, sliceFits, Bool.and_eq_true, decide_eq_true_eq]
      omega
    exact .write hready hlegal.1 hlegal.2 hdiffers
  have hsent := exec_sends_succeed (q := .write pos bytes) (engine_runs hfree) hsends
    (length_sendEvents_writeSends pos bytes s.bright) hevents
  obtain rfl := Host.Outcome.next.inj (hexec.symm.trans hsent)
  refine ⟨between_after_sending hsends hbetween _ _, fun i hi h => rowMatches_after_sending hsends _ _ ?_⟩
  exact rowIs_after_write s.bright _ _ hbetween.1 hwf hpos hfits (ne_nil_of_differs hdiffers) haddr hi h

/-- A request that carries all sixteen rows makes every row match, whatever the chip held. -/
theorem shadowMatches_sixteen {q : Request} {s t : State} (hwf : s.shadow.wf = true)
    (hbetween : BetweenTransmissions s) (hincrement : s.rx.addressing = .increment) (hevents : eventsSucceed s 477)
    (hq : q = .clear ∨ q = .render ∨ ∃ bytes, bytes.length = 16 ∧ q = .write 0 bytes)
    (hexec : exec q.toInstr s = .next t) (hemits : t.trace ≠ s.trace) : ShadowMatches t := by
  rcases request_succeeds hexec hevents with rfl | ⟨r, u, hsilent, rfl⟩ | ⟨ts, v, n, hsends, rfl⟩
  · exact absurd rfl hemits
  · exact absurd hsilent.frame.1 hemits
  · refine ⟨between_after_sending hsends hbetween _ n, fun i hi => rowMatches_after_sending hsends _ n ?_⟩
    rcases hq with rfl | rfl | ⟨bytes, hlen, rfl⟩
    · cases hsends with
      | clear => exact rowIs_after_sixteen List.length_replicate _ _ _ hbetween.1 hwf hincrement hi
    · cases hsends with
      | render => exact rowIs_after_sixteen (length_transformRows _ _ _) _ _ _ hbetween.1 hwf hincrement hi
    · cases hsends with
      | write => exact rowIs_after_sixteen hlen _ _ _ hbetween.1 hwf hincrement hi

/-- Settles O56: what keeps the match, and the three ways to establish it. -/
theorem shadowMatchesChip : Obligations.ShadowMatchesChip := by
  refine ⟨fun q s t hwf hready _ hmatches haddr hevents hexec => ?_,
    fun s t b m v hwf hoff hfree hlow hhigh hbetween hzero hevents hexec => ?_,
    fun s t pos bytes hwf hready hfree hbetween hpos hfits hdiffers haddr hevents hexec => ?_,
    fun q s t hwf _ _ hbetween hincrement hevents hq hexec hemits => ?_⟩
  · exact shadowMatches_kept hwf hready hmatches haddr hevents hexec
  · exact shadowMatches_init hwf hoff hfree hlow hhigh hbetween hzero hevents hexec
  · exact rowMatches_write hwf hready hfree hbetween hpos hfits hdiffers haddr hevents hexec
  · exact shadowMatches_sixteen hwf hbetween hincrement hevents hq hexec hemits

end Sys2Proof.Machine
